-- ==== Sys2Proof/Config.lean ====
section
/-! DEFINITION. Config.lean: the two parameters the spec leaves open (00_scope.md R7) and the
constants it fixes (R6). -/

namespace Sys2Proof

/-- The parameters a model takes as arguments (00_scope.md R7): the capacity of IDXMEM and the
depth of INQ. They are fixed for one machine; no step changes them. -/
structure Params where
  idxCap   : Nat
  inqDepth : Nat
  deriving DecidableEq, Repr

namespace Config

/-- An open number nothing constrains; it picks `IDX_CAP` (R7, U4; log 3). -/
opaque idxCapChoice : Nat

/-- An open number nothing constrains; it picks `INQ_DEPTH` (R7, U5; log 3). -/
opaque inqDepthChoice : Nat

/-- `DICT_SIZE` (R6): "a hard ceiling of 4096 entries". -/
abbrev dictSize : Nat := 4096

/-- `MAX_WIDTH` (R6): "capped at 12 bits". -/
abbrev maxWidth : Nat := 12

/-- `PAL_ENTRIES` (R7). -/
abbrev palEntries : Nat := 256

/-- The largest `IDX_CAP` of R7, `65535 * 65535`. -/
abbrev idxCapMax : Nat := 4294836225

/-- The parameters of this machine: any `1 <= IDX_CAP <= 4294836225` and any `INQ_DEPTH >= 1`
(R7), by a choice no proof can see. -/
def params : Params :=
  { idxCap := 1 + idxCapChoice % idxCapMax, inqDepth := 1 + inqDepthChoice }

end Config

/-- What R7 says of the parameters. -/
def Params.ok (p : Params) : Bool :=
  1 ≤ p.idxCap && p.idxCap ≤ Config.idxCapMax && 1 ≤ p.inqDepth

end Sys2Proof
end

