-- ==== Sys2Proof/Word.lean ====
section
/-! DEFINITION. Word.lean: the value types of the block (10_state.md R16, 20_memory.md R48). -/

namespace Sys2Proof

/-- A byte: an entry of IDXMEM and of INQ, and a palette index (R48, R6). -/
abbrev Byte := BitVec 8

/-- A host register: 32 bits (10_state.md R16). -/
abbrev Word := BitVec 32

/-- A packed 16-bit colour, opaque to the block (42_palette_mapper.md R126). -/
abbrev Colour := BitVec 16

/-- A code of the stream: at most 12 bits (00_scope.md R6), zero-extended (30_encoding.md R74). -/
abbrev Code := BitVec 12

/-- The word index `reg_addr` of a register: its byte offset divided by 4 (10_state.md R37). -/
abbrev RegAddr := BitVec 10

/-- `v[lo+n-1 : lo]`, the field notation of 00_scope.md R8. -/
abbrev field (v : Word) (lo n : Nat) : BitVec n := v.extractLsb' lo n

end Sys2Proof
end

