-- ==== Sys2Proof/Syntax.lean ====
section
/-! DEFINITION. Syntax.lean: the instructions, one constructor per row of opcode_table.json
(00_scope.md R2: host commands, LZW codes, engine micro-operations; 30_encoding.md R60: register
writes and reads). -/

namespace Sys2Proof

/-- The 27 rows of the operation table, in its order. Fields are the operand fields of the row. -/
inductive Instr where
  -- format CMD: the command word's OP (30_encoding.md R66)
  /-- NOP, R143. -/
  | nop
  /-- SOFT_RESET, R144. -/
  | softReset
  /-- START_DECODE, R145. -/
  | startDecode
  /-- END_OF_DATA, R146. -/
  | endOfData
  /-- START_RENDER, R147. -/
  | startRender
  /-- CMD_RESERVED: any OP of 0x05..0xFF, R148. -/
  | cmdReserved (op : BitVec 8)
  -- format CODE: the classes of 30_encoding.md R63
  /-- CLEAR: the code `2^DEC_MCS`, R95. -/
  | clear
  /-- END: the code `2^DEC_MCS + 1`, R96. -/
  | endCode
  /-- KNOWN: a code below NEXT_CODE, R97. -/
  | known (c : Code)
  /-- KWKWK: the code NEXT_CODE with a previous entry, R98. -/
  | kwkwk
  /-- INVALID: every other code, R99. -/
  | invalid (c : Code)
  -- format ENGINE: selected by the state (30_encoding.md R75)
  /-- FILL, 40_bit_reader.md R81. -/
  | fill
  /-- EXHAUST, R83. -/
  | exhaust
  /-- CODE, 41_lzw_decompressor.md R94. -/
  | code
  /-- CHUNK, 42_palette_mapper.md R127. -/
  | chunk
  -- format REGWR: the register words of 10_state.md
  /-- WR_LZW_CFG, R19. -/
  | wrLzwCfg (mcs : BitVec 4)
  /-- WR_FRAME_POS, R20. -/
  | wrFramePos (x y : BitVec 16)
  /-- WR_FRAME_SIZE, R21. -/
  | wrFrameSize (w h : BitVec 16)
  /-- WR_REN_CFG, R22. -/
  | wrRenCfg (interlace transpEn : Bool) (transpIdx chunkH : BitVec 8)
  /-- WR_PAL_SIZE, R23. -/
  | wrPalSize (n : BitVec 9)
  /-- WR_BG_COLOR, R24. -/
  | wrBgColor (bg : Colour)
  /-- WR_DEST_POS, R25. -/
  | wrDestPos (x y : BitVec 16)
  /-- WR_DATA_IN, R149. -/
  | wrDataIn (b : Byte)
  /-- WR_IDX_RADDR, R151. -/
  | wrIdxRaddr (a : Word)
  /-- WR_PAL, R150: entry `i`. -/
  | wrPal (i : BitVec 8) (c : Colour)
  /-- WR_RESERVED: a write of a read-only or reserved offset, R32. -/
  | wrReserved (a : RegAddr) (v : Word)
  -- format REGRD
  /-- RD: a read of any offset, R140. -/
  | rd (a : RegAddr)
  deriving DecidableEq, Repr

/-- The formats of 30_encoding.md R60 that an instruction can have. -/
inductive Format where
  | cmd | code | engine | regWr | regRd
  deriving DecidableEq, Repr

/-- The format column of opcode_table.json. -/
def Instr.format : Instr → Format
  | .nop | .softReset | .startDecode | .endOfData | .startRender | .cmdReserved _ => .cmd
  | .clear | .endCode | .known _ | .kwkwk | .invalid _ => .code
  | .fill | .exhaust | .code | .chunk => .engine
  | .wrLzwCfg _ | .wrFramePos _ _ | .wrFrameSize _ _ | .wrRenCfg _ _ _ _ | .wrPalSize _
  | .wrBgColor _ | .wrDestPos _ _ | .wrDataIn _ | .wrIdxRaddr _ | .wrPal _ _
  | .wrReserved _ _ => .regWr
  | .rd _ => .regRd

/-- What a code of the stream is classified against (30_encoding.md R62, R63): DEC_MCS,
CODE_WIDTH, NEXT_CODE and PREV_VALID as they stand when the code is read. -/
structure CodeCtx where
  decMcs    : BitVec 4
  codeWidth : BitVec 4
  nextCode  : BitVec 13
  prevValid : Bool
  deriving DecidableEq, Repr

/-- `clear = 2^M` (41_lzw_decompressor.md R91). -/
def CodeCtx.clear (x : CodeCtx) : Nat := 2 ^ x.decMcs.toNat

/-- `end = 2^M + 1` (R91). -/
def CodeCtx.endCode (x : CodeCtx) : Nat := 2 ^ x.decMcs.toNat + 1

/-- The five classes of 30_encoding.md R63. -/
inductive CodeClass where
  | clear | endCode | known | kwkwk | invalid
  deriving DecidableEq, Repr

end Sys2Proof
end

