-- ==== Sys2Proof/WellFormed.lean ====
section
/-! DEFINITION. WellFormed.lean: which terms of Instr are instructions at all (30_encoding.md R63,
R66; 10_state.md R16, R32). -/

namespace Sys2Proof

/-- The word index of a byte offset (10_state.md R37). -/
abbrev regAt (offset : Nat) : RegAddr := BitVec.ofNat 10 (offset / 4)

/-- The offsets a write of which is a row of its own (10_state.md R16): CMD, the configuration
registers, DATA_IN, IDX_RADDR and the PAL window. Every other offset is WR_RESERVED. -/
def writable (a : RegAddr) : Bool :=
  a == regAt 0x000 || a == regAt 0x008 || a == regAt 0x00C || a == regAt 0x010 ||
  a == regAt 0x014 || a == regAt 0x018 || a == regAt 0x01C || a == regAt 0x020 ||
  a == regAt 0x024 || a == regAt 0x048 ||
  (0x400 / 4 ≤ a.toNat && a.toNat < 0x400 / 4 + 256)

/-- Well-formed on its own: a reserved command has a reserved OP (R66: 0x05..0xFF); a reserved
write goes to an offset no other row has (R32); an INVALID code is at least 6, because NEXT_CODE
is never less than that in a decode (R11). -/
def Instr.wf : Instr → Bool
  | .cmdReserved op => 5 ≤ op.toNat
  | .wrReserved a _ => !writable a
  | .invalid c => 6 ≤ c.toNat
  | .nop | .softReset | .startDecode | .endOfData | .startRender => true
  | .clear | .endCode | .known _ | .kwkwk => true
  | .fill | .exhaust | .code | .chunk => true
  | .wrLzwCfg _ | .wrFramePos _ _ | .wrFrameSize _ _ | .wrRenCfg _ _ _ _ | .wrPalSize _
  | .wrBgColor _ | .wrDestPos _ _ | .wrDataIn _ | .wrIdxRaddr _ | .wrPal _ _ => true
  | .rd _ => true

/-- The contexts a decode can be in (41_lzw_decompressor.md R93 items 1 and 3): a legal minimum
code size, `clear + 2 <= NEXT_CODE <= 4096`, `M + 1 <= CODE_WIDTH <= 12` and
`NEXT_CODE < 2^CODE_WIDTH` except at `NEXT_CODE = 4096`, `CODE_WIDTH = 12`. -/
def CodeCtx.ok (x : CodeCtx) : Bool :=
  2 ≤ x.decMcs.toNat && x.decMcs.toNat ≤ 8 &&
  x.clear + 2 ≤ x.nextCode.toNat && x.nextCode.toNat ≤ 4096 &&
  x.decMcs.toNat + 1 ≤ x.codeWidth.toNat && x.codeWidth.toNat ≤ 12 &&
  (x.nextCode.toNat < 2 ^ x.codeWidth.toNat ||
    (x.nextCode.toNat == 4096 && x.codeWidth.toNat == 12))

/-- Well-formed in a context: the code classes are what they are against NEXT_CODE and PREV_VALID
(30_encoding.md R63), and a code fits in CODE_WIDTH bits (R60). The other formats have no
context. -/
def Instr.wfIn (x : CodeCtx) : Instr → Bool
  | .clear => true
  | .endCode => true
  | .known c => c.toNat < x.nextCode.toNat && c.toNat != x.clear && c.toNat != x.endCode &&
      c.toNat < 2 ^ x.codeWidth.toNat
  | .kwkwk => x.prevValid && x.nextCode.toNat < 4096
  | .invalid c => (x.nextCode.toNat < c.toNat || (c.toNat == x.nextCode.toNat && !x.prevValid)) &&
      c.toNat < 2 ^ x.codeWidth.toNat
  | i => i.wf

end Sys2Proof
end

