-- ==== Sys2Proof/Decode.lean ====
section
/-! DEFINITION. Decode.lean: the three carriers of an encoding (30_encoding.md R60) and what they
decode to, total and rejecting by name; then the encoder. A command or a register access comes
as a request at the register port (10_state.md R37); an LZW code comes as CODE_WIDTH bits of the
stream, classified by R63; an engine micro-operation has no encoding (R75). -/

namespace Sys2Proof

/-- One request at the register port (10_state.md R37): `reg_re` (else `reg_we`; never both,
log 18), `reg_addr`, `reg_wdata`. -/
structure PortReq where
  read  : Bool
  addr  : RegAddr
  wdata : Word
  deriving DecidableEq, Repr

/-- What an instruction is encoded as (30_encoding.md R60). -/
inductive Encoding where
  | request (r : PortReq)
  | code (c : Code)
  | stateSelected
  deriving DecidableEq, Repr

/-- Why something is no encoding. -/
inductive DecodeError where
  /-- Fewer bytes than a port request takes. -/
  | truncated
  /-- Bits above the request's 43 bits are not 0. -/
  | badPadding
  /-- An engine micro-operation has no encoding: the state selects it (R75). -/
  | noEncoding
  deriving DecidableEq, Repr

/-! ### Commands and register words -/

/-- The command codes of 30_encoding.md R66; only `OP = word[7:0]` is decoded (R65). -/
def decodeOp (op : BitVec 8) : Instr :=
  if op = 0x00#8 then .nop
  else if op = 0x01#8 then .softReset
  else if op = 0x02#8 then .startDecode
  else if op = 0x03#8 then .endOfData
  else if op = 0x04#8 then .startRender
  else .cmdReserved op

/-- A write of `v` to register `a`: the register map of 10_state.md R16 and the fields of R17 to
R31. Reserved bits are ignored (R16). -/
def decodeWrite (a : RegAddr) (v : Word) : Instr :=
  if a = regAt 0x000 then decodeOp (field v 0 8)
  else if a = regAt 0x008 then .wrLzwCfg (field v 0 4)
  else if a = regAt 0x00C then .wrFramePos (field v 0 16) (field v 16 16)
  else if a = regAt 0x010 then .wrFrameSize (field v 0 16) (field v 16 16)
  else if a = regAt 0x014 then
    .wrRenCfg (v.getLsbD 0) (v.getLsbD 1) (field v 8 8) (field v 16 8)
  else if a = regAt 0x018 then .wrPalSize (field v 0 9)
  else if a = regAt 0x01C then .wrBgColor (field v 0 16)
  else if a = regAt 0x020 then .wrDestPos (field v 0 16) (field v 16 16)
  else if a = regAt 0x024 then .wrDataIn (field v 0 8)
  else if a = regAt 0x048 then .wrIdxRaddr v
  else if 0x100 ≤ a.toNat ∧ a.toNat < 0x200 then .wrPal (a.extractLsb' 0 8) (field v 0 16)
  else .wrReserved a v

/-- A request at the register port: a read of any offset is RD (R140), a write goes by R16. -/
def decodeRequest (r : PortReq) : Instr :=
  if r.read then .rd r.addr else decodeWrite r.addr r.wdata

/-! ### Codes of the stream -/

/-- The classes of 30_encoding.md R63, first row that matches, top to bottom. -/
def classify (x : CodeCtx) (c : Code) : CodeClass :=
  if c.toNat = x.clear then .clear
  else if c.toNat = x.endCode then .endCode
  else if c.toNat < x.nextCode.toNat then .known
  else if c.toNat = x.nextCode.toNat ∧ x.prevValid = true then .kwkwk
  else .invalid

/-- The instruction a code of the stream stands for. -/
def decodeCode (x : CodeCtx) (c : Code) : Instr :=
  match classify x c with
  | .clear => .clear
  | .endCode => .endCode
  | .known => .known c
  | .kwkwk => .kwkwk
  | .invalid => .invalid c

/-- Bit `p` of the stream: bit `p mod 8` of byte `p div 8` (30_encoding.md R61). -/
def streamBit (bytes : List Byte) (p : Nat) : Bool :=
  ((bytes[p / 8]?).getD 0#8).getLsbD (p % 8)

/-- The number whose bit `i` is `f i`, for `i < n`. -/
def natOfBits (f : Nat → Bool) : Nat → Nat
  | 0 => 0
  | n + 1 => natOfBits f n + (if f n then 2 ^ n else 0)

/-- The code of width `n` that starts at stream bit `p` (R61): bit `i` of the code is stream bit
`p + i`; absent if any needed byte is absent. -/
def streamCode (bytes : List Byte) (p n : Nat) : Option Nat :=
  if p + n ≤ 8 * bytes.length then some (natOfBits (fun i => streamBit bytes (p + i)) n) else none

/-! ### Encodings as a whole -/

/-- The instruction an encoding stands for in a context. -/
def decode (x : CodeCtx) : Encoding → Except DecodeError Instr
  | .request r => .ok (decodeRequest r)
  | .code c => .ok (decodeCode x c)
  | .stateSelected => .error .noEncoding

/-! ### A port request as bytes

The register port has no byte lanes (20_memory.md R46), so how a request is written as bytes is
the model's choice (log 10): `reg_wdata` in bits 31..0, `reg_addr` in bits 41..32, `reg_re` in
bit 42, bits 47..43 zero; six bytes, least significant first. So a 32-bit word alone, the bits
above it zero, is a write to offset 0x000: a command (R65). -/

/-- The request with bits `n`. -/
def PortReq.ofNat (n : Nat) : PortReq :=
  { read := n.testBit 42, addr := BitVec.ofNat 10 (n / 2 ^ 32), wdata := BitVec.ofNat 32 n }

/-- The bits of a request. -/
def PortReq.toNat (r : PortReq) : Nat :=
  r.wdata.toNat + 2 ^ 32 * r.addr.toNat + (if r.read then 2 ^ 42 else 0)

/-- The number whose bytes are listed, least significant first. -/
def natOfBytes : List Byte → Nat
  | [] => 0
  | b :: bs => b.toNat + 256 * natOfBytes bs

/-- `k` bytes of a number, least significant first. -/
def bytesOfNat : Nat → Nat → List Byte
  | 0, _ => []
  | k + 1, n => BitVec.ofNat 8 n :: bytesOfNat k (n / 256)

/-- Decode the next port request of a byte sequence; the rest comes back with it. -/
def decodeBytes (bytes : List Byte) : Except DecodeError (Instr × List Byte) :=
  if bytes.length < 6 then .error .truncated
  else
    let n := natOfBytes (bytes.take 6)
    if n < 2 ^ 43 then .ok (decodeRequest (PortReq.ofNat n), bytes.drop 6)
    else .error .badPadding

/-- The instruction the decoder reads from an instruction whose bits are `w`; every bit above
`nbits` is 0. -/
def decodeTableWord (nbits w : Nat) : Option Instr :=
  if 2 ^ 48 ≤ w % 2 ^ nbits then none
  else
    match decodeBytes (bytesOfNat 6 (w % 2 ^ nbits)) with
    | .ok (i, _) => some i
    | .error _ => none

/-! ### The encoder -/

/-- A write of a word to a byte offset. -/
def writeReq (offset : Nat) (v : Word) : Encoding :=
  .request { read := false, addr := regAt offset, wdata := v }

/-- Two 16-bit fields: the first named in bits [15:0], the second in bits [31:16]
(30_encoding.md R74). -/
def pair (lo hi : BitVec 16) : Word := hi ++ lo

/-- The word of REN_CFG (10_state.md R22). -/
def renCfgWord (interlace transpEn : Bool) (transpIdx chunkH : BitVec 8) : Word :=
  (0#8 ++ chunkH ++ transpIdx ++ 0#6 ++ BitVec.ofBool transpEn ++ BitVec.ofBool interlace :
    BitVec (8 + 8 + 8 + 6 + 1 + 1))

/-- The encoding of an instruction, reserved and ignored bits 0 (R60, R66, R67, R63). -/
def encode (x : CodeCtx) : Instr → Encoding
  | .nop => writeReq 0x000 0x00#32
  | .softReset => writeReq 0x000 0x01#32
  | .startDecode => writeReq 0x000 0x02#32
  | .endOfData => writeReq 0x000 0x03#32
  | .startRender => writeReq 0x000 0x04#32
  | .cmdReserved op => writeReq 0x000 (op.setWidth 32)
  | .clear => .code (BitVec.ofNat 12 x.clear)
  | .endCode => .code (BitVec.ofNat 12 x.endCode)
  | .known c => .code c
  | .kwkwk => .code (x.nextCode.setWidth 12)
  | .invalid c => .code c
  | .fill => .stateSelected
  | .exhaust => .stateSelected
  | .code => .stateSelected
  | .chunk => .stateSelected
  | .wrLzwCfg mcs => writeReq 0x008 (mcs.setWidth 32)
  | .wrFramePos a b => writeReq 0x00C (pair a b)
  | .wrFrameSize w h => writeReq 0x010 (pair w h)
  | .wrRenCfg i t n c => writeReq 0x014 (renCfgWord i t n c)
  | .wrPalSize n => writeReq 0x018 (n.setWidth 32)
  | .wrBgColor bg => writeReq 0x01C (bg.setWidth 32)
  | .wrDestPos a b => writeReq 0x020 (pair a b)
  | .wrDataIn b => writeReq 0x024 (b.setWidth 32)
  | .wrIdxRaddr a => writeReq 0x048 a
  | .wrPal i c => writeReq (0x400 + 4 * i.toNat) (c.setWidth 32)
  | .wrReserved a v => .request { read := false, addr := a, wdata := v }
  | .rd a => .request { read := true, addr := a, wdata := 0 }

/-- The format an encoding is of, told from the request's address (R60). -/
def Encoding.format : Encoding → Format
  | .request r => if r.read then .regRd else if r.addr = regAt 0x000 then .cmd else .regWr
  | .code _ => .code
  | .stateSelected => .engine

end Sys2Proof
end

