-- ==== Sys2Proof/Machine/State.lean ====
section
/-! DEFINITION. Machine/State.lean: everything the spec gives the block (10_state.md R11, R15 to
R37; 20_memory.md R40 to R43), plain data, and the reset state (R36). -/

namespace Sys2Proof.Machine

/-- PHASE (R15, R18): the block's only control state (43_host_commands.md R152). Value 3 never
occurs (93 U13). -/
inductive Phase where
  | idle | decoding | rendering
  deriving DecidableEq, Repr

/-- DEC_CAUSE: the stop causes of 60_exceptions.md R166. Values 6 and 7 never occur. -/
inductive Cause where
  | none | end_ | count | exhausted | badCode | dictFull
  deriving DecidableEq, Repr

/-- ERR_CODE: the refusal codes of 60_exceptions.md R167. -/
inductive Err where
  | none | badPhase | badMcs | tooLarge | noFrame | badChunk | coordOvf | badCmd
  deriving DecidableEq, Repr

/-- The status flags (R15). -/
structure Flags where
  phase    : Phase
  decDone  : Bool
  decCause : Cause
  renDone  : Bool
  renSkip  : Bool
  errCode  : Err
  eod      : Bool
  deriving DecidableEq, Repr

/-- The configuration registers (R19 to R25), field by field. -/
structure Cfg where
  mcs       : BitVec 4
  frameX    : BitVec 16
  frameY    : BitVec 16
  w         : BitVec 16
  h         : BitVec 16
  interlace : Bool
  transpEn  : Bool
  transpIdx : BitVec 8
  chunkH    : BitVec 8
  palSize   : BitVec 9
  bg        : Colour
  destX     : BitVec 16
  destY     : BitVec 16
  deriving DecidableEq, Repr

/-- The Bit Reader's working registers (R11). -/
structure BitReader where
  bitBuf : BitVec 19
  bitCnt : BitVec 5
  srcPos : Word
  deriving DecidableEq, Repr

/-- The LZW unit's working registers (R11, R12). -/
structure Lzw where
  decMcs    : BitVec 4
  codeWidth : BitVec 4
  nextCode  : BitVec 13
  prevValid : Bool
  prevCode  : Code
  deriving DecidableEq, Repr

/-- The decoded frame and the output and render cursors (R11, R14). -/
structure Frame where
  idxCount : Word
  expected : Word
  decW     : BitVec 16
  decH     : BitVec 16
  renRow   : BitVec 16
  deriving DecidableEq, Repr

/-- A dictionary entry (20_memory.md R40): EMPTY, or a byte string of length at least 1, its first
byte apart (00_scope.md R8: no data entry is ever zero-length). -/
inductive DictEntry where
  | empty
  | str (first : Byte) (rest : List Byte)
  deriving DecidableEq, Repr

/-- One blit, the record of 30_encoding.md R72. -/
structure Blit where
  x0    : BitVec 16
  y0    : BitVec 16
  x1    : BitVec 16
  y1    : BitVec 16
  bytes : List Byte
  deriving DecidableEq, Repr

/-- What the sink port shows while a byte is offered (R37): `snk_data`, `snk_sob`, `snk_eob` and
the four coordinates. -/
structure Beat where
  data : Byte
  sob  : Bool
  eob  : Bool
  x0   : BitVec 16
  y0   : BitVec 16
  x1   : BitVec 16
  y1   : BitVec 16
  deriving DecidableEq, Repr

/-- Who takes the next transition (20_memory.md R51): the host completes an access, the engine
takes its step, the sink takes one byte, or `rst_n` is asserted (70_reset_and_hazards.md R185). -/
inductive Turn where
  | host | engine | sink | reset
  deriving DecidableEq, Repr

/-- A memory: the addresses that hold a value, strictly rising, each with its value. An address
that is not listed holds no value (10_state.md R13). -/
abbrev Mem (α : Type) := List (Nat × α)

/-- IDXMEM: bytes at 32-bit addresses (20_memory.md R41). -/
abbrev Memory := Mem Byte

/-- The state of the block, with the environment's queues beside it (logs 1, 2, 13). -/
structure State where
  /-- IDX_CAP and INQ_DEPTH (00_scope.md R7): fixed, no step writes them. -/
  params   : Params
  /-- STATUS (R15, R18). -/
  flags    : Flags
  /-- LZW_CFG, FRAME_POS, FRAME_SIZE, REN_CFG, PAL_SIZE, BG_COLOR, DEST_POS (R19 to R25). -/
  cfg      : Cfg
  /-- BITBUF, BITCNT, SRC_POS (R11). -/
  br       : BitReader
  /-- DEC_MCS, CODE_WIDTH, NEXT_CODE, PREV_VALID, PREV_CODE (R11). -/
  lzw      : Lzw
  /-- IDX_COUNT, EXPECTED, DEC_W, DEC_H, REN_ROW (R11). -/
  frame    : Frame
  /-- IDX_RADDR (R11, R30). -/
  idxRaddr : Word
  /-- INQ, oldest byte first (20_memory.md R43). -/
  inq      : List Byte
  /-- DICT (R40). -/
  dict     : Mem DictEntry
  /-- IDXMEM (R41). -/
  idxmem   : Memory
  /-- PAL (R42): the entries written since hardware reset. -/
  pal      : Mem Colour
  /-- The DATA_IN write that is held, `reg_ready = 0` (43_host_commands.md R149). -/
  held     : Option Byte
  /-- `reg_rdata`: what the last completed read returned (R37, R140; log 9). -/
  rdata    : Word
  /-- A SOFT_RESET written during a blit: the write is complete, its effect is still to come
  (43_host_commands.md R144; log 8). -/
  resetPending : Bool
  /-- How many payload bytes of the blit on offer the sink has taken (R37, R127; log 7). -/
  snkTaken : Nat
  /-- The sink port's output sequence: the finished blits, oldest first (00_scope.md R8). -/
  sinkOut  : List Blit
  /-- The host's accesses still to come, next first (log 1). -/
  hostQ    : List PortReq
  /-- Whose turn comes next, and after that (log 2). -/
  sched    : List Turn
  deriving DecidableEq, Repr

/-- Why the machine stops. -/
inductive Fault where
  /-- The Mapper (CHUNK, a byte taken by the sink) or the host (RD of the PAL window) reads a PAL
  entry that has not been written since hardware reset. 10_state.md R13: "a model must treat a
  read of the third as a fault". Safe: the hardware goes on with whatever the storage holds. -/
  | palUnwritten (i : Nat)
  /-- A code class (KNOWN, KWKWK, the Append of either) reads a DICT entry that holds no byte
  string. R40, R93: no run reaches it. Safe. -/
  | dictNoValue (c : Nat)
  /-- Append would write above code 4095. R50, R103: no run reaches it. Safe. -/
  | dictRange (c : Nat)
  /-- The Mapper or IDX_RDATA reads an IDXMEM byte below IDX_COUNT that holds no value. R41: no
  run reaches it. Safe. -/
  | idxNoValue (a : Nat)
  /-- Emit would write at or above IDX_CAP. R50: no run reaches it. Safe. -/
  | idxRange (a : Nat)
  deriving DecidableEq, Repr

/-- Why an instruction has no meaning in a state. -/
inductive Refusal where
  /-- Raised by `exec` alone, for an instruction without a meaning yet. Safe. -/
  | notModelled (mnemonic : String)
  /-- Raised by FILL, EXHAUST, CODE, CHUNK and the five code classes in a state that does not
  select them (30_encoding.md R75, R63): there is no such transition. `step` never raises it.
  Safe. -/
  | notEnabled (mnemonic : String)
  deriving DecidableEq, Repr

/-- The answer of a meaning and of a step. -/
abbrev Result := Host.Outcome State Fault Refusal

/-- The flags after reset (R36). -/
def Flags.reset : Flags :=
  { phase := .idle, decDone := false, decCause := .none, renDone := false, renSkip := false,
    errCode := .none, eod := false }

/-- The configuration registers after reset (R36): all 0 but CHUNK_H = 8. -/
def Cfg.reset : Cfg :=
  { mcs := 0, frameX := 0, frameY := 0, w := 0, h := 0, interlace := false, transpEn := false,
    transpIdx := 0, chunkH := 8, palSize := 0, bg := 0, destX := 0, destY := 0 }

/-- The Bit Reader after reset (R36) and after START_DECODE (40_bit_reader.md R88). -/
def BitReader.reset : BitReader := { bitBuf := 0, bitCnt := 0, srcPos := 0 }

/-- The LZW working registers after reset (R36). -/
def Lzw.reset : Lzw :=
  { decMcs := 0, codeWidth := 0, nextCode := 0, prevValid := false, prevCode := 0 }

/-- The frame registers after reset (R36). -/
def Frame.reset : Frame := { idxCount := 0, expected := 0, decW := 0, decH := 0, renRow := 0 }

/-- The state right after hardware reset (R36, 70_reset_and_hazards.md R185): no memory holds a
value, INQ is empty, the sink port is idle, no access is pending. -/
def State.reset : State :=
  { params := Config.params, flags := .reset, cfg := .reset, br := .reset, lzw := .reset,
    frame := .reset, idxRaddr := 0, inq := [], dict := [], idxmem := [], pal := [], held := none,
    rdata := 0, resetPending := false, snkTaken := 0, sinkOut := [], hostQ := [], sched := [] }

end Sys2Proof.Machine
end

