-- ==== Sys2Proof/Machine/Ops.lean ====
section
/-! DEFINITION. Machine/Ops.lean: the named operations over the memories, the queues and the
working registers, and the two things the block has in place of exceptions, Stop and Refuse
(60_exceptions.md R170, R173), with the two resets (70_reset_and_hazards.md R185, R186). -/

namespace Sys2Proof.Machine

/-! ### Memories (20_memory.md R40 to R42) -/

/-- `MemRead`: the value at an address, if it holds one. -/
def Mem.read {α : Type} : Mem α → Nat → Option α
  | [], _ => none
  | (k, v) :: m, a => if k = a then some v else Mem.read m a

/-- `MemWrite`: the addresses stay strictly rising. -/
def Mem.write {α : Type} : Mem α → Nat → α → Mem α
  | [], a, v => [(a, v)]
  | (k, u) :: m, a, v =>
    if a < k then (a, v) :: (k, u) :: m
    else if a = k then (a, v) :: m
    else (k, u) :: Mem.write m a v

/-- The canonical form: addresses strictly rising. An unlisted address reads as no value, so no
entry can equal that. -/
abbrev Mem.wf {α : Type} (m : Mem α) : Prop := (m.map Prod.fst).Pairwise (· < ·)

/-- The canonical form of IDXMEM. -/
abbrev Memory.wf (m : Memory) : Prop := Mem.wf m

/-! ### Stop and Refuse -/

/-- `raise Stop(cause)` (60_exceptions.md R170): the cause, the done flag and the phase; nothing
else changes. -/
def stop (cause : Cause) (s : State) : State :=
  { s with flags := { s.flags with decCause := cause, decDone := true, phase := .idle } }

/-- `raise Refuse(err)` (60_exceptions.md R173): ERR_CODE and nothing else. -/
def refuse (err : Err) (s : State) : State :=
  { s with flags := { s.flags with errCode := err } }

/-! ### Resets -/

/-- SOFT_RESET's effect (43_host_commands.md R144, R186): every register, flag and working register
to its reset value, INQ emptied; DICT, IDXMEM and PAL keep their contents. The write that asked for
it waits no longer. -/
def softReset (s : State) : State :=
  { s with flags := .reset, cfg := .reset, br := .reset, lzw := .reset, frame := .reset,
           idxRaddr := 0, inq := [], resetPending := false, snkTaken := 0 }

/-- Hardware reset (70_reset_and_hazards.md R185): the reset state from any state. A decode, a blit
in progress and a held write are abandoned; what is outside the block stays: the parameters, the
blits the sink has had, the host's accesses still to come and the schedule (logs 13, 19). -/
def hardwareReset (s : State) : State :=
  { State.reset with params := s.params, sinkOut := s.sinkOut, hostQ := s.hostQ,
                     sched := s.sched }

/-! ### The dictionary (41_lzw_decompressor.md R92, R101, R102) -/

/-- What a code is classified against (30_encoding.md R62, R63). -/
def State.codeCtx (s : State) : CodeCtx :=
  { decMcs := s.lzw.decMcs, codeWidth := s.lzw.codeWidth, nextCode := s.lzw.nextCode,
    prevValid := s.lzw.prevValid }

/-- The dictionary just after DictReset (R92): `clear` one-byte entries, each equal to its code, and
the two placeholders. -/
def initDict (mcs : Nat) : Mem DictEntry :=
  (List.range (2 ^ mcs + 2)).map fun c =>
    (c, if c < 2 ^ mcs then .str (BitVec.ofNat 8 c) [] else .empty)

/-- `DictReset()` (R92), with `M = DEC_MCS`. The entries at codes `clear + 2` and above cease to
exist (log 5). -/
def dictReset (s : State) : State :=
  { s with
    dict := initDict s.lzw.decMcs.toNat
    lzw := { s.lzw with
      nextCode := BitVec.ofNat 13 (2 ^ s.lzw.decMcs.toNat + 2)
      codeWidth := s.lzw.decMcs + 1
      prevValid := false
      prevCode := 0 } }

/-- `MemRead(DICT, c)` for a data code: the byte string at `c`, first byte apart. Entries at codes
`>= NEXT_CODE` hold no value (R40). -/
def readDict (s : State) (c : Code) : Option (Byte × List Byte) :=
  if c.toNat < s.lzw.nextCode.toNat then
    match Mem.read s.dict c.toNat with
    | some (.str b bs) => some (b, bs)
    | some .empty => none
    | none => none
  else none

/-- `Widen()` (R102), on the value of NEXT_CODE after the increment. -/
def widen (z : Lzw) : Lzw :=
  if z.nextCode.toNat = 2 ^ z.codeWidth.toNat ∧ z.codeWidth.toNat < Config.maxWidth then
    { z with codeWidth := z.codeWidth + 1 }
  else z

/-- `Append(s)` (R101): the entry goes to NEXT_CODE, NEXT_CODE counts up, Widen. -/
def append (first : Byte) (rest : List Byte) (s : State) : Except Fault State :=
  if s.lzw.nextCode.toNat < Config.dictSize then
    .ok { s with
      dict := Mem.write s.dict s.lzw.nextCode.toNat (.str first rest)
      lzw := widen { s.lzw with nextCode := s.lzw.nextCode + 1 } }
  else .error (.dictRange s.lzw.nextCode.toNat)

/-- The previous-entry update (R104). -/
def setPrev (cur : Code) (s : State) : State :=
  { s with lzw := { s.lzw with prevValid := true, prevCode := cur } }

/-! ### IDXMEM (41_lzw_decompressor.md R100) -/

/-- Emit, one byte: written at IDX_COUNT while that is below EXPECTED. -/
def emitByte (b : Byte) (s : State) : Except Fault State :=
  if s.frame.idxCount.toNat < s.frame.expected.toNat then
    if s.frame.idxCount.toNat < s.params.idxCap then
      .ok { s with
        idxmem := Mem.write s.idxmem s.frame.idxCount.toNat b
        frame := { s.frame with idxCount := s.frame.idxCount + 1 } }
    else .error (.idxRange s.frame.idxCount.toNat)
  else .ok s

/-- `Emit(entry)` (R100): the bytes in order, element 0 first. -/
def emit : List Byte → State → Except Fault State
  | [], s => .ok s
  | b :: bs, s =>
    match emitByte b s with
    | .ok t => emit bs t
    | .error f => .error f

/-- The count cutoff (R105). -/
def countCutoff (s : State) : State :=
  if s.frame.expected.toNat ≤ s.frame.idxCount.toNat then stop .count s else s

/-- The sub-steps KNOWN and KWKWK share (R94, from Emit on): `entry` is `first` and `rest`. -/
def dataCode (first : Byte) (rest : List Byte) (cur : Code) (s : State) : Result :=
  match emit (first :: rest) s with
  | .error f => .fault f
  | .ok s₁ =>
    if s₁.lzw.prevValid then
      if s₁.lzw.nextCode.toNat = Config.dictSize then .next (stop .dictFull s₁)
      else
        match readDict s₁ s₁.lzw.prevCode with
        | none => .fault (.dictNoValue s₁.lzw.prevCode.toNat)
        | some (p, ps) =>
          match append p (ps ++ [first]) s₁ with
          | .error f => .fault f
          | .ok s₂ => .next (countCutoff (setPrev cur s₂))
    else .next (countCutoff (setPrev cur s₁))

/-! ### Which engine step the state selects (30_encoding.md R75) -/

/-- FILL: `PHASE = DECODING and BITCNT < CODE_WIDTH and |INQ| >= 1` (40_bit_reader.md R81). -/
def fillEnabled (s : State) : Bool :=
  s.flags.phase == .decoding && s.br.bitCnt.toNat < s.lzw.codeWidth.toNat && !s.inq.isEmpty

/-- EXHAUST: the same with INQ empty and EOD = 1 (R83). -/
def exhaustEnabled (s : State) : Bool :=
  s.flags.phase == .decoding && s.br.bitCnt.toNat < s.lzw.codeWidth.toNat && s.inq.isEmpty &&
    s.flags.eod

/-- CODE: `PHASE = DECODING and BITCNT >= CODE_WIDTH` (41_lzw_decompressor.md R94). -/
def codeEnabled (s : State) : Bool :=
  s.flags.phase == .decoding && s.lzw.codeWidth.toNat ≤ s.br.bitCnt.toNat

/-- CHUNK: `PHASE = RENDERING`, and then `REN_ROW < DEC_H` (42_palette_mapper.md R127). -/
def chunkEnabled (s : State) : Bool :=
  s.flags.phase == .rendering && s.frame.renRow.toNat < s.frame.decH.toNat

/-- A blit is being transferred: the sink has taken some of its bytes and not yet all
(42_palette_mapper.md R127). DESIGN CHOICE (log 8): a blit whose first byte is offered and not yet
taken is not being transferred. -/
def transferring (s : State) : Bool := chunkEnabled s && s.snkTaken != 0

/-- The one step the state selects, if any (R75); none is the hold of 40_bit_reader.md R84 or an
idle block. -/
def engineSelect (s : State) : Option Instr :=
  if fillEnabled s then some .fill
  else if exhaustEnabled s then some .exhaust
  else if codeEnabled s then some .code
  else if chunkEnabled s then some .chunk
  else none

/-- A code class is in force while a code is being executed: `PHASE = DECODING` and the code has
that class against the state (30_encoding.md R63). -/
def classInForce (k : CodeClass) (c : Code) (s : State) : Bool :=
  s.flags.phase == .decoding && classify s.codeCtx c == k

end Sys2Proof.Machine
end

