-- ==== Sys2Proof/Machine/Operands.lean ====
section
/-! DEFINITION. Machine/Operands.lean: what the steps take as operands: the code in BITBUF
(40_bit_reader.md R82, 30_encoding.md R74), the source row, the pixel and the bytes of a chunk
(42_palette_mapper.md R122 to R128), and what the sink port shows (10_state.md R37). -/

namespace Sys2Proof.Machine

/-! ### The code -/

/-- EXTRACT's result (40_bit_reader.md R82): the low CODE_WIDTH bits of BITBUF. A code has at most
12 bits (00_scope.md R6); a wider CODE_WIDTH, which no run reaches, is cut to that (log 15). -/
def extractedCode (s : State) : Code :=
  BitVec.ofNat 12 (s.br.bitBuf.toNat % 2 ^ s.lzw.codeWidth.toNat)

/-- EXTRACT's effect (R82): BITBUF shifts right, BITCNT goes down. -/
def extract (s : State) : State :=
  { s with br := { s.br with
      bitBuf := s.br.bitBuf >>> s.lzw.codeWidth.toNat
      bitCnt := s.br.bitCnt - s.lzw.codeWidth.setWidth 5 } }

/-! ### The interlace order -/

/-- `ILACE(H)` as a list (42_palette_mapper.md R122). -/
def ilaceList (h : Nat) : List Nat :=
  (List.range h).filter (fun r => r % 8 = 0) ++ (List.range h).filter (fun r => r % 8 = 4) ++
  (List.range h).filter (fun r => r % 4 = 2) ++ (List.range h).filter (fun r => r % 2 = 1)

/-- Element `i` of `ILACE(H)` in closed form (R123). -/
def ilace (h i : Nat) : Nat :=
  let n1 := (h + 7) / 8
  let n2 := if 4 < h then (h + 3) / 8 else 0
  let n3 := if 2 < h then (h + 1) / 4 else 0
  if i < n1 then 8 * i
  else if i < n1 + n2 then 8 * (i - n1) + 4
  else if i < n1 + n2 + n3 then 4 * (i - n1 - n2) + 2
  else 2 * (i - n1 - n2 - n3) + 1

/-- The decoded row that output row `i` shows (R124; 90_conflicts.md C7). -/
def srcRow (s : State) (i : Nat) : Nat :=
  if s.cfg.interlace then ilace s.frame.decH.toNat i else i

/-! ### One pixel -/

/-- A palette read (20_memory.md R42): an entry never written since hardware reset faults. -/
def readPal (s : State) (i : Nat) : Except Fault Colour :=
  match Mem.read s.pal i with
  | some c => .ok c
  | none => .error (.palUnwritten i)

/-- `Resolve(p)` (42_palette_mapper.md R125). -/
def resolve (s : State) (p : Nat) : Except Fault Colour :=
  if s.frame.idxCount.toNat ≤ p then .ok s.cfg.bg
  else
    match Mem.read s.idxmem p with
    | none => .error (.idxNoValue p)
    | some idx =>
      if s.cfg.transpEn ∧ idx = s.cfg.transpIdx then .ok s.cfg.bg
      else if idx.toNat < s.cfg.palSize.toNat then readPal s idx.toNat
      else .ok s.cfg.bg

/-- Pack (R126, 20_memory.md R45): most significant byte first. -/
def pack (c : Colour) : List Byte := [c.extractLsb' 8 8, c.extractLsb' 0 8]

/-! ### One chunk -/

/-- The rows of the chunk on offer (R127): `min(CHUNK_H, DEC_H - REN_ROW)`. -/
def chunkRows (s : State) : Nat :=
  min s.cfg.chunkH.toNat (s.frame.decH.toNat - s.frame.renRow.toNat)

/-- The IDXMEM address shown at pixel `q` of the chunk (R127): output row `REN_ROW + q div DEC_W`,
column `q mod DEC_W`. -/
def chunkAddr (s : State) (q : Nat) : Nat :=
  srcRow s (s.frame.renRow.toNat + q / s.frame.decW.toNat) * s.frame.decW.toNat +
    q % s.frame.decW.toNat

/-- The packed colours of the pixels at a list of addresses, in order. -/
def packAll (s : State) : List Nat → Except Fault (List Byte)
  | [] => .ok []
  | p :: ps =>
    match resolve s p with
    | .error f => .error f
    | .ok c =>
      match packAll s ps with
      | .error f => .error f
      | .ok bytes => .ok (pack c ++ bytes)

/-- The addresses of a chunk's pixels: rows top to bottom, each left to right (R127). -/
def chunkAddrs (s : State) : List Nat :=
  (List.range (chunkRows s)).flatMap fun j =>
    (List.range s.frame.decW.toNat).map fun x =>
      srcRow s (s.frame.renRow.toNat + j) * s.frame.decW.toNat + x

/-- `x0` of the chunk's rectangle (R128). -/
def chunkX0 (s : State) : BitVec 16 := s.cfg.destX + s.cfg.frameX
/-- `y0` of the chunk's rectangle (R128). -/
def chunkY0 (s : State) : BitVec 16 := s.cfg.destY + s.cfg.frameY + s.frame.renRow
/-- `x1`, inclusive (R128). -/
def chunkX1 (s : State) : BitVec 16 := chunkX0 s + s.frame.decW - 1
/-- `y1`, inclusive (R128). -/
def chunkY1 (s : State) : BitVec 16 := chunkY0 s + BitVec.ofNat 16 (chunkRows s) - 1

/-- The blit of the chunk on offer (R127). -/
def chunkBlit (s : State) : Except Fault Blit :=
  match packAll s (chunkAddrs s) with
  | .error f => .error f
  | .ok bytes =>
    .ok { x0 := chunkX0 s, y0 := chunkY0 s, x1 := chunkX1 s, y1 := chunkY1 s, bytes := bytes }

/-! ### The sink port (10_state.md R37, 30_encoding.md R72) -/

/-- The payload bytes of the chunk on offer: `2 * DEC_W * rows` (R127). -/
def chunkLen (s : State) : Nat := 2 * (chunkRows s * s.frame.decW.toNat)

/-- Payload byte `k` of the chunk on offer: the high or the low byte of pixel `k div 2` (R72). -/
def chunkByte (s : State) (k : Nat) : Except Fault Byte :=
  match resolve s (chunkAddr s (k / 2)) with
  | .error f => .error f
  | .ok c => .ok (if k % 2 = 0 then c.extractLsb' 8 8 else c.extractLsb' 0 8)

/-- What the sink port shows: nothing (`snk_valid = 0`) unless a chunk is on offer, else the next
byte to take with its marks and the rectangle. -/
def snkOffer (s : State) : Except Fault (Option Beat) :=
  if chunkEnabled s ∧ s.snkTaken < chunkLen s then
    match chunkByte s s.snkTaken with
    | .error f => .error f
    | .ok b =>
      .ok (some { data := b, sob := s.snkTaken == 0, eob := s.snkTaken + 1 == chunkLen s,
                  x0 := chunkX0 s, y0 := chunkY0 s, x1 := chunkX1 s, y1 := chunkY1 s })
  else .ok none

/-- `reg_ready` (R37): 0 only for a DATA_IN write that is held (43_host_commands.md R149). -/
def regReady (s : State) : Bool := s.held.isNone

end Sys2Proof.Machine
end

