-- ==== Sys2Proof/Machine/Flags.lean ====
section
/-! DEFINITION. Machine/Flags.lean: the status fields and every other register as the host reads
them (10_state.md R17 to R32). -/

namespace Sys2Proof.Machine

/-- The value of PHASE (R18). -/
def Phase.bits : Phase → BitVec 2
  | .idle => 0
  | .decoding => 1
  | .rendering => 2

/-- The number of a stop cause (60_exceptions.md R166). -/
def Cause.bits : Cause → BitVec 3
  | .none => 0
  | .end_ => 1
  | .count => 2
  | .exhausted => 3
  | .badCode => 4
  | .dictFull => 5

/-- The number of a refusal (60_exceptions.md R167). -/
def Err.bits : Err → BitVec 3
  | .none => 0
  | .badPhase => 1
  | .badMcs => 2
  | .tooLarge => 3
  | .noFrame => 4
  | .badChunk => 5
  | .coordOvf => 6
  | .badCmd => 7

/-- STATUS (R18). -/
def statusWord (f : Flags) : Word :=
  (0#20 ++ BitVec.ofBool f.eod ++ f.errCode.bits ++ BitVec.ofBool f.renSkip ++
    BitVec.ofBool f.renDone ++ f.decCause.bits ++ BitVec.ofBool f.decDone ++ f.phase.bits :
    BitVec (20 + 1 + 3 + 1 + 1 + 3 + 1 + 2))

/-- LZW_STATE (R28). -/
def lzwStateWord (z : Lzw) : Word :=
  (0#11 ++ z.nextCode ++ z.decMcs ++ z.codeWidth : BitVec (11 + 13 + 4 + 4))

/-- LZW_PREV (R28). -/
def lzwPrevWord (z : Lzw) : Word :=
  (0#19 ++ BitVec.ofBool z.prevValid ++ z.prevCode : BitVec (19 + 1 + 12))

/-- BIT_STATE (R29). -/
def bitStateWord (b : BitReader) : Word :=
  (0#5 ++ b.bitBuf ++ 0#3 ++ b.bitCnt : BitVec (5 + 19 + 3 + 5))

/-- IDX_RDATA (R30): VALID and DATA of the byte at IDX_RADDR. -/
def idxRdata (s : State) : Except Fault Word :=
  if s.idxRaddr.toNat < s.frame.idxCount.toNat then
    match Mem.read s.idxmem s.idxRaddr.toNat with
    | some b => .ok (0x100#32 ||| b.setWidth 32)
    | none => .error (.idxNoValue s.idxRaddr.toNat)
  else .ok 0

/-- The value a read of register `a` returns (43_host_commands.md R140, by 10_state.md R16 to
R32). -/
def readReg (s : State) (a : RegAddr) : Except Fault Word :=
  if a = regAt 0x000 then .ok 0
  else if a = regAt 0x004 then .ok (statusWord s.flags)
  else if a = regAt 0x008 then .ok (s.cfg.mcs.setWidth 32)
  else if a = regAt 0x00C then .ok (pair s.cfg.frameX s.cfg.frameY)
  else if a = regAt 0x010 then .ok (pair s.cfg.w s.cfg.h)
  else if a = regAt 0x014 then
    .ok (renCfgWord s.cfg.interlace s.cfg.transpEn s.cfg.transpIdx s.cfg.chunkH)
  else if a = regAt 0x018 then .ok (s.cfg.palSize.setWidth 32)
  else if a = regAt 0x01C then .ok (s.cfg.bg.setWidth 32)
  else if a = regAt 0x020 then .ok (pair s.cfg.destX s.cfg.destY)
  else if a = regAt 0x024 then .ok 0
  else if a = regAt 0x028 then .ok s.frame.idxCount
  else if a = regAt 0x02C then .ok s.frame.expected
  else if a = regAt 0x030 then .ok (pair s.frame.decW s.frame.decH)
  else if a = regAt 0x034 then .ok (lzwStateWord s.lzw)
  else if a = regAt 0x038 then .ok (lzwPrevWord s.lzw)
  else if a = regAt 0x03C then .ok (bitStateWord s.br)
  else if a = regAt 0x040 then .ok s.br.srcPos
  else if a = regAt 0x044 then .ok (s.frame.renRow.setWidth 32)
  else if a = regAt 0x048 then .ok s.idxRaddr
  else if a = regAt 0x04C then idxRdata s
  else if 0x100 ≤ a.toNat ∧ a.toNat < 0x200 then
    match readPal s (a.toNat - 0x100) with
    | .ok c => .ok (c.setWidth 32)
    | .error f => .error f
  else .ok 0

end Sys2Proof.Machine
end

