-- ==== Sys2Proof/Machine/Commands.lean ====
section
/-! DEFINITION. Machine/Commands.lean: the host commands (43_host_commands.md R142 to R148). A
refused command is a next state (R173), not a stop of the machine. -/

namespace Sys2Proof.Machine

/-- NOP (R143): no effect; ERR_CODE unchanged. -/
def execNop (s : State) : Result := .next s

/-- SOFT_RESET (R144): legal in every phase; the write completes at once (10_state.md R37). While a
blit is being transferred its effect is still to come, after the blit's last byte (`settle`); where
no byte of a blit on offer has been taken, it resets at once and the offer is withdrawn (DESIGN
CHOICE, log 8: R144 and 60_exceptions.md R178 do not say whether that blit counts). -/
def execSoftReset (s : State) : Result :=
  if transferring s then .next { s with resetPending := true } else .next (softReset s)

/-- What an accepted START_DECODE does (R145), up to DictReset and the phase. -/
def startDecode (s : State) : State :=
  let s₁ : State := { s with
    flags := { s.flags with
      errCode := .none, eod := false, decDone := false, decCause := .none, renDone := false,
      renSkip := false }
    lzw := { s.lzw with decMcs := s.cfg.mcs }
    frame := {
      idxCount := 0
      expected := BitVec.ofNat 32 (s.cfg.w.toNat * s.cfg.h.toNat)
      decW := s.cfg.w
      decH := s.cfg.h
      renRow := 0 }
    br := { bitBuf := 0, bitCnt := 0, srcPos := 0 }
    inq := [] }
  let s₂ := dictReset s₁
  { s₂ with flags := { s₂.flags with phase := .decoding } }

/-- START_DECODE (R145): three checks in order, then the decode is set up. -/
def execStartDecode (s : State) : Result :=
  if s.flags.phase ≠ .idle then .next (refuse .badPhase s)
  else if s.cfg.mcs.toNat < 2 ∨ 8 < s.cfg.mcs.toNat then .next (refuse .badMcs s)
  else if s.params.idxCap < s.cfg.w.toNat * s.cfg.h.toNat then .next (refuse .tooLarge s)
  else .next (startDecode s)

/-- END_OF_DATA (R146). -/
def execEndOfData (s : State) : Result :=
  if s.flags.phase ≠ .decoding then .next (refuse .badPhase s)
  else .next { s with flags := { s.flags with eod := true, errCode := .none } }

/-- Check 4 of START_RENDER (R147), sums taken without wrap-around. -/
def coordOverflow (s : State) : Bool :=
  1 ≤ s.frame.decW.toNat && 1 ≤ s.frame.decH.toNat &&
  (65535 < s.cfg.destX.toNat + s.cfg.frameX.toNat + s.frame.decW.toNat - 1 ||
   65535 < s.cfg.destY.toNat + s.cfg.frameY.toNat + s.frame.decH.toNat - 1)

/-- What an accepted START_RENDER does (R147): skip (42_palette_mapper.md R130), finish at once
(R131), or start rendering. -/
def startRender (s : State) : State :=
  let f : Flags := { s.flags with errCode := .none, renDone := false, renSkip := false }
  let g : Flags :=
    if s.cfg.palSize.toNat = 0 then { f with renSkip := true, renDone := true }
    else if s.frame.decW.toNat = 0 ∨ s.frame.decH.toNat = 0 then { f with renDone := true }
    else { f with phase := .rendering }
  { s with flags := g, frame := { s.frame with renRow := 0 } }

/-- START_RENDER (R147): four checks in order. -/
def execStartRender (s : State) : Result :=
  if s.flags.phase ≠ .idle then .next (refuse .badPhase s)
  else if s.flags.decDone = false then .next (refuse .noFrame s)
  else if s.cfg.chunkH.toNat = 0 then .next (refuse .badChunk s)
  else if coordOverflow s then .next (refuse .coordOvf s)
  else .next (startRender s)

/-- A reserved command (R148): Refuse(BAD_CMD), in every phase. -/
def execCmdReserved (_op : BitVec 8) (s : State) : Result := .next (refuse .badCmd s)

end Sys2Proof.Machine
end

