-- ==== Sys2Proof/Machine/Codes.lean ====
section
/-! DEFINITION. Machine/Codes.lean: the code classes (41_lzw_decompressor.md R95 to R99), each as
the CODE step executes it once EXTRACT has taken the code's bits out of BITBUF (R94). -/

namespace Sys2Proof.Machine

/-- CLEAR (R95): DictReset, and the decode continues. -/
def execClear (s : State) : Result :=
  if classInForce .clear (BitVec.ofNat 12 s.codeCtx.clear) s then .next (dictReset s)
  else .refused (.notEnabled "CLEAR")

/-- END (R96): Stop(END). -/
def execEnd (s : State) : Result :=
  if classInForce .endCode (BitVec.ofNat 12 s.codeCtx.endCode) s then .next (stop .end_ s)
  else .refused (.notEnabled "END")

/-- KNOWN (R97): emit the entry at `c`, then the common sub-steps. -/
def execKnown (c : Code) (s : State) : Result :=
  if classInForce .known c s then
    match readDict s c with
    | none => .fault (.dictNoValue c.toNat)
    | some (b, bs) => dataCode b bs c s
  else .refused (.notEnabled "KNOWN")

/-- KWKWK (R98): emit the previous entry and its own first byte, then the common sub-steps;
`cur` is NEXT_CODE before the Append. -/
def execKwkwk (s : State) : Result :=
  if classInForce .kwkwk (s.lzw.nextCode.setWidth 12) s then
    match readDict s s.lzw.prevCode with
    | none => .fault (.dictNoValue s.lzw.prevCode.toNat)
    | some (p, ps) => dataCode p (ps ++ [p]) (s.lzw.nextCode.setWidth 12) s
  else .refused (.notEnabled "KWKWK")

/-- INVALID (R99): Stop(BAD_CODE). -/
def execInvalid (c : Code) (s : State) : Result :=
  if classInForce .invalid c s then .next (stop .badCode s)
  else .refused (.notEnabled "INVALID")

end Sys2Proof.Machine
end

