-- ==== Sys2Proof/Machine/Engine.lean ====
section
/-! DEFINITION. Machine/Engine.lean: the engine micro-operations (40_bit_reader.md R81, R83;
41_lzw_decompressor.md R94; 42_palette_mapper.md R127). -/

namespace Sys2Proof.Machine

/-- FILL's effect on the Bit Reader (R81). -/
def fillByte (b : Byte) (r : BitReader) : BitReader :=
  { bitBuf := r.bitBuf ||| (b.setWidth 19 <<< r.bitCnt.toNat)
    bitCnt := r.bitCnt + 8
    srcPos := r.srcPos + 1 }

/-- FILL (R81): the oldest byte of INQ goes to the top of BITBUF. -/
def execFill (s : State) : Result :=
  if fillEnabled s then
    match s.inq with
    | [] => .refused (.notEnabled "FILL")
    | b :: rest => .next { s with inq := rest, br := fillByte b s.br }
  else .refused (.notEnabled "FILL")

/-- EXHAUST (R83): Stop(EXHAUSTED). -/
def execExhaust (s : State) : Result :=
  if exhaustEnabled s then .next (stop .exhausted s)
  else .refused (.notEnabled "EXHAUST")

/-- CODE (R94): EXTRACT, classify the code against the state (30_encoding.md R63), execute its
class. -/
def execCode (s : State) : Result :=
  if codeEnabled s then
    match classify s.codeCtx (extractedCode s) with
    | .clear => execClear (extract s)
    | .endCode => execEnd (extract s)
    | .known => execKnown (extractedCode s) (extract s)
    | .kwkwk => execKwkwk (extract s)
    | .invalid => execInvalid (extractedCode s) (extract s)
  else .refused (.notEnabled "CODE")

/-- The state once the chunk's blit has gone to the sink (R127, R129). -/
def chunkDone (blit : Blit) (s : State) : State :=
  let row := s.frame.renRow + BitVec.ofNat 16 (chunkRows s)
  { s with
    sinkOut := s.sinkOut ++ [blit]
    snkTaken := 0
    frame := { s.frame with renRow := row }
    flags := if row = s.frame.decH then { s.flags with renDone := true, phase := .idle }
             else s.flags }

/-- CHUNK (R127): one blit of whole rows, as one transition. -/
def execChunk (s : State) : Result :=
  if chunkEnabled s then
    match chunkBlit s with
    | .error f => .fault f
    | .ok blit => .next (chunkDone blit s)
  else .refused (.notEnabled "CHUNK")

end Sys2Proof.Machine
end

