-- ==== Sys2Proof/Machine/Registers.lean ====
section
/-! DEFINITION. Machine/Registers.lean: the register writes and the register read
(43_host_commands.md R140, R141, R149 to R151). -/

namespace Sys2Proof.Machine

/-- A write of a configuration register takes effect only while `PHASE = IDLE` (R141). -/
def writeCfg (f : Cfg → Cfg) (s : State) : Result :=
  if s.flags.phase = .idle then .next { s with cfg := f s.cfg } else .next s

/-- WR_LZW_CFG (10_state.md R19). -/
def execWrLzwCfg (mcs : BitVec 4) (s : State) : Result :=
  writeCfg (fun k => { k with mcs := mcs }) s

/-- WR_FRAME_POS (R20). -/
def execWrFramePos (x y : BitVec 16) (s : State) : Result :=
  writeCfg (fun k => { k with frameX := x, frameY := y }) s

/-- WR_FRAME_SIZE (R21). -/
def execWrFrameSize (w h : BitVec 16) (s : State) : Result :=
  writeCfg (fun k => { k with w := w, h := h }) s

/-- WR_REN_CFG (R22). -/
def execWrRenCfg (interlace transpEn : Bool) (transpIdx chunkH : BitVec 8) (s : State) : Result :=
  writeCfg (fun k => { k with
    interlace := interlace, transpEn := transpEn, transpIdx := transpIdx, chunkH := chunkH }) s

/-- WR_PAL_SIZE (R23). -/
def execWrPalSize (n : BitVec 9) (s : State) : Result :=
  writeCfg (fun k => { k with palSize := n }) s

/-- WR_BG_COLOR (R24). -/
def execWrBgColor (bg : Colour) (s : State) : Result :=
  writeCfg (fun k => { k with bg := bg }) s

/-- WR_DEST_POS (R25). -/
def execWrDestPos (x y : BitVec 16) (s : State) : Result :=
  writeCfg (fun k => { k with destX := x, destY := y }) s

/-- A byte offered at DATA_IN (R149): dropped outside DECODING or after END_OF_DATA; pushed while INQ
has room; else held. -/
def offerByte (b : Byte) (s : State) : State :=
  if s.flags.phase ≠ .decoding ∨ s.flags.eod then { s with held := none }
  else if s.inq.length < s.params.inqDepth then { s with inq := s.inq ++ [b], held := none }
  else { s with held := some b }

/-- WR_DATA_IN (R149). A write that is held is offered again after every engine step (`settle`). -/
def execWrDataIn (b : Byte) (s : State) : Result := .next (offerByte b s)

/-- WR_IDX_RADDR (R151): in any phase. -/
def execWrIdxRaddr (a : Word) (s : State) : Result := .next { s with idxRaddr := a }

/-- WR_PAL (R150, R141): entry `i`, only while `PHASE = IDLE`. -/
def execWrPal (i : BitVec 8) (c : Colour) (s : State) : Result :=
  if s.flags.phase = .idle then .next { s with pal := Mem.write s.pal i.toNat c } else .next s

/-- A write of a read-only or reserved offset (10_state.md R32): ignored, no flag. -/
def execWrReserved (_a : RegAddr) (_v : Word) (s : State) : Result := .next s

/-- RD (R140): the port returns the register's value; the block's state does not change. -/
def execRd (a : RegAddr) (s : State) : Result :=
  match readReg s a with
  | .ok v => .next { s with rdata := v }
  | .error f => .fault f

end Sys2Proof.Machine
end

