-- ==== Sys2Proof/Machine/Dispatch.lean ====
section
/-! DEFINITION. Machine/Dispatch.lean: one arm per instruction. -/

namespace Sys2Proof.Machine

def exec (i : Instr) (s : State) : Host.Outcome State Fault Refusal :=
  match i with
  | .nop => Sys2Proof.Machine.execNop s
  | .softReset => Sys2Proof.Machine.execSoftReset s
  | .startDecode => Sys2Proof.Machine.execStartDecode s
  | .endOfData => Sys2Proof.Machine.execEndOfData s
  | .startRender => Sys2Proof.Machine.execStartRender s
  | .cmdReserved op => Sys2Proof.Machine.execCmdReserved op s
  | .clear => Sys2Proof.Machine.execClear s
  | .endCode => Sys2Proof.Machine.execEnd s
  | .known c => Sys2Proof.Machine.execKnown c s
  | .kwkwk => Sys2Proof.Machine.execKwkwk s
  | .invalid c => Sys2Proof.Machine.execInvalid c s
  | .fill => Sys2Proof.Machine.execFill s
  | .exhaust => Sys2Proof.Machine.execExhaust s
  | .code => Sys2Proof.Machine.execCode s
  | .chunk => Sys2Proof.Machine.execChunk s
  | .wrLzwCfg mcs => Sys2Proof.Machine.execWrLzwCfg mcs s
  | .wrFramePos x y => Sys2Proof.Machine.execWrFramePos x y s
  | .wrFrameSize w h => Sys2Proof.Machine.execWrFrameSize w h s
  | .wrRenCfg il te ti ch => Sys2Proof.Machine.execWrRenCfg il te ti ch s
  | .wrPalSize n => Sys2Proof.Machine.execWrPalSize n s
  | .wrBgColor bg => Sys2Proof.Machine.execWrBgColor bg s
  | .wrDestPos x y => Sys2Proof.Machine.execWrDestPos x y s
  | .wrDataIn b => Sys2Proof.Machine.execWrDataIn b s
  | .wrIdxRaddr a => Sys2Proof.Machine.execWrIdxRaddr a s
  | .wrPal n c => Sys2Proof.Machine.execWrPal n c s
  | .wrReserved a v => Sys2Proof.Machine.execWrReserved a v s
  | .rd a => Sys2Proof.Machine.execRd a s

end Sys2Proof.Machine
end

