-- ==== Sys2Proof/Machine/Turns.lean ====
section
/-! DEFINITION. Machine/Turns.lean: what each agent does when its turn comes (20_memory.md R51:
every transition is one completed host access or one engine step), and whose turn it is. -/

namespace Sys2Proof.Machine

/-- Whose turn it is: what the schedule says; when it says nothing, the engine's if a step is
enabled and the host's otherwise (log 2). -/
def nextTurn (s : State) : Turn :=
  match s.sched with
  | t :: _ => t
  | [] => if (engineSelect s).isSome then .engine else .host

/-- The turn is used up. -/
def dropTurn (s : State) : State := { s with sched := s.sched.tail }

/-- What waits at the port, looked at after every engine step: a SOFT_RESET written during the blit
the step has finished takes effect (43_host_commands.md R144: "after its last byte has been taken"),
a held DATA_IN write is offered again (R149). DESIGN CHOICE (log 8): that comes before the engine may
start its next step, so no other blit goes between. -/
def settle (s : State) : State :=
  if s.resetPending then softReset s
  else
    match s.held with
    | some b => offerByte b s
    | none => s

/-- An engine step's answer, with what waits at the port done. -/
def afterStep : Result → Result
  | .next s => .next (settle s)
  | .fault f => .fault f
  | .refused e => .refused e

/-- The engine's turn: the one enabled step; with none, it holds (40_bit_reader.md R84). -/
def engineTurn (s : State) : Result :=
  match engineSelect s with
  | some i => afterStep (exec i s)
  | none => .next s

/-- The sink's turn: it takes the byte on offer; the last one completes the CHUNK step
(42_palette_mapper.md R127; log 7). With nothing on offer, nothing happens. -/
def sinkTurn (s : State) : Result :=
  if chunkEnabled s then
    if s.snkTaken + 1 < chunkLen s then
      match chunkByte s s.snkTaken with
      | .error f => .fault f
      | .ok _ => .next { s with snkTaken := s.snkTaken + 1 }
    else afterStep (exec .chunk s)
  else .next s

/-- The state the host's next access sees. Accesses take effect in the order the host makes them
(20_memory.md R51) and complete when presented (10_state.md R37), so the one after a SOFT_RESET that
waits for a blit comes after the blit's last byte and the reset: the engine's step is finished first
(DESIGN CHOICE, log 8). -/
def beforeAccess (s : State) : Result := if s.resetPending then engineTurn s else .next s

/-- The host's turn: the next access is decoded and executed. While a DATA_IN write is held the port
takes no other access (43_host_commands.md R149), and with none to make nothing happens. -/
def hostTurn (s : State) : Result :=
  match s.held with
  | some _ => .next s
  | none =>
    match s.hostQ with
    | [] => .next s
    | r :: rest =>
      match beforeAccess s with
      | .next t => exec (decodeRequest r) { t with hostQ := rest }
      | .fault f => .fault f
      | .refused e => .refused e

/-- A turn, by whose it is. -/
def takeTurn (t : Turn) (s : State) : Result :=
  match t with
  | .host => hostTurn s
  | .engine => engineTurn s
  | .sink => sinkTurn s
  | .reset => .next (hardwareReset s)

/-- `s` with the request `r` at the port, nothing waiting there before it, and the host's turn
next. -/
def presentRequest (r : PortReq) (s : State) : State :=
  { s with held := none, resetPending := false, hostQ := r :: s.hostQ, sched := .host :: s.sched }

end Sys2Proof.Machine
end

