-- ==== Sys2Proof/Machine/Step.lean ====
section
/-! DEFINITION. Machine/Step.lean: one step of the machine, one atomic transition of
20_memory.md R51. -/

namespace Sys2Proof.Machine

/-- One transition: the agent whose turn it is moves. -/
def step (s : State) : Host.Outcome State Fault Refusal := takeTurn (nextTurn s) (dropTurn s)

/-- `s` with the instruction whose bits are `w` as the host's next access, the host moving next. -/
def State.withFetchWord (s : State) (nbits w : Nat) : State :=
  presentRequest (PortReq.ofNat (w % 2 ^ nbits)) s

end Sys2Proof.Machine
end

