-- ==== Sys2Proof/Machine/Functions.lean ====
section
/-! DEFINITION. Machine/Functions.lean: the three units as functions over complete inputs, as the
spec writes them beside the steps: read_bits (40_bit_reader.md R87), lzw_decode
(41_lzw_decompressor.md R107) and render (42_palette_mapper.md R132). The steps do not call them;
statements hold the steps against them. -/

namespace Sys2Proof.Machine

/-! ### read_bits (R87) -/

/-- The bytes `read_bits(n)` merges: one at a time, and only while `BITCNT < n`. -/
def pullBytes (n : Nat) : List Byte → BitReader → List Byte × BitReader
  | [], r => ([], r)
  | b :: bs, r => if r.bitCnt.toNat < n then pullBytes n bs (fillByte b r) else (b :: bs, r)

/-- `read_bits(n)` over the bytes that remain: the value, or none for EXHAUSTED; then the bytes and
the buffer left. -/
def readBits (n : Nat) (bytes : List Byte) (r : BitReader) : Option Nat × List Byte × BitReader :=
  let p := pullBytes n bytes r
  if p.2.bitCnt.toNat < n then (none, p.1, p.2)
  else
    (some (p.2.bitBuf.toNat % 2 ^ n), p.1,
      { p.2 with bitBuf := p.2.bitBuf >>> n, bitCnt := p.2.bitCnt - BitVec.ofNat 5 n })

/-! ### lzw_decode (R107) -/

/-- The decoder state the document asks for (10_state.md R12): the dictionary as a list of byte
strings indexed by code, the placeholders empty; the code width; the previous entry's code.
NEXT_CODE is the length of the dictionary (R11). -/
structure Decoder where
  dict  : List (List Byte)
  width : Nat
  prev  : Option Nat
  deriving DecidableEq, Repr

/-- `DictReset()` (R92). -/
def Decoder.reset (m : Nat) : Decoder :=
  { dict := (List.range (2 ^ m)).map (fun c => [BitVec.ofNat 8 c]) ++ [[], []]
    width := m + 1
    prev := none }

/-- The entry a data code emits and the code it is known by afterwards (R97, R98); none for an
INVALID code (R99). -/
def Decoder.entry (d : Decoder) (c : Nat) : Option (List Byte × Nat) :=
  if c < d.dict.length then some ((d.dict[c]?).getD [], c)
  else
    match d.prev with
    | some p =>
      if c = d.dict.length then
        some ((d.dict[p]?).getD [] ++ ((d.dict[p]?).getD []).take 1, d.dict.length)
      else none
    | none => none

/-- Append and Widen (R101, R102). -/
def Decoder.append (d : Decoder) (p : Nat) (entry : List Byte) : Decoder :=
  let dict := d.dict ++ [(d.dict[p]?).getD [] ++ entry.take 1]
  { d with
    dict := dict
    width := if dict.length = 2 ^ d.width ∧ d.width < 12 then d.width + 1 else d.width }

/-- The loop of `lzw_decode` (R107): one code a turn. The first number bounds the turns; a run that
needs more answers the cause NONE. -/
def lzwLoop (m expected : Nat) :
    Nat → Decoder → List Byte → BitReader → List Byte → List Byte × Cause
  | 0, _, _, _, out => (out, .none)
  | k + 1, d, bytes, r, out =>
    match readBits d.width bytes r with
    | (none, _, _) => (out, .exhausted)
    | (some c, bytes', r') =>
      if c = 2 ^ m then lzwLoop m expected k (.reset m) bytes' r' out
      else if c = 2 ^ m + 1 then (out, .end_)
      else
        match d.entry c with
        | none => (out, .badCode)
        | some (entry, cur) =>
          let out' := out ++ entry.take (expected - out.length)
          match d.prev with
          | some p =>
            if d.dict.length = 4096 then (out', .dictFull)
            else if expected ≤ out'.length then (out', .count)
            else lzwLoop m expected k { d.append p entry with prev := some cur } bytes' r' out'
          | none =>
            if expected ≤ out'.length then (out', .count)
            else lzwLoop m expected k { d with prev := some cur } bytes' r' out'

/-- `lzw_decode(M, data, expected)` (R107): the indices and the stop cause. Every code takes at
least one bit, so `8 * len(data) + 1` turns are enough. -/
def lzwDecode (m : Nat) (data : List Byte) (expected : Nat) : List Byte × Cause :=
  lzwLoop m expected (8 * data.length + 1) (.reset m) data .reset []

/-- The decoded index sequence of a state: `IDXMEM[0 .. IDX_COUNT-1]` (R90). -/
def indices (s : State) : List (Option Byte) :=
  (List.range s.frame.idxCount.toNat).map (Mem.read s.idxmem)

/-! ### render (R132) -/

/-- The loop of `render()` (R132) from REN_ROW on, at most `k` times round. -/
def renderFrom : Nat → State → Except Fault (List Blit)
  | 0, _ => .ok []
  | k + 1, s =>
    if s.frame.renRow.toNat < s.frame.decH.toNat then
      match chunkBlit s with
      | .error f => .error f
      | .ok b =>
        match renderFrom k { s with frame := { s.frame with
            renRow := s.frame.renRow + BitVec.ofNat 16 (chunkRows s) } } with
        | .error f => .error f
        | .ok bs => .ok (b :: bs)
    else .ok []

/-- `render()` (R132): the blits of one render, as a function of the state at START_RENDER. A round
of the loop takes at least one row where `CHUNK_H >= 1`, so DEC_H rounds are enough. -/
def render (s : State) : Except Fault (List Blit) :=
  if s.cfg.palSize = 0 ∨ s.frame.decW = 0 ∨ s.frame.decH = 0 then .ok []
  else renderFrom s.frame.decH.toNat { s with frame := { s.frame with renRow := 0 } }

/-- The pixels of the whole output image, packed, in row-major order (R132), which no CHUNK_H
enters. -/
def imageBytes (s : State) : Except Fault (List Byte) :=
  packAll s ((List.range s.frame.decH.toNat).flatMap fun i =>
    (List.range s.frame.decW.toNat).map fun x => srcRow s i * s.frame.decW.toNat + x)

end Sys2Proof.Machine
end

