-- ==== Sys2Proof/Safety.lean ====
section
/-! DEFINITION. Safety.lean: the invariant of the block, in the parts the spec states it in, what a
safe answer of a step is, and the words the statements use. -/

namespace Sys2Proof.Machine

/-- The Bit Reader's invariants: width (40_bit_reader.md R86) and clean top (R85). -/
def BitsOk (s : State) : Prop :=
  s.br.bitCnt.toNat ≤ 19 ∧ s.br.bitBuf.toNat < 2 ^ s.br.bitCnt.toNat

/-- 41_lzw_decompressor.md R93 items 1, 3 and 4, of the working registers of a decode. -/
def LzwActive (z : Lzw) : Prop :=
  2 ≤ z.decMcs.toNat ∧ z.decMcs.toNat ≤ 8 ∧
  2 ^ z.decMcs.toNat + 2 ≤ z.nextCode.toNat ∧ z.nextCode.toNat ≤ 4096 ∧
  z.codeWidth.toNat = min 12 (max (z.decMcs.toNat + 1) (1 + Nat.log2 z.nextCode.toNat)) ∧
  (z.prevValid = true → z.prevCode.toNat < z.nextCode.toNat ∧
    z.prevCode.toNat ≠ 2 ^ z.decMcs.toNat ∧ z.prevCode.toNat ≠ 2 ^ z.decMcs.toNat + 1)

/-- The LZW registers are at reset (R36) or those of a decode that is or was in progress (R11). -/
def LzwOk (s : State) : Prop :=
  s.lzw = Lzw.reset ∧ s.flags.phase ≠ .decoding ∨ LzwActive s.lzw

/-- R93 item 2 for the entry at code `c`, with `M = m`: a placeholder is EMPTY; a data entry is a
string of at most `max 1 (c - clear)` bytes below `clear`; a literal is its own code. -/
def entryOk (m c : Nat) : Option DictEntry → Bool
  | some (.str b bs) =>
    c != 2 ^ m && c != 2 ^ m + 1 && bs.length + 1 ≤ max 1 (c - 2 ^ m) &&
    (b :: bs).all (fun x => x.toNat < 2 ^ m) && (2 ^ m ≤ c || b.toNat == c)
  | some .empty => c == 2 ^ m || c == 2 ^ m + 1
  | none => false

/-- R93 item 2: every defined entry. -/
def DictOk (s : State) : Prop :=
  ∀ c, c < s.lzw.nextCode.toNat → entryOk s.lzw.decMcs.toNat c (Mem.read s.dict c) = true

/-- The frame registers: EXPECTED is the full product (30_encoding.md R74), at most IDX_CAP
(20_memory.md R50); R93 item 5; every address below IDX_COUNT holds a value (R41); and while a
decode runs the count is short of EXPECTED, unless that is 0 (41_lzw_decompressor.md R105, R109). -/
def FrameOk (s : State) : Prop :=
  s.frame.expected.toNat = s.frame.decW.toNat * s.frame.decH.toNat ∧
  s.frame.expected.toNat ≤ s.params.idxCap ∧
  s.frame.idxCount.toNat ≤ s.frame.expected.toNat ∧
  (∀ a, a < s.frame.idxCount.toNat → (Mem.read s.idxmem a).isSome = true) ∧
  (s.flags.phase = .decoding →
    s.frame.idxCount.toNat < s.frame.expected.toNat ∨ s.frame.expected.toNat = 0)

/-- The flags (10_state.md R15, 60_exceptions.md R166): a decode is done exactly when it has a
cause; none of the done flags is set while the work runs; a skip is also done; COUNT means the
frame is complete, and END, EXHAUSTED and BAD_CODE that it is not, unless EXPECTED = 0. -/
def FlagsOk (s : State) : Prop :=
  (s.flags.decDone = true ↔ s.flags.decCause ≠ .none) ∧
  (s.flags.phase = .decoding → s.flags.decDone = false) ∧
  (s.flags.phase = .rendering → s.flags.decDone = true) ∧
  (s.flags.phase ≠ .idle → s.flags.renDone = false) ∧
  (s.flags.renSkip = true → s.flags.renDone = true) ∧
  (s.flags.decCause = .count → s.frame.idxCount.toNat = s.frame.expected.toNat) ∧
  (s.flags.decCause = .end_ ∨ s.flags.decCause = .exhausted ∨ s.flags.decCause = .badCode →
    s.frame.idxCount.toNat < s.frame.expected.toNat ∨ s.frame.expected.toNat = 0)

/-- What START_RENDER guarantees while PHASE = RENDERING (42_palette_mapper.md R127, R128), and the
transfer in progress: fewer bytes taken than the chunk has; none while nothing is rendered. -/
def RenderOk (s : State) : Prop :=
  s.frame.renRow.toNat ≤ s.frame.decH.toNat ∧
  (s.flags.phase ≠ .rendering → s.snkTaken = 0) ∧
  (s.flags.phase = .rendering →
    1 ≤ s.frame.decW.toNat ∧ s.frame.renRow.toNat < s.frame.decH.toNat ∧
    1 ≤ s.cfg.chunkH.toNat ∧ 1 ≤ s.cfg.palSize.toNat ∧
    s.cfg.destX.toNat + s.cfg.frameX.toNat + s.frame.decW.toNat - 1 ≤ 65535 ∧
    s.cfg.destY.toNat + s.cfg.frameY.toNat + s.frame.decH.toNat - 1 ≤ 65535 ∧
    s.snkTaken < chunkLen s)

/-- The memories: canonical form, and no address outside the memory (20_memory.md R50). -/
def MemOk (s : State) : Prop :=
  Mem.wf s.dict ∧ (∀ e ∈ s.dict, e.1 < Config.dictSize) ∧
  Memory.wf s.idxmem ∧ (∀ e ∈ s.idxmem, e.1 < s.params.idxCap) ∧
  Mem.wf s.pal ∧ (∀ e ∈ s.pal, e.1 < Config.palEntries)

/-- A blit as the sink contract has it (30_encoding.md R72). -/
def Blit.ok (b : Blit) : Prop :=
  b.x0.toNat ≤ b.x1.toNat ∧ b.y0.toNat ≤ b.y1.toNat ∧
  b.bytes.length = 2 * (b.x1.toNat - b.x0.toNat + 1) * (b.y1.toNat - b.y0.toNat + 1)

/-- The port: a DATA_IN write is held only while the decode wants it and INQ has no room
(43_host_commands.md R149); a SOFT_RESET waits only while a blit is being transferred (R144). -/
def PortOk (s : State) : Prop :=
  (s.held ≠ none →
    s.flags.phase = .decoding ∧ s.flags.eod = false ∧ s.params.inqDepth ≤ s.inq.length) ∧
  (s.resetPending = true → s.flags.phase = .rendering ∧ s.snkTaken ≠ 0)

/-- The invariant of the block by itself: every instruction keeps it. -/
structure BlockInv (s : State) : Prop where
  params : s.params.ok = true
  bits   : BitsOk s
  lzw    : LzwOk s
  dict   : DictOk s
  frame  : FrameOk s
  flags  : FlagsOk s
  render : RenderOk s
  mem    : MemOk s
  queue  : s.inq.length ≤ s.params.inqDepth
  blits  : ∀ b ∈ s.sinkOut, b.ok

/-- The invariant: every state a run can reach meets it, and every step keeps it. -/
structure Inv (s : State) : Prop extends BlockInv s where
  port : PortOk s

/-- Every PAL entry the Mapper can look up has been written (70_reset_and_hazards.md R193). -/
def PaletteLoaded (s : State) : Prop :=
  ∀ i, i < 256 → i < s.cfg.palSize.toNat → (Mem.read s.pal i).isSome = true

/-- A safe answer: a next state, or the one fault the spec has, an unwritten PAL entry read
(20_memory.md R42). -/
def SafeAnswer : Result → Prop
  | .next _ => True
  | .fault (.palUnwritten _) => True
  | .fault _ => False
  | .refused _ => False

/-! ### The vocabulary of the statements -/

/-- The dictionary is exactly the initial one (41_lzw_decompressor.md R92), read entry by entry. -/
def InitialDictionary (t : State) : Prop :=
  t.lzw.nextCode.toNat = 2 ^ t.lzw.decMcs.toNat + 2 ∧
  t.lzw.codeWidth.toNat = t.lzw.decMcs.toNat + 1 ∧
  t.lzw.prevValid = false ∧ t.lzw.prevCode = 0 ∧
  (∀ c, c < 2 ^ t.lzw.decMcs.toNat → Mem.read t.dict c = some (.str (BitVec.ofNat 8 c) [])) ∧
  Mem.read t.dict (2 ^ t.lzw.decMcs.toNat) = some .empty ∧
  Mem.read t.dict (2 ^ t.lzw.decMcs.toNat + 1) = some .empty ∧
  (∀ c, 2 ^ t.lzw.decMcs.toNat + 2 ≤ c → Mem.read t.dict c = none)

/-- The flags after Stop(cause) (60_exceptions.md R170). -/
def StoppedFlags (cause : Cause) (f : Flags) : Flags :=
  { f with decCause := cause, decDone := true, phase := .idle }

/-- `t` has the bytes of `entry` that fit below EXPECTED written from IDX_COUNT on, and every other
byte of IDXMEM as in `s` (R100). -/
def Emitted (entry : List Byte) (s t : State) : Prop :=
  t.frame.idxCount.toNat = min s.frame.expected.toNat (s.frame.idxCount.toNat + entry.length) ∧
  (∀ k b, entry[k]? = some b → s.frame.idxCount.toNat + k < s.frame.expected.toNat →
    Mem.read t.idxmem (s.frame.idxCount.toNat + k) = some b) ∧
  (∀ a, a < s.frame.idxCount.toNat ∨ t.frame.idxCount.toNat ≤ a →
    Mem.read t.idxmem a = Mem.read s.idxmem a)

/-- What a data code does (41_lzw_decompressor.md R94 from Emit on, R100 to R105): `first :: rest`
is its entry, `p :: ps` the previous entry. -/
def DataCodeEffect (first : Byte) (rest : List Byte) (cur : Code) (p : Byte) (ps : List Byte)
    (s t : State) : Prop :=
  Emitted (first :: rest) s t ∧
  t.frame = { s.frame with idxCount := t.frame.idxCount } ∧
  t = { s with flags := t.flags, frame := t.frame, idxmem := t.idxmem, dict := t.dict,
               lzw := t.lzw } ∧
  (if s.lzw.prevValid = true ∧ s.lzw.nextCode.toNat = 4096 then
    t.dict = s.dict ∧ t.lzw = s.lzw ∧ t.flags = StoppedFlags .dictFull s.flags
  else
    t.lzw.decMcs = s.lzw.decMcs ∧ t.lzw.prevValid = true ∧ t.lzw.prevCode = cur ∧
    (if s.lzw.prevValid = true then
      Mem.read t.dict s.lzw.nextCode.toNat = some (.str p (ps ++ [first])) ∧
      (∀ c, c ≠ s.lzw.nextCode.toNat → Mem.read t.dict c = Mem.read s.dict c) ∧
      t.lzw.nextCode.toNat = s.lzw.nextCode.toNat + 1 ∧
      t.lzw.codeWidth.toNat =
        (if s.lzw.nextCode.toNat + 1 = 2 ^ s.lzw.codeWidth.toNat ∧ s.lzw.codeWidth.toNat < 12
         then s.lzw.codeWidth.toNat + 1 else s.lzw.codeWidth.toNat)
    else
      t.dict = s.dict ∧ t.lzw.nextCode = s.lzw.nextCode ∧ t.lzw.codeWidth = s.lzw.codeWidth) ∧
    t.flags = (if s.frame.expected.toNat ≤ t.frame.idxCount.toNat then StoppedFlags .count s.flags
               else s.flags))

/-- `r` holds the bits of the stream from its next code to the end of the `k` bytes taken
(10_state.md R14, 20_memory.md R44). -/
def HoldsStream (data : List Byte) (k : Nat) (r : BitReader) : Prop :=
  k ≤ data.length ∧ r.bitCnt.toNat ≤ 8 * k ∧ r.bitCnt.toNat ≤ 19 ∧
  r.bitBuf.toNat =
    natOfBits (fun i => streamBit data (8 * k - r.bitCnt.toNat + i)) r.bitCnt.toNat

/-- A write of `v` to byte offset `offset` (10_state.md R37). -/
def writeAt (offset : Nat) (v : Word) : PortReq := { read := false, addr := regAt offset, wdata := v }

/-- The host's accesses that give a stream: one DATA_IN write a byte, then END_OF_DATA
(30_encoding.md R73). -/
def pushStream (data : List Byte) : List PortReq :=
  data.map (fun b => writeAt 0x024 (b.setWidth 32)) ++ [writeAt 0x000 3]

end Sys2Proof.Machine
end

