-- ==== Sys2Proof/Certificates/Slice0/Obligations.lean ====
section
/-! DEFINITION. Certificates/Slice0/Obligations.lean: the statements for the provers. Each docstring
names the rules of spec/ it formalises. A next state is written out, or as
`t = { s with f := t.f }`, which says that every field but `f` is as before. That `reg_rdata` is among
what is as before, where no read completes, is the model's choice (log 9). -/

open Sys2Proof Sys2Proof.Machine

/-! ### Encodings -/

/-- Words written out from 30_encoding.md R66, 10_state.md R16 and 30_encoding.md R63. -/
def Obligations.WordsOfTheTablesDecode : Prop :=
  decodeTableWord 32 0x00000000 = some .nop ∧
  decodeTableWord 32 0x00000001 = some .softReset ∧
  decodeTableWord 32 0xFFFFFF02 = some .startDecode ∧
  decodeTableWord 8 0x03 = some .endOfData ∧
  decodeTableWord 32 0x00000004 = some .startRender ∧
  decodeTableWord 32 0x0000007F = some (.cmdReserved 0x7F) ∧
  decodeRequest { read := false, addr := 0x004, wdata := 0x00040003 } = .wrFrameSize 3 4 ∧
  decodeRequest { read := false, addr := 0x005, wdata := 0xFF0403FF } = .wrRenCfg true true 3 4 ∧
  decodeRequest { read := false, addr := 0x101, wdata := 0x0000ABCD } = .wrPal 1 0xABCD ∧
  decodeRequest { read := true, addr := 0x001, wdata := 0 } = .rd 0x001 ∧
  decodeCode { decMcs := 2, codeWidth := 3, nextCode := 6, prevValid := false } 4 = .clear ∧
  decodeCode { decMcs := 2, codeWidth := 3, nextCode := 6, prevValid := false } 6 = .invalid 6 ∧
  decodeCode { decMcs := 2, codeWidth := 3, nextCode := 6, prevValid := true } 6 = .kwkwk

/-- Decoding gives back every well-formed encoded instruction: commands, register writes and reads
(30_encoding.md R60, R66, 10_state.md R16) and the code classes in every context a decode can be in
(R63). The engine micro-operations have no encoding (R75). -/
def Obligations.DecodeOfEncodeIsTheInstruction : Prop :=
  ∀ (x : CodeCtx) (i : Instr), x.ok = true → i.wfIn x = true → i.format ≠ .engine →
    decode x (encode x i) = .ok i

/-- Only OP = word[7:0] of a command word is decoded (R65), and only the byte of a DATA_IN word
(10_state.md R26). -/
def Obligations.IgnoredBitsDoNotMatter : Prop :=
  ∀ v w : Word, v.toNat % 256 = w.toNat % 256 →
    decodeRequest (writeAt 0x000 v) = decodeRequest (writeAt 0x000 w) ∧
    decodeRequest (writeAt 0x024 v) = decodeRequest (writeAt 0x024 w)

/-- The classes of R63 in every context a decode can be in: they are the five conditions of the
table, and every code meets exactly the one it is classified by. -/
def Obligations.ClassesAreTheConditionsOfTheTable : Prop :=
  ∀ (x : CodeCtx) (c : Code), x.ok = true →
    (classify x c = .clear ↔ c.toNat = 2 ^ x.decMcs.toNat) ∧
    (classify x c = .endCode ↔ c.toNat = 2 ^ x.decMcs.toNat + 1) ∧
    (classify x c = .known ↔ c.toNat < x.nextCode.toNat ∧ c.toNat ≠ 2 ^ x.decMcs.toNat ∧
      c.toNat ≠ 2 ^ x.decMcs.toNat + 1) ∧
    (classify x c = .kwkwk ↔ c.toNat = x.nextCode.toNat ∧ x.prevValid = true) ∧
    (classify x c = .invalid ↔ x.nextCode.toNat < c.toNat ∨
      c.toNat = x.nextCode.toNat ∧ x.prevValid = false)

/-! ### Reset -/

/-- The reset values of 10_state.md R36. -/
def Obligations.ResetValuesAreAsStated : Prop :=
  State.reset.flags =
    { phase := .idle, decDone := false, decCause := .none, renDone := false,
      renSkip := false, errCode := .none, eod := false } ∧
  State.reset.cfg =
    { mcs := 0, frameX := 0, frameY := 0, w := 0, h := 0, interlace := false,
      transpEn := false, transpIdx := 0, chunkH := 8, palSize := 0, bg := 0, destX := 0,
      destY := 0 } ∧
  State.reset.br = { bitBuf := 0, bitCnt := 0, srcPos := 0 } ∧
  State.reset.lzw =
    { decMcs := 0, codeWidth := 0, nextCode := 0, prevValid := false, prevCode := 0 } ∧
  State.reset.frame = { idxCount := 0, expected := 0, decW := 0, decH := 0, renRow := 0 } ∧
  State.reset.idxRaddr = 0 ∧ State.reset.inq = [] ∧
  (∀ a, Mem.read State.reset.dict a = none) ∧ (∀ a, Mem.read State.reset.idxmem a = none) ∧
  (∀ a, Mem.read State.reset.pal a = none) ∧
  regReady State.reset = true ∧ snkOffer State.reset = .ok none

/-- Hardware reset from any state (70_reset_and_hazards.md R185): the block is in the state of R36;
what the sink has had and what the host has still to do are not the block's (logs 13 and 19, the
model's choice). What `reg_rdata` shows is left open: R36 gives it no value (log 9). -/
def Obligations.HardwareResetFromAnyState : Prop :=
  ∀ (s : State) (q : List Turn), s.sched = .reset :: q →
    ∃ v : Word, step s = .next { State.reset with
      params := s.params, sinkOut := s.sinkOut, hostQ := s.hostQ, sched := q, rdata := v }

/-! ### Commands (43_host_commands.md) -/

/-- R143. -/
def Obligations.NopHasNoEffect : Prop := ∀ s : State, exec .nop s = .next s

/-- R148: the codes 0x05..0xFF are refused with BAD_CMD in every phase. -/
def Obligations.ReservedCommandsAreRefused : Prop :=
  ∀ (s : State) (v : Word), 0x05 ≤ v.toNat % 256 →
    decodeRequest (writeAt 0x000 v) = .cmdReserved (BitVec.ofNat 8 v.toNat) ∧
    exec (.cmdReserved (BitVec.ofNat 8 v.toNat)) s =
      .next { s with flags := { s.flags with errCode := .badCmd } }

/-- R144: registers, flags and working registers to their reset values, INQ emptied, the three
memories unchanged, in every phase; during a blit the write completes and all of that is still to
come. That a blit none of whose bytes is taken does not make the reset wait is the model's choice
(log 8). -/
def Obligations.SoftResetKeepsTheMemories : Prop :=
  ∀ s : State,
    (¬(s.flags.phase = .rendering ∧ s.frame.renRow.toNat < s.frame.decH.toNat ∧ s.snkTaken ≠ 0) →
      ∃ t, exec .softReset s = .next t ∧
      t.flags = State.reset.flags ∧ t.cfg = State.reset.cfg ∧ t.br = State.reset.br ∧
      t.lzw = State.reset.lzw ∧ t.frame = State.reset.frame ∧ t.idxRaddr = State.reset.idxRaddr ∧
      t.inq = [] ∧ t.snkTaken = 0 ∧ t.resetPending = false ∧
      (∀ a, Mem.read t.dict a = Mem.read s.dict a) ∧
      (∀ a, Mem.read t.idxmem a = Mem.read s.idxmem a) ∧
      (∀ a, Mem.read t.pal a = Mem.read s.pal a) ∧
      t = { s with flags := t.flags, cfg := t.cfg, br := t.br, lzw := t.lzw, frame := t.frame,
                   idxRaddr := t.idxRaddr, inq := t.inq, resetPending := t.resetPending,
                   snkTaken := t.snkTaken }) ∧
    (s.flags.phase = .rendering → s.frame.renRow.toNat < s.frame.decH.toNat → s.snkTaken ≠ 0 →
      exec .softReset s = .next { s with resetPending := true })

/-- R145, accepted: exactly what the rule assigns. -/
def Obligations.StartDecodeSetsUpTheDecode : Prop :=
  ∀ s : State, s.flags.phase = .idle → 2 ≤ s.cfg.mcs.toNat → s.cfg.mcs.toNat ≤ 8 →
    s.cfg.w.toNat * s.cfg.h.toNat ≤ s.params.idxCap →
    ∃ t, exec .startDecode s = .next t ∧
      t.flags =
        { phase := .decoding, decDone := false, decCause := .none, renDone := false,
          renSkip := false, errCode := .none, eod := false } ∧
      t.lzw.decMcs = s.cfg.mcs ∧ InitialDictionary t ∧
      t.frame.decW = s.cfg.w ∧ t.frame.decH = s.cfg.h ∧
      t.frame.expected.toNat = s.cfg.w.toNat * s.cfg.h.toNat ∧
      t.frame.idxCount = 0 ∧ t.frame.renRow = 0 ∧
      t.br = { bitBuf := 0, bitCnt := 0, srcPos := 0 } ∧ t.inq = [] ∧
      (∀ a, Mem.read t.idxmem a = Mem.read s.idxmem a) ∧
      t = { s with flags := t.flags, lzw := t.lzw, frame := t.frame, br := t.br, inq := t.inq,
                   dict := t.dict }

/-- R145, refused: the checks in their order, each with its error and nothing else changed
(60_exceptions.md R173). -/
def Obligations.StartDecodeChecksInOrder : Prop :=
  ∀ s : State,
    (s.flags.phase ≠ .idle →
      exec .startDecode s = .next { s with flags := { s.flags with errCode := .badPhase } }) ∧
    (s.flags.phase = .idle → s.cfg.mcs.toNat < 2 ∨ 8 < s.cfg.mcs.toNat →
      exec .startDecode s = .next { s with flags := { s.flags with errCode := .badMcs } }) ∧
    (s.flags.phase = .idle → 2 ≤ s.cfg.mcs.toNat → s.cfg.mcs.toNat ≤ 8 →
      s.params.idxCap < s.cfg.w.toNat * s.cfg.h.toNat →
      exec .startDecode s = .next { s with flags := { s.flags with errCode := .tooLarge } })

/-- R146: refused outside DECODING; else EOD <- 1 and ERR_CODE <- 0, a second time with no further
change. -/
def Obligations.EndOfDataSetsEod : Prop :=
  ∀ s : State,
    (s.flags.phase ≠ .decoding →
      exec .endOfData s = .next { s with flags := { s.flags with errCode := .badPhase } }) ∧
    (s.flags.phase = .decoding →
      exec .endOfData s =
        .next { s with flags := { s.flags with eod := true, errCode := .none } }) ∧
    (s.flags.phase = .decoding → s.flags.eod = true → s.flags.errCode = .none →
      exec .endOfData s = .next s)

/-- R147, accepted, with its three outcomes (42_palette_mapper.md R130, R131). -/
def Obligations.StartRenderRendersOrSkips : Prop :=
  ∀ s : State, s.flags.phase = .idle → s.flags.decDone = true → 1 ≤ s.cfg.chunkH.toNat →
    (1 ≤ s.frame.decW.toNat → 1 ≤ s.frame.decH.toNat →
      s.cfg.destX.toNat + s.cfg.frameX.toNat + s.frame.decW.toNat - 1 ≤ 65535 ∧
      s.cfg.destY.toNat + s.cfg.frameY.toNat + s.frame.decH.toNat - 1 ≤ 65535) →
    exec .startRender s = .next { s with
      frame := { s.frame with renRow := 0 }
      flags :=
        if s.cfg.palSize = 0 then
          { s.flags with errCode := .none, renDone := true, renSkip := true }
        else if s.frame.decW = 0 ∨ s.frame.decH = 0 then
          { s.flags with errCode := .none, renDone := true, renSkip := false }
        else { s.flags with errCode := .none, renDone := false, renSkip := false,
                            phase := .rendering } }

/-- R147, refused: the four checks in their order. -/
def Obligations.StartRenderChecksInOrder : Prop :=
  ∀ s : State,
    (s.flags.phase ≠ .idle →
      exec .startRender s = .next { s with flags := { s.flags with errCode := .badPhase } }) ∧
    (s.flags.phase = .idle → s.flags.decDone = false →
      exec .startRender s = .next { s with flags := { s.flags with errCode := .noFrame } }) ∧
    (s.flags.phase = .idle → s.flags.decDone = true → s.cfg.chunkH = 0 →
      exec .startRender s = .next { s with flags := { s.flags with errCode := .badChunk } }) ∧
    (s.flags.phase = .idle → s.flags.decDone = true → s.cfg.chunkH ≠ 0 →
      1 ≤ s.frame.decW.toNat → 1 ≤ s.frame.decH.toNat →
      65535 < s.cfg.destX.toNat + s.cfg.frameX.toNat + s.frame.decW.toNat - 1 ∨
        65535 < s.cfg.destY.toNat + s.cfg.frameY.toNat + s.frame.decH.toNat - 1 →
      exec .startRender s = .next { s with flags := { s.flags with errCode := .coordOvf } })

/-! ### Register writes -/

/-- R141 with 10_state.md R19 to R25: while PHASE = IDLE the named fields take the written bits and
nothing else changes. -/
def Obligations.ConfigurationWritesWhenIdle : Prop :=
  ∀ s : State, s.flags.phase = .idle →
    (∀ m, exec (.wrLzwCfg m) s = .next { s with cfg := { s.cfg with mcs := m } }) ∧
    (∀ x y, exec (.wrFramePos x y) s =
      .next { s with cfg := { s.cfg with frameX := x, frameY := y } }) ∧
    (∀ w h, exec (.wrFrameSize w h) s = .next { s with cfg := { s.cfg with w := w, h := h } }) ∧
    (∀ il te ti ch, exec (.wrRenCfg il te ti ch) s =
      .next { s with cfg := { s.cfg with interlace := il, transpEn := te, transpIdx := ti,
                                         chunkH := ch } }) ∧
    (∀ n, exec (.wrPalSize n) s = .next { s with cfg := { s.cfg with palSize := n } }) ∧
    (∀ c, exec (.wrBgColor c) s = .next { s with cfg := { s.cfg with bg := c } }) ∧
    (∀ x y, exec (.wrDestPos x y) s =
      .next { s with cfg := { s.cfg with destX := x, destY := y } })

/-- R141 and R190 of 70_reset_and_hazards.md: while the engine runs, writes of the configuration
registers and of PAL change nothing and set no flag. -/
def Obligations.ConfigurationWritesAreLostWhenBusy : Prop :=
  ∀ s : State, s.flags.phase ≠ .idle →
    (∀ m, exec (.wrLzwCfg m) s = .next s) ∧ (∀ x y, exec (.wrFramePos x y) s = .next s) ∧
    (∀ w h, exec (.wrFrameSize w h) s = .next s) ∧
    (∀ il te ti ch, exec (.wrRenCfg il te ti ch) s = .next s) ∧
    (∀ n, exec (.wrPalSize n) s = .next s) ∧ (∀ c, exec (.wrBgColor c) s = .next s) ∧
    (∀ x y, exec (.wrDestPos x y) s = .next s) ∧ (∀ i c, exec (.wrPal i c) s = .next s)

/-- R150: a palette write while PHASE = IDLE stores one entry and marks it written; a read of it then
returns the colour; every other entry is as before. -/
def Obligations.PaletteWriteStoresOneEntry : Prop :=
  ∀ (s : State) (i : BitVec 8) (c : Colour), s.flags.phase = .idle →
    ∃ t, exec (.wrPal i c) s = .next t ∧ Mem.read t.pal i.toNat = some c ∧
      (∀ j, j ≠ i.toNat → Mem.read t.pal j = Mem.read s.pal j) ∧
      t = { s with pal := t.pal } ∧
      exec (.rd (BitVec.ofNat 10 (0x100 + i.toNat))) t =
        .next { t with rdata := BitVec.ofNat 32 c.toNat }

/-- R141 and R151: IDX_RADDR takes the written word in every phase. -/
def Obligations.IndexAddressWriteInAnyPhase : Prop :=
  ∀ (s : State) (a : Word), exec (.wrIdxRaddr a) s = .next { s with idxRaddr := a }

/-- R149: a DATA_IN write is dropped outside DECODING or after END_OF_DATA; pushed behind every
earlier byte while INQ has room; else held (`reg_ready = 0`). -/
def Obligations.DataInPushesDropsOrHolds : Prop :=
  ∀ (s : State) (b : Byte),
    (s.flags.phase ≠ .decoding ∨ s.flags.eod = true →
      exec (.wrDataIn b) s = .next { s with held := none }) ∧
    (s.flags.phase = .decoding → s.flags.eod = false → s.inq.length < s.params.inqDepth →
      exec (.wrDataIn b) s = .next { s with inq := s.inq ++ [b], held := none }) ∧
    (s.flags.phase = .decoding → s.flags.eod = false → s.params.inqDepth ≤ s.inq.length →
      exec (.wrDataIn b) s = .next { s with held := some b } ∧
      regReady { s with held := some b } = false)

/-- 10_state.md R32: a write of a reserved offset or of a read-only register is ignored and sets no
flag; a read of a reserved offset returns 0. -/
def Obligations.ReservedOffsetsReadZeroIgnoreWrites : Prop :=
  ∀ s : State,
    (∀ (a : RegAddr) (v : Word), writable a = false →
      decodeRequest { read := false, addr := a, wdata := v } = .wrReserved a v ∧
      exec (.wrReserved a v) s = .next s) ∧
    (∀ a : RegAddr, 0x050 / 4 ≤ a.toNat → a.toNat < 0x400 / 4 ∨ 0x800 / 4 ≤ a.toNat →
      exec (.rd a) s = .next { s with rdata := 0 })

/-! ### Register reads (R140) -/

/-- STATUS, R18, field by field as a number. -/
def Obligations.StatusReadHasTheFieldLayout : Prop :=
  ∀ s : State, ∃ v : Word, exec (.rd (regAt 0x004)) s = .next { s with rdata := v } ∧
    v.toNat =
      (match s.flags.phase with | .idle => 0 | .decoding => 1 | .rendering => 2) +
      4 * s.flags.decDone.toNat +
      8 * (match s.flags.decCause with
        | .none => 0 | .end_ => 1 | .count => 2 | .exhausted => 3 | .badCode => 4
        | .dictFull => 5) +
      64 * s.flags.renDone.toNat + 128 * s.flags.renSkip.toNat +
      256 * (match s.flags.errCode with
        | .none => 0 | .badPhase => 1 | .badMcs => 2 | .tooLarge => 3 | .noFrame => 4
        | .badChunk => 5 | .coordOvf => 6 | .badCmd => 7) +
      2048 * s.flags.eod.toNat

/-- The configuration registers, R19 to R25, and the write-only registers, which read as 0 (R17,
R26). -/
def Obligations.ConfigurationReadsReturnTheFields : Prop :=
  ∀ s : State, ∃ v : Nat → Word,
    (∀ k ∈ [0x000, 0x008, 0x00C, 0x010, 0x014, 0x018, 0x01C, 0x020, 0x024],
      exec (.rd (regAt k)) s = .next { s with rdata := v k }) ∧
    (v 0x000).toNat = 0 ∧ (v 0x008).toNat = s.cfg.mcs.toNat ∧
    (v 0x00C).toNat = s.cfg.frameX.toNat + 65536 * s.cfg.frameY.toNat ∧
    (v 0x010).toNat = s.cfg.w.toNat + 65536 * s.cfg.h.toNat ∧
    (v 0x014).toNat = s.cfg.interlace.toNat + 2 * s.cfg.transpEn.toNat +
      256 * s.cfg.transpIdx.toNat + 65536 * s.cfg.chunkH.toNat ∧
    (v 0x018).toNat = s.cfg.palSize.toNat ∧ (v 0x01C).toNat = s.cfg.bg.toNat ∧
    (v 0x020).toNat = s.cfg.destX.toNat + 65536 * s.cfg.destY.toNat ∧ (v 0x024).toNat = 0

/-- The views of the working registers, R27 to R30. -/
def Obligations.WorkingRegisterReads : Prop :=
  ∀ s : State, ∃ v : Nat → Word,
    (∀ k ∈ [0x028, 0x02C, 0x030, 0x034, 0x038, 0x03C, 0x040, 0x044, 0x048],
      exec (.rd (regAt k)) s = .next { s with rdata := v k }) ∧
    v 0x028 = s.frame.idxCount ∧ v 0x02C = s.frame.expected ∧
    (v 0x030).toNat = s.frame.decW.toNat + 65536 * s.frame.decH.toNat ∧
    (v 0x034).toNat = s.lzw.codeWidth.toNat + 16 * s.lzw.decMcs.toNat +
      256 * s.lzw.nextCode.toNat ∧
    (v 0x038).toNat = s.lzw.prevCode.toNat + 4096 * s.lzw.prevValid.toNat ∧
    (v 0x03C).toNat = s.br.bitCnt.toNat + 256 * s.br.bitBuf.toNat ∧
    v 0x040 = s.br.srcPos ∧ (v 0x044).toNat = s.frame.renRow.toNat ∧ v 0x048 = s.idxRaddr

/-- IDX_RDATA, R30: VALID and DATA of the byte at IDX_RADDR. -/
def Obligations.IndexWindowRead : Prop :=
  ∀ s : State,
    (∀ b, s.idxRaddr.toNat < s.frame.idxCount.toNat →
      Mem.read s.idxmem s.idxRaddr.toNat = some b →
      exec (.rd (regAt 0x04C)) s = .next { s with rdata := BitVec.ofNat 32 (256 + b.toNat) }) ∧
    (s.frame.idxCount.toNat ≤ s.idxRaddr.toNat →
      exec (.rd (regAt 0x04C)) s = .next { s with rdata := 0 })

/-- R150 with 20_memory.md R42: a host read of PAL[i] returns the entry, zero-extended, in every phase;
of an entry never written since hardware reset it is a fault of the model. -/
def Obligations.PaletteReadReturnsTheEntryOrFaults : Prop :=
  ∀ (s : State) (i : BitVec 8),
    (∀ c, Mem.read s.pal i.toNat = some c →
      exec (.rd (BitVec.ofNat 10 (0x100 + i.toNat))) s =
        .next { s with rdata := BitVec.ofNat 32 c.toNat }) ∧
    (Mem.read s.pal i.toNat = none →
      exec (.rd (BitVec.ofNat 10 (0x100 + i.toNat))) s = .fault (.palUnwritten i.toNat))

/-- A configuration word written while PHASE = IDLE reads back with its reserved bits 0 (10_state.md
R16). -/
def Obligations.WrittenConfigurationReadsBackMasked : Prop :=
  ∀ (s : State) (v : Word), s.flags.phase = .idle →
    ∀ p ∈ [(0x008, 0x0000000F#32), (0x00C, 0xFFFFFFFF#32), (0x010, 0xFFFFFFFF#32),
           (0x014, 0x00FFFF03#32), (0x018, 0x000001FF#32), (0x01C, 0x0000FFFF#32),
           (0x020, 0xFFFFFFFF#32)],
      ∃ t, exec (decodeRequest (writeAt p.1 v)) s = .next t ∧ t = { s with cfg := t.cfg } ∧
        exec (.rd (regAt p.1)) t = .next { t with rdata := v &&& p.2 }

/-! ### The Bit Reader (40_bit_reader.md) -/

/-- R81: the oldest byte of INQ lands above the bits held; BITCNT and SRC_POS count up; nothing else
changes. -/
def Obligations.FillTakesTheOldestByte : Prop :=
  ∀ (s : State) (b : Byte) (rest : List Byte), Inv s → s.flags.phase = .decoding →
    s.br.bitCnt.toNat < s.lzw.codeWidth.toNat → s.inq = b :: rest →
    ∃ t, exec .fill s = .next t ∧ t = { s with inq := rest, br := t.br } ∧
      t.br.bitBuf.toNat = s.br.bitBuf.toNat + b.toNat * 2 ^ s.br.bitCnt.toNat ∧
      t.br.bitCnt.toNat = s.br.bitCnt.toNat + 8 ∧ t.br.srcPos = s.br.srcPos + 1

/-- R83 with R170 of 60_exceptions.md: Stop(EXHAUSTED), and nothing else changes. -/
def Obligations.ExhaustStopsTheDecode : Prop :=
  ∀ s : State, s.flags.phase = .decoding → s.br.bitCnt.toNat < s.lzw.codeWidth.toNat →
    s.inq = [] → s.flags.eod = true →
    exec .exhaust s = .next { s with flags := StoppedFlags .exhausted s.flags }

/-- R87 against 30_encoding.md R61: read_bits returns the field of the stream that starts where the
last one ended, or EXHAUSTED when a needed byte is absent, and leaves the reader holding the
stream. -/
def Obligations.ReadBitsReturnsTheStreamField : Prop :=
  ∀ (data : List Byte) (k n : Nat) (r : BitReader), HoldsStream data k r → 1 ≤ n → n ≤ 12 →
    (readBits n (data.drop k) r).1 = streamCode data (8 * k - r.bitCnt.toNat) n ∧
    ∃ k', (readBits n (data.drop k) r).2.1 = data.drop k' ∧
      HoldsStream data k' (readBits n (data.drop k) r).2.2 ∧
      8 * k' - (readBits n (data.drop k) r).2.2.bitCnt.toNat =
        8 * k - r.bitCnt.toNat +
          (if (readBits n (data.drop k) r).1.isSome then n else 0)

/-! ### The LZW Decompressor (41_lzw_decompressor.md) -/

/-- R94 with R82 of 40_bit_reader.md: the CODE step takes the low CODE_WIDTH bits out of BITBUF and
runs the class the code has against the state. -/
def Obligations.CodeExtractsThenRunsItsClass : Prop :=
  ∀ s : State, Inv s → s.flags.phase = .decoding →
    s.lzw.codeWidth.toNat ≤ s.br.bitCnt.toNat →
    exec .code s =
      exec (decodeCode
          { decMcs := s.lzw.decMcs, codeWidth := s.lzw.codeWidth, nextCode := s.lzw.nextCode,
            prevValid := s.lzw.prevValid }
          (BitVec.ofNat 12 (s.br.bitBuf.toNat % 2 ^ s.lzw.codeWidth.toNat)))
        { s with br := { s.br with
            bitBuf := BitVec.ofNat 19 (s.br.bitBuf.toNat / 2 ^ s.lzw.codeWidth.toNat)
            bitCnt := BitVec.ofNat 5 (s.br.bitCnt.toNat - s.lzw.codeWidth.toNat) } }

/-- R94: an enabled CODE step always completes; afterwards the decode goes on or has stopped with one
of the four causes a CODE step raises (60_exceptions.md R166), and at least 3 bits are gone
(70_reset_and_hazards.md R199 item 3). -/
def Obligations.CodeAlwaysCompletes : Prop :=
  ∀ s : State, Inv s → s.flags.phase = .decoding →
    s.lzw.codeWidth.toNat ≤ s.br.bitCnt.toNat →
    ∃ t, exec .code s = .next t ∧ t.br.bitCnt.toNat + 3 ≤ s.br.bitCnt.toNat ∧
      (t.flags = s.flags ∨
        ∃ cause, (cause = .end_ ∨ cause = .count ∨ cause = .badCode ∨ cause = .dictFull) ∧
          t.flags = StoppedFlags cause s.flags)

/-- R95 with R92: the dictionary is back at its initial contents, nothing is emitted. -/
def Obligations.ClearResetsTheDictionary : Prop :=
  ∀ s : State, s.flags.phase = .decoding → LzwActive s.lzw →
    ∃ t, exec .clear s = .next t ∧ InitialDictionary t ∧ t.lzw.decMcs = s.lzw.decMcs ∧
      t = { s with dict := t.dict, lzw := t.lzw }

/-- R96: Stop(END), nothing emitted, dictionary and previous entry unchanged. -/
def Obligations.EndStopsNormally : Prop :=
  ∀ s : State, s.flags.phase = .decoding → LzwActive s.lzw →
    exec .endCode s = .next { s with flags := StoppedFlags .end_ s.flags }

/-- R99: any other code stops the decode with BAD_CODE and changes nothing else. -/
def Obligations.InvalidCodeStopsTheDecode : Prop :=
  ∀ (s : State) (c : Code), s.flags.phase = .decoding → LzwActive s.lzw →
    s.lzw.nextCode.toNat < c.toNat ∨ c.toNat = s.lzw.nextCode.toNat ∧ s.lzw.prevValid = false →
    exec (.invalid c) s = .next { s with flags := StoppedFlags .badCode s.flags }

/-- R97 with the common sub-steps R100 to R105: a KNOWN code emits its entry, appends, widens,
becomes the previous entry, and stops with DICT_FULL or COUNT where the rules say so. -/
def Obligations.KnownCodeEmitsAndAppends : Prop :=
  ∀ (s : State) (c : Code), Inv s → s.flags.phase = .decoding →
    c.toNat < s.lzw.nextCode.toNat → c.toNat ≠ 2 ^ s.lzw.decMcs.toNat →
    c.toNat ≠ 2 ^ s.lzw.decMcs.toNat + 1 →
    ∃ b bs t, Mem.read s.dict c.toNat = some (.str b bs) ∧ exec (.known c) s = .next t ∧
      (s.lzw.prevValid = false → DataCodeEffect b bs c b bs s t) ∧
      (s.lzw.prevValid = true → ∃ p ps,
        Mem.read s.dict s.lzw.prevCode.toNat = some (.str p ps) ∧ DataCodeEffect b bs c p ps s t)

/-- R98: a KWKWK code emits the previous entry and its own first byte, and what it appends at
NEXT_CODE is what it emitted. -/
def Obligations.KwkwkEmitsThePreviousEntryAndItsFirstByte : Prop :=
  ∀ s : State, Inv s → s.flags.phase = .decoding → s.lzw.prevValid = true →
    s.lzw.nextCode.toNat < 4096 →
    ∃ p ps t, Mem.read s.dict s.lzw.prevCode.toNat = some (.str p ps) ∧
      exec .kwkwk s = .next t ∧
      DataCodeEffect p (ps ++ [p]) (BitVec.ofNat 12 s.lzw.nextCode.toNat) p ps s t ∧
      Mem.read t.dict t.lzw.prevCode.toNat = some (.str p (ps ++ [p]))

/-! ### The Mapper (42_palette_mapper.md) -/

/-- R123: the closed form gives element `i` of the list of R122, for every height. -/
def Obligations.InterlaceClosedFormIsTheList : Prop :=
  ∀ h i : Nat, i < h → (ilaceList h)[i]? = some (ilace h i)

/-- R122: the interlace order is the four passes one after another, a permutation of the rows; for
height 8 it is 0,4,2,6,1,3,5,7. -/
def Obligations.InterlaceOrderIsFourPassesAndAPermutation : Prop :=
  (∀ h : Nat, ilaceList h =
    (List.range h).filter (fun r => r % 8 = 0) ++ (List.range h).filter (fun r => r % 8 = 4) ++
      (List.range h).filter (fun r => r % 4 = 2) ++ (List.range h).filter (fun r => r % 2 = 1)) ∧
  (∀ h : Nat, (ilaceList h).Perm (List.range h)) ∧ ilaceList 8 = [0, 4, 2, 6, 1, 3, 5, 7]

/-- R125, line by line. -/
def Obligations.ResolveFollowsItsFourLines : Prop :=
  ∀ (s : State) (p : Nat),
    (s.frame.idxCount.toNat ≤ p → resolve s p = .ok s.cfg.bg) ∧
    (∀ idx : Byte, p < s.frame.idxCount.toNat → Mem.read s.idxmem p = some idx →
      (s.cfg.transpEn = true → idx = s.cfg.transpIdx → resolve s p = .ok s.cfg.bg) ∧
      (¬(s.cfg.transpEn = true ∧ idx = s.cfg.transpIdx) → idx.toNat < s.cfg.palSize.toNat →
        ∀ c, Mem.read s.pal idx.toNat = some c → resolve s p = .ok c) ∧
      (s.cfg.palSize.toNat ≤ idx.toNat → resolve s p = .ok s.cfg.bg))

/-- R127 with R128 and R129: with the palette loaded a CHUNK step completes, appends one blit of whole
rows at the frame's absolute position, advances REN_ROW, and on the last chunk sets REN_DONE and
PHASE. -/
def Obligations.ChunkBlitsWholeRows : Prop :=
  ∀ s : State, Inv s → s.flags.phase = .rendering → PaletteLoaded s →
    ∃ t b, exec .chunk s = .next t ∧ t.sinkOut = s.sinkOut ++ [b] ∧
      b.x0.toNat = s.cfg.destX.toNat + s.cfg.frameX.toNat ∧
      b.y0.toNat = s.cfg.destY.toNat + s.cfg.frameY.toNat + s.frame.renRow.toNat ∧
      b.x1.toNat = b.x0.toNat + s.frame.decW.toNat - 1 ∧
      b.y1.toNat = b.y0.toNat +
        min s.cfg.chunkH.toNat (s.frame.decH.toNat - s.frame.renRow.toNat) - 1 ∧
      b.bytes.length = 2 * s.frame.decW.toNat *
        min s.cfg.chunkH.toNat (s.frame.decH.toNat - s.frame.renRow.toNat) ∧
      t.frame.renRow.toNat = s.frame.renRow.toNat +
        min s.cfg.chunkH.toNat (s.frame.decH.toNat - s.frame.renRow.toNat) ∧
      t.flags = (if t.frame.renRow = s.frame.decH then
          { s.flags with renDone := true, phase := .idle } else s.flags) ∧
      t = { s with flags := t.flags, frame := { s.frame with renRow := t.frame.renRow },
                   sinkOut := t.sinkOut, snkTaken := 0 }

/-- R127 with R124 to R126: where a CHUNK step completes, byte `2*(j*W+x)` of its blit is the high
byte and the next one the low byte of the colour at source row `src_row(REN_ROW + j)`, column `x`;
and byte `k` is the one the sink port offered as its `k`-th. -/
def Obligations.ChunkPayloadIsTheResolvedPixels : Prop :=
  ∀ s t : State, exec .chunk s = .next t →
    ∃ b, t.sinkOut = s.sinkOut ++ [b] ∧
      (∀ j x, j < min s.cfg.chunkH.toNat (s.frame.decH.toNat - s.frame.renRow.toNat) →
        x < s.frame.decW.toNat → ∃ c,
          resolve s ((if s.cfg.interlace then ilace s.frame.decH.toNat (s.frame.renRow.toNat + j)
                      else s.frame.renRow.toNat + j) * s.frame.decW.toNat + x) = .ok c ∧
          b.bytes[2 * (j * s.frame.decW.toNat + x)]? = some (BitVec.ofNat 8 (c.toNat / 256)) ∧
          b.bytes[2 * (j * s.frame.decW.toNat + x) + 1]? = some (BitVec.ofNat 8 c.toNat)) ∧
      (∀ k d, chunkByte s k = .ok d → k < chunkLen s → b.bytes[k]? = some d)

/-- 20_memory.md R42 for the Mapper: a CHUNK step of a reachable state either completes or faults on
an entry below PAL_SIZE that was never written. -/
def Obligations.ChunkFaultsOnlyOnAnUnwrittenEntry : Prop :=
  ∀ s : State, Inv s → s.flags.phase = .rendering →
    (∃ t, exec .chunk s = .next t) ∨
    (∃ i, exec .chunk s = .fault (.palUnwritten i) ∧ i < s.cfg.palSize.toNat ∧
      Mem.read s.pal i = none)

/-! ### The machine -/

/-- The host's turn runs the instruction its next request decodes to, with the request gone from the
queue (log 1); a SOFT_RESET written during a blit is complete with that turn, its effect to come
(10_state.md R37, 43_host_commands.md R144). -/
def Obligations.HostTurnRunsTheDecodedAccess : Prop :=
  ∀ (s : State) (r : PortReq) (rest : List PortReq) (q : List Turn),
    s.sched = .host :: q → s.held = none → s.resetPending = false → s.hostQ = r :: rest →
    step s = exec (decodeRequest r) { s with hostQ := rest, sched := q } ∧
    (decodeRequest r = .softReset → s.flags.phase = .rendering →
      s.frame.renRow.toNat < s.frame.decH.toNat → s.snkTaken ≠ 0 →
      step s = .next { s with hostQ := rest, sched := q, resetPending := true })

/-- A word placed where the next step fetches is decoded and run by that step; nothing waits at the
port before it. How a request is written as bits is the model's choice (logs 1 and 10). -/
def Obligations.PlacedWordRunsNext : Prop :=
  ∀ (s : State) (nbits w : Nat) (i : Instr), decodeTableWord nbits w = some i →
    step (s.withFetchWord nbits w) = exec i { s with held := none, resetPending := false }

/-- 30_encoding.md R75, 40_bit_reader.md R84 and 42_palette_mapper.md R127: with nothing waiting at the
port the engine's turn runs the one step the state selects. That there are turns, and that one with
no enabled step is used up and changes nothing, is the model's choice (log 2). -/
def Obligations.EngineTurnRunsTheSelectedStep : Prop :=
  ∀ (s : State) (q : List Turn), s.sched = .engine :: q → s.held = none → s.resetPending = false →
    (s.flags.phase = .idle → step s = .next { s with sched := q }) ∧
    (s.flags.phase = .decoding → s.br.bitCnt.toNat < s.lzw.codeWidth.toNat → s.inq ≠ [] →
      step s = exec .fill { s with sched := q }) ∧
    (s.flags.phase = .decoding → s.br.bitCnt.toNat < s.lzw.codeWidth.toNat → s.inq = [] →
      s.flags.eod = true → step s = exec .exhaust { s with sched := q }) ∧
    (s.flags.phase = .decoding → s.br.bitCnt.toNat < s.lzw.codeWidth.toNat → s.inq = [] →
      s.flags.eod = false → step s = .next { s with sched := q }) ∧
    (s.flags.phase = .decoding → s.lzw.codeWidth.toNat ≤ s.br.bitCnt.toNat →
      step s = exec .code { s with sched := q }) ∧
    (s.flags.phase = .rendering → s.frame.renRow.toNat < s.frame.decH.toNat →
      step s = exec .chunk { s with sched := q })

/-- 43_host_commands.md R149: while a DATA_IN write is held the engine has a FILL or CODE step to
take, the host's turn makes no other access, and after the engine step the write is offered again:
pushed if there is room, dropped if the decode has stopped, else still held. That this is part of
the engine's turn is how the model reads the rule (log 17). -/
def Obligations.HeldWriteKeepsThePort : Prop :=
  ∀ (s : State) (b : Byte) (q : List Turn), Inv s → s.held = some b →
    (engineSelect s = some .fill ∨ engineSelect s = some .code) ∧ regReady s = false ∧
    (s.sched = .host :: q → step s = .next { s with sched := q }) ∧
    (s.sched = .engine :: q → ∃ i u t, engineSelect s = some i ∧
      exec i { s with sched := q } = .next u ∧ exec (.wrDataIn b) u = .next t ∧ step s = .next t)

/-- 43_host_commands.md R144 with 10_state.md R37 and 20_memory.md R51: a SOFT_RESET written during a
blit takes effect in the turn in which the blit's last byte is taken, so the sink sees the whole
blit and the engine starts no other; a byte before the last leaves it waiting; the host's next
access sees the reset state, the blit finished first. That no other blit comes between, and that an
access does not come before, is the model's choice (log 8). -/
def Obligations.SoftResetWaitsForTheLastByte : Prop :=
  ∀ (s : State) (q : List Turn), Inv s → PaletteLoaded s → s.resetPending = true →
    (s.sched = .sink :: q → s.snkTaken + 1 < chunkLen s →
      step s = .next { s with sched := q, snkTaken := s.snkTaken + 1 }) ∧
    ∃ b u t, chunkBlit s = .ok b ∧ exec .chunk { s with sched := q } = .next u ∧
      exec .softReset u = .next t ∧ t.sinkOut = s.sinkOut ++ [b] ∧ t.flags = State.reset.flags ∧
      t.resetPending = false ∧
      (s.sched = .sink :: q → s.snkTaken + 1 = chunkLen s → step s = .next t) ∧
      (s.sched = .engine :: q → step s = .next t) ∧
      (∀ r rest, s.sched = .host :: q → s.hostQ = r :: rest →
        step s = exec (decodeRequest r) { t with hostQ := rest })

/-- 42_palette_mapper.md R127 on the port (10_state.md R37, 30_encoding.md R72): the byte offered is
byte `snkTaken` of the chunk, marked first and last; a sink's turn takes it, and taking the last one
completes the CHUNK step. How the transfer is counted is the model's choice (log 7). -/
def Obligations.SinkTakesOneByteATurn : Prop :=
  ∀ (s : State) (q : List Turn), Inv s → s.flags.phase = .rendering → PaletteLoaded s →
    s.sched = .sink :: q →
    (∃ beat, snkOffer s = .ok (some beat) ∧ chunkByte s s.snkTaken = .ok beat.data ∧
      (beat.sob = true ↔ s.snkTaken = 0) ∧ (beat.eob = true ↔ s.snkTaken + 1 = chunkLen s)) ∧
    (s.snkTaken + 1 < chunkLen s →
      step s = .next { s with sched := q, snkTaken := s.snkTaken + 1 }) ∧
    (s.snkTaken + 1 = chunkLen s → s.resetPending = false →
      step s = exec .chunk { s with sched := q })

/-- 43_host_commands.md R152: PHASE changes only by the events of the table. -/
def Obligations.PhaseChangesOnlyByTheTable : Prop :=
  ∀ (i : Instr) (s t : State), exec i s = .next t → t.flags.phase ≠ s.flags.phase →
    (i = .startDecode ∧ s.flags.phase = .idle ∧ t.flags.phase = .decoding) ∨
    (i = .startRender ∧ s.flags.phase = .idle ∧ t.flags.phase = .rendering ∧
      1 ≤ s.cfg.palSize.toNat ∧ 1 ≤ s.frame.decW.toNat ∧ 1 ≤ s.frame.decH.toNat) ∨
    ((i = .exhaust ∨ i = .code ∨ i.format = .code) ∧ s.flags.phase = .decoding ∧
      t.flags.phase = .idle ∧ t.flags.decDone = true ∧ t.flags.decCause ≠ .none) ∨
    (i = .chunk ∧ s.flags.phase = .rendering ∧ t.flags.phase = .idle ∧
      t.frame.renRow = t.frame.decH ∧ t.flags.renDone = true) ∨
    (i = .softReset ∧ t.flags.phase = .idle)

/-- 20_memory.md R51 item 4 and 70_reset_and_hazards.md R190: while the engine runs no instruction
but SOFT_RESET changes a configuration register, and none changes PAL. -/
def Obligations.BusyBlockKeepsItsConfiguration : Prop :=
  ∀ (i : Instr) (s t : State), exec i s = .next t → s.flags.phase ≠ .idle →
    (i ≠ .softReset → t.cfg = s.cfg) ∧ (∀ a, Mem.read t.pal a = Mem.read s.pal a)

/-- 20_memory.md R51 item 4: while a render runs, no host access but SOFT_RESET changes the blit on
offer or a byte of it. -/
def Obligations.HostCannotChangeTheBlitOnOffer : Prop :=
  ∀ (s t : State) (r : PortReq), s.flags.phase = .rendering → decodeRequest r ≠ .softReset →
    exec (decodeRequest r) s = .next t →
    chunkBlit t = chunkBlit s ∧ (∀ k, chunkByte t k = chunkByte s k) ∧ t.snkTaken = s.snkTaken

/-- 10_state.md R11 and R34: each working register and each memory is written only by the
instructions the tables name. -/
def Obligations.OnlyTheNamedInstructionsWrite : Prop :=
  ∀ (i : Instr) (s t : State), exec i s = .next t →
    (t.br ≠ s.br → i = .fill ∨ i = .code ∨ i = .startDecode ∨ i = .softReset) ∧
    (t.lzw ≠ s.lzw → i = .clear ∨ (∃ c, i = .known c) ∨ i = .kwkwk ∨ i = .code ∨
      i = .startDecode ∨ i = .softReset) ∧
    (t.frame.idxCount ≠ s.frame.idxCount → (∃ c, i = .known c) ∨ i = .kwkwk ∨ i = .code ∨
      i = .startDecode ∨ i = .softReset) ∧
    (t.frame.expected ≠ s.frame.expected ∨ t.frame.decW ≠ s.frame.decW ∨
      t.frame.decH ≠ s.frame.decH → i = .startDecode ∨ i = .softReset) ∧
    (t.frame.renRow ≠ s.frame.renRow → i = .chunk ∨ i = .startDecode ∨ i = .startRender ∨
      i = .softReset) ∧
    (t.flags.eod ≠ s.flags.eod → i = .endOfData ∨ i = .startDecode ∨ i = .softReset) ∧
    (t.idxRaddr ≠ s.idxRaddr → (∃ a, i = .wrIdxRaddr a) ∨ i = .softReset) ∧
    (t.inq ≠ s.inq → i = .fill ∨ (∃ b, i = .wrDataIn b) ∨ i = .startDecode ∨ i = .softReset) ∧
    ((∃ c, Mem.read t.dict c ≠ Mem.read s.dict c) → i = .clear ∨ (∃ c, i = .known c) ∨
      i = .kwkwk ∨ i = .code ∨ i = .startDecode) ∧
    ((∃ a, Mem.read t.idxmem a ≠ Mem.read s.idxmem a) → (∃ c, i = .known c) ∨ i = .kwkwk ∨
      i = .code) ∧
    ((∃ a, Mem.read t.pal a ≠ Mem.read s.pal a) → ∃ j c, i = .wrPal j c) ∧
    (t.sinkOut ≠ s.sinkOut → i = .chunk)

/-- 43_host_commands.md R142 with 60_exceptions.md R173: an instruction that changes ERR_CODE is a
command other than NOP; it sets it to 0, or it is refused and changes nothing else. -/
def Obligations.ErrCodeIsOfTheLastCommand : Prop :=
  ∀ (i : Instr) (s t : State), exec i s = .next t → t.flags.errCode ≠ s.flags.errCode →
    i.format = .cmd ∧ i ≠ .nop ∧
    (t.flags.errCode = .none ∨
      t = { s with flags := { s.flags with errCode := t.flags.errCode } })

/-- 20_memory.md R51 and R52, one square of the schedule independence: a byte that INQ has room for
may be pushed before or after an engine step that does not stop the decode; the state is the
same. -/
def Obligations.PushCommutesWithTheEngine : Prop :=
  ∀ (s t : State) (b : Byte) (i : Instr), s.flags.phase = .decoding → s.flags.eod = false →
    s.inq.length < s.params.inqDepth → engineSelect s = some i → exec i s = .next t →
    t.flags.phase = .decoding →
    ∃ s' t', exec (.wrDataIn b) s = .next s' ∧ engineSelect s' = some i ∧
      exec i s' = .next t' ∧ exec (.wrDataIn b) t = .next t'

/-- The reset state meets the invariant. -/
def Obligations.ResetMeetsTheInvariant : Prop := Inv State.reset

/-- Every step keeps the invariant, whoever moves: 40_bit_reader.md R85, R86;
41_lzw_decompressor.md R93; 20_memory.md R41, R50; 42_palette_mapper.md R127; 30_encoding.md R72. -/
def Obligations.StepKeepsTheInvariant : Prop :=
  ∀ s t : State, Inv s → step s = .next t → Inv t

/-- 20_memory.md R50 and R42: from a state that meets the invariant, a step never reads a value that
is not there and never leaves a memory; the only fault is an unwritten PAL entry; nothing is
refused. -/
def Obligations.StepStopsOnlyOnAnUnwrittenPaletteEntry : Prop :=
  ∀ s : State, Inv s → SafeAnswer (step s)

/-- 41_lzw_decompressor.md R107 with 20_memory.md R52: after an accepted START_DECODE, the host
pushing the bytes `data` and then END_OF_DATA, whatever the interleaving of host, engine and sink
(any schedule without a hardware reset) and whatever INQ_DEPTH: once the decode has stopped, the
indices and the cause are those of the function lzw_decode. -/
def Obligations.EveryScheduleDecodesLikeTheFunction : Prop :=
  ∀ (s₀ s₁ t : State) (data : List Byte) (sched : List Turn) (k : Nat),
    Inv s₀ → exec .startDecode s₀ = .next s₁ → s₁.flags.phase = .decoding →
    s₀.flags.phase = .idle → Turn.reset ∉ sched →
    Host.Core.run Sys2Proof.core k { s₁ with hostQ := pushStream data, sched := sched } = .next t →
    t.flags.phase = .idle →
    indices t =
      (lzwDecode s₀.cfg.mcs.toNat data (s₀.cfg.w.toNat * s₀.cfg.h.toNat)).1.map some ∧
    t.flags.decCause =
      (lzwDecode s₀.cfg.mcs.toNat data (s₀.cfg.w.toNat * s₀.cfg.h.toNat)).2

/-- 70_reset_and_hazards.md R199 item 3: with END_OF_DATA sent and the engine moving, a decode stops
after finitely many steps. That the engine moves where the schedule lists nothing (`s.sched = []`) is
the model's choice (log 2). -/
def Obligations.DecodeWithItsEndStops : Prop :=
  ∀ s : State, Inv s → s.flags.phase = .decoding → s.flags.eod = true → s.sched = [] →
    ∃ k t, k ≤ 9 * s.inq.length + s.br.bitCnt.toNat + 1 ∧
      Host.Core.run Sys2Proof.core k s = .next t ∧ t.flags.phase = .idle ∧
      t.flags.decDone = true

/-- 42_palette_mapper.md R129 to R132 and 20_memory.md R52: for an accepted START_RENDER with the
palette loaded, whatever the interleaving of engine and sink, once the block is IDLE again REN_DONE
is 1 and the sink has had exactly the blits of the function render; there are ceil(DEC_H / CHUNK_H)
of them, none for a skip or a zero area; their payloads joined in order are the pixels of the image
in row-major order, whatever CHUNK_H is. The last clause says that a run gets there in as many CHUNK
steps (R199 item 4); that the engine moves where the schedule lists nothing (`sched := []`) is the
model's choice (log 2). -/
def Obligations.RenderOutputsTheWholeImage : Prop :=
  ∀ s s₁ : State, Inv s → PaletteLoaded s → exec .startRender s = .next s₁ →
    s₁.flags.errCode = .none →
    ∃ blits, render s = .ok blits ∧
      blits.length = (if s.cfg.palSize = 0 ∨ s.frame.decW = 0 then 0
        else (s.frame.decH.toNat + s.cfg.chunkH.toNat - 1) / s.cfg.chunkH.toNat) ∧
      (s.cfg.palSize ≠ 0 → imageBytes s = .ok (blits.flatMap Blit.bytes)) ∧
      (∀ (sched : List Turn) (k : Nat) (t : State), Turn.reset ∉ sched →
        Host.Core.run Sys2Proof.core k { s₁ with hostQ := [], sched := sched } = .next t →
        t.flags.phase = .idle → t.flags.renDone = true ∧ t.sinkOut = s.sinkOut ++ blits) ∧
      (∃ t, Host.Core.run Sys2Proof.core blits.length { s₁ with sched := [] } = .next t ∧
        t.flags.phase = .idle)
end

