-- ==== Sys2Proof/Laws/State.lean ====
section
/-! SUPPORT. Laws/State.lean: what each named update of the state does to each field, so that no
proof unfolds a record update. -/

namespace Sys2Proof.Machine

/-! ### Stop (60_exceptions.md R170) -/

@[simp] theorem stop_params (c : Cause) (s : State) : (stop c s).params = s.params := rfl
@[simp] theorem stop_flags (c : Cause) (s : State) :
    (stop c s).flags = { s.flags with decCause := c, decDone := true, phase := .idle } := rfl
@[simp] theorem stop_cfg (c : Cause) (s : State) : (stop c s).cfg = s.cfg := rfl
@[simp] theorem stop_br (c : Cause) (s : State) : (stop c s).br = s.br := rfl
@[simp] theorem stop_lzw (c : Cause) (s : State) : (stop c s).lzw = s.lzw := rfl
@[simp] theorem stop_frame (c : Cause) (s : State) : (stop c s).frame = s.frame := rfl
@[simp] theorem stop_idxRaddr (c : Cause) (s : State) : (stop c s).idxRaddr = s.idxRaddr := rfl
@[simp] theorem stop_inq (c : Cause) (s : State) : (stop c s).inq = s.inq := rfl
@[simp] theorem stop_dict (c : Cause) (s : State) : (stop c s).dict = s.dict := rfl
@[simp] theorem stop_idxmem (c : Cause) (s : State) : (stop c s).idxmem = s.idxmem := rfl
@[simp] theorem stop_pal (c : Cause) (s : State) : (stop c s).pal = s.pal := rfl
@[simp] theorem stop_held (c : Cause) (s : State) : (stop c s).held = s.held := rfl
@[simp] theorem stop_rdata (c : Cause) (s : State) : (stop c s).rdata = s.rdata := rfl
@[simp] theorem stop_resetPending (c : Cause) (s : State) :
    (stop c s).resetPending = s.resetPending := rfl
@[simp] theorem stop_snkTaken (c : Cause) (s : State) : (stop c s).snkTaken = s.snkTaken := rfl
@[simp] theorem stop_sinkOut (c : Cause) (s : State) : (stop c s).sinkOut = s.sinkOut := rfl
@[simp] theorem stop_hostQ (c : Cause) (s : State) : (stop c s).hostQ = s.hostQ := rfl
@[simp] theorem stop_sched (c : Cause) (s : State) : (stop c s).sched = s.sched := rfl
@[simp] theorem stop_codeCtx (c : Cause) (s : State) : (stop c s).codeCtx = s.codeCtx := rfl

/-! ### Refuse (R173) -/

@[simp] theorem refuse_params (e : Err) (s : State) : (refuse e s).params = s.params := rfl
@[simp] theorem refuse_flags (e : Err) (s : State) :
    (refuse e s).flags = { s.flags with errCode := e } := rfl
@[simp] theorem refuse_cfg (e : Err) (s : State) : (refuse e s).cfg = s.cfg := rfl
@[simp] theorem refuse_br (e : Err) (s : State) : (refuse e s).br = s.br := rfl
@[simp] theorem refuse_lzw (e : Err) (s : State) : (refuse e s).lzw = s.lzw := rfl
@[simp] theorem refuse_frame (e : Err) (s : State) : (refuse e s).frame = s.frame := rfl
@[simp] theorem refuse_idxRaddr (e : Err) (s : State) : (refuse e s).idxRaddr = s.idxRaddr := rfl
@[simp] theorem refuse_inq (e : Err) (s : State) : (refuse e s).inq = s.inq := rfl
@[simp] theorem refuse_dict (e : Err) (s : State) : (refuse e s).dict = s.dict := rfl
@[simp] theorem refuse_idxmem (e : Err) (s : State) : (refuse e s).idxmem = s.idxmem := rfl
@[simp] theorem refuse_pal (e : Err) (s : State) : (refuse e s).pal = s.pal := rfl
@[simp] theorem refuse_held (e : Err) (s : State) : (refuse e s).held = s.held := rfl
@[simp] theorem refuse_rdata (e : Err) (s : State) : (refuse e s).rdata = s.rdata := rfl
@[simp] theorem refuse_resetPending (e : Err) (s : State) :
    (refuse e s).resetPending = s.resetPending := rfl
@[simp] theorem refuse_snkTaken (e : Err) (s : State) : (refuse e s).snkTaken = s.snkTaken := rfl
@[simp] theorem refuse_sinkOut (e : Err) (s : State) : (refuse e s).sinkOut = s.sinkOut := rfl
@[simp] theorem refuse_hostQ (e : Err) (s : State) : (refuse e s).hostQ = s.hostQ := rfl
@[simp] theorem refuse_sched (e : Err) (s : State) : (refuse e s).sched = s.sched := rfl
@[simp] theorem refuse_codeCtx (e : Err) (s : State) : (refuse e s).codeCtx = s.codeCtx := rfl

/-! ### SOFT_RESET (43_host_commands.md R144) -/

@[simp] theorem softReset_params (s : State) : (softReset s).params = s.params := rfl
@[simp] theorem softReset_flags (s : State) :
    (softReset s).flags = Flags.reset := rfl
@[simp] theorem softReset_cfg (s : State) :
    (softReset s).cfg = Cfg.reset := rfl
@[simp] theorem softReset_br (s : State) :
    (softReset s).br = BitReader.reset := rfl
@[simp] theorem softReset_lzw (s : State) :
    (softReset s).lzw = Lzw.reset := rfl
@[simp] theorem softReset_frame (s : State) :
    (softReset s).frame = Frame.reset := rfl
@[simp] theorem softReset_idxRaddr (s : State) :
    (softReset s).idxRaddr = 0 := rfl
@[simp] theorem softReset_inq (s : State) :
    (softReset s).inq = [] := rfl
@[simp] theorem softReset_dict (s : State) : (softReset s).dict = s.dict := rfl
@[simp] theorem softReset_idxmem (s : State) : (softReset s).idxmem = s.idxmem := rfl
@[simp] theorem softReset_pal (s : State) : (softReset s).pal = s.pal := rfl
@[simp] theorem softReset_held (s : State) : (softReset s).held = s.held := rfl
@[simp] theorem softReset_rdata (s : State) : (softReset s).rdata = s.rdata := rfl
@[simp] theorem softReset_resetPending (s : State) :
    (softReset s).resetPending = false := rfl
@[simp] theorem softReset_snkTaken (s : State) :
    (softReset s).snkTaken = 0 := rfl
@[simp] theorem softReset_sinkOut (s : State) : (softReset s).sinkOut = s.sinkOut := rfl
@[simp] theorem softReset_hostQ (s : State) : (softReset s).hostQ = s.hostQ := rfl
@[simp] theorem softReset_sched (s : State) : (softReset s).sched = s.sched := rfl

/-! ### hardware reset (70_reset_and_hazards.md R185) -/

@[simp] theorem hardwareReset_params (s : State) : (hardwareReset s).params = s.params := rfl
@[simp] theorem hardwareReset_flags (s : State) :
    (hardwareReset s).flags = Flags.reset := rfl
@[simp] theorem hardwareReset_cfg (s : State) :
    (hardwareReset s).cfg = Cfg.reset := rfl
@[simp] theorem hardwareReset_br (s : State) :
    (hardwareReset s).br = BitReader.reset := rfl
@[simp] theorem hardwareReset_lzw (s : State) :
    (hardwareReset s).lzw = Lzw.reset := rfl
@[simp] theorem hardwareReset_frame (s : State) :
    (hardwareReset s).frame = Frame.reset := rfl
@[simp] theorem hardwareReset_idxRaddr (s : State) :
    (hardwareReset s).idxRaddr = 0 := rfl
@[simp] theorem hardwareReset_inq (s : State) :
    (hardwareReset s).inq = [] := rfl
@[simp] theorem hardwareReset_dict (s : State) :
    (hardwareReset s).dict = [] := rfl
@[simp] theorem hardwareReset_idxmem (s : State) :
    (hardwareReset s).idxmem = [] := rfl
@[simp] theorem hardwareReset_pal (s : State) :
    (hardwareReset s).pal = [] := rfl
@[simp] theorem hardwareReset_held (s : State) :
    (hardwareReset s).held = none := rfl
@[simp] theorem hardwareReset_rdata (s : State) :
    (hardwareReset s).rdata = 0 := rfl
@[simp] theorem hardwareReset_resetPending (s : State) :
    (hardwareReset s).resetPending = false := rfl
@[simp] theorem hardwareReset_snkTaken (s : State) :
    (hardwareReset s).snkTaken = 0 := rfl
@[simp] theorem hardwareReset_sinkOut (s : State) : (hardwareReset s).sinkOut = s.sinkOut := rfl
@[simp] theorem hardwareReset_hostQ (s : State) : (hardwareReset s).hostQ = s.hostQ := rfl
@[simp] theorem hardwareReset_sched (s : State) : (hardwareReset s).sched = s.sched := rfl

/-! ### DictReset (41_lzw_decompressor.md R92) -/

@[simp] theorem dictReset_params (s : State) : (dictReset s).params = s.params := rfl
@[simp] theorem dictReset_flags (s : State) : (dictReset s).flags = s.flags := rfl
@[simp] theorem dictReset_cfg (s : State) : (dictReset s).cfg = s.cfg := rfl
@[simp] theorem dictReset_br (s : State) : (dictReset s).br = s.br := rfl
@[simp] theorem dictReset_lzw (s : State) :
    (dictReset s).lzw =
      { decMcs := s.lzw.decMcs, codeWidth := s.lzw.decMcs + 1,
        nextCode := BitVec.ofNat 13 (2 ^ s.lzw.decMcs.toNat + 2), prevValid := false, prevCode := 0 } := rfl
@[simp] theorem dictReset_frame (s : State) : (dictReset s).frame = s.frame := rfl
@[simp] theorem dictReset_idxRaddr (s : State) : (dictReset s).idxRaddr = s.idxRaddr := rfl
@[simp] theorem dictReset_inq (s : State) : (dictReset s).inq = s.inq := rfl
@[simp] theorem dictReset_dict (s : State) :
    (dictReset s).dict = initDict s.lzw.decMcs.toNat := rfl
@[simp] theorem dictReset_idxmem (s : State) : (dictReset s).idxmem = s.idxmem := rfl
@[simp] theorem dictReset_pal (s : State) : (dictReset s).pal = s.pal := rfl
@[simp] theorem dictReset_held (s : State) : (dictReset s).held = s.held := rfl
@[simp] theorem dictReset_rdata (s : State) : (dictReset s).rdata = s.rdata := rfl
@[simp] theorem dictReset_resetPending (s : State) :
    (dictReset s).resetPending = s.resetPending := rfl
@[simp] theorem dictReset_snkTaken (s : State) : (dictReset s).snkTaken = s.snkTaken := rfl
@[simp] theorem dictReset_sinkOut (s : State) : (dictReset s).sinkOut = s.sinkOut := rfl
@[simp] theorem dictReset_hostQ (s : State) : (dictReset s).hostQ = s.hostQ := rfl
@[simp] theorem dictReset_sched (s : State) : (dictReset s).sched = s.sched := rfl

/-! ### the previous-entry update (R104) -/

@[simp] theorem setPrev_params (c : Code) (s : State) : (setPrev c s).params = s.params := rfl
@[simp] theorem setPrev_flags (c : Code) (s : State) : (setPrev c s).flags = s.flags := rfl
@[simp] theorem setPrev_cfg (c : Code) (s : State) : (setPrev c s).cfg = s.cfg := rfl
@[simp] theorem setPrev_br (c : Code) (s : State) : (setPrev c s).br = s.br := rfl
@[simp] theorem setPrev_lzw (c : Code) (s : State) :
    (setPrev c s).lzw = { s.lzw with prevValid := true, prevCode := c } := rfl
@[simp] theorem setPrev_frame (c : Code) (s : State) : (setPrev c s).frame = s.frame := rfl
@[simp] theorem setPrev_idxRaddr (c : Code) (s : State) : (setPrev c s).idxRaddr = s.idxRaddr := rfl
@[simp] theorem setPrev_inq (c : Code) (s : State) : (setPrev c s).inq = s.inq := rfl
@[simp] theorem setPrev_dict (c : Code) (s : State) : (setPrev c s).dict = s.dict := rfl
@[simp] theorem setPrev_idxmem (c : Code) (s : State) : (setPrev c s).idxmem = s.idxmem := rfl
@[simp] theorem setPrev_pal (c : Code) (s : State) : (setPrev c s).pal = s.pal := rfl
@[simp] theorem setPrev_held (c : Code) (s : State) : (setPrev c s).held = s.held := rfl
@[simp] theorem setPrev_rdata (c : Code) (s : State) : (setPrev c s).rdata = s.rdata := rfl
@[simp] theorem setPrev_resetPending (c : Code) (s : State) :
    (setPrev c s).resetPending = s.resetPending := rfl
@[simp] theorem setPrev_snkTaken (c : Code) (s : State) : (setPrev c s).snkTaken = s.snkTaken := rfl
@[simp] theorem setPrev_sinkOut (c : Code) (s : State) : (setPrev c s).sinkOut = s.sinkOut := rfl
@[simp] theorem setPrev_hostQ (c : Code) (s : State) : (setPrev c s).hostQ = s.hostQ := rfl
@[simp] theorem setPrev_sched (c : Code) (s : State) : (setPrev c s).sched = s.sched := rfl

/-! ### EXTRACT (40_bit_reader.md R82) -/

@[simp] theorem extract_params (s : State) : (extract s).params = s.params := rfl
@[simp] theorem extract_flags (s : State) : (extract s).flags = s.flags := rfl
@[simp] theorem extract_cfg (s : State) : (extract s).cfg = s.cfg := rfl
@[simp] theorem extract_lzw (s : State) : (extract s).lzw = s.lzw := rfl
@[simp] theorem extract_frame (s : State) : (extract s).frame = s.frame := rfl
@[simp] theorem extract_idxRaddr (s : State) : (extract s).idxRaddr = s.idxRaddr := rfl
@[simp] theorem extract_inq (s : State) : (extract s).inq = s.inq := rfl
@[simp] theorem extract_dict (s : State) : (extract s).dict = s.dict := rfl
@[simp] theorem extract_idxmem (s : State) : (extract s).idxmem = s.idxmem := rfl
@[simp] theorem extract_pal (s : State) : (extract s).pal = s.pal := rfl
@[simp] theorem extract_held (s : State) : (extract s).held = s.held := rfl
@[simp] theorem extract_rdata (s : State) : (extract s).rdata = s.rdata := rfl
@[simp] theorem extract_resetPending (s : State) : (extract s).resetPending = s.resetPending := rfl
@[simp] theorem extract_snkTaken (s : State) : (extract s).snkTaken = s.snkTaken := rfl
@[simp] theorem extract_sinkOut (s : State) : (extract s).sinkOut = s.sinkOut := rfl
@[simp] theorem extract_hostQ (s : State) : (extract s).hostQ = s.hostQ := rfl
@[simp] theorem extract_sched (s : State) : (extract s).sched = s.sched := rfl
@[simp] theorem extract_codeCtx (s : State) : (extract s).codeCtx = s.codeCtx := rfl

/-! ### the end of a CHUNK step (42_palette_mapper.md R127) -/

@[simp] theorem chunkDone_params (b : Blit) (s : State) : (chunkDone b s).params = s.params := rfl
@[simp] theorem chunkDone_cfg (b : Blit) (s : State) : (chunkDone b s).cfg = s.cfg := rfl
@[simp] theorem chunkDone_br (b : Blit) (s : State) : (chunkDone b s).br = s.br := rfl
@[simp] theorem chunkDone_lzw (b : Blit) (s : State) : (chunkDone b s).lzw = s.lzw := rfl
@[simp] theorem chunkDone_idxRaddr (b : Blit) (s : State) : (chunkDone b s).idxRaddr = s.idxRaddr := rfl
@[simp] theorem chunkDone_inq (b : Blit) (s : State) : (chunkDone b s).inq = s.inq := rfl
@[simp] theorem chunkDone_dict (b : Blit) (s : State) : (chunkDone b s).dict = s.dict := rfl
@[simp] theorem chunkDone_idxmem (b : Blit) (s : State) : (chunkDone b s).idxmem = s.idxmem := rfl
@[simp] theorem chunkDone_pal (b : Blit) (s : State) : (chunkDone b s).pal = s.pal := rfl
@[simp] theorem chunkDone_held (b : Blit) (s : State) : (chunkDone b s).held = s.held := rfl
@[simp] theorem chunkDone_rdata (b : Blit) (s : State) : (chunkDone b s).rdata = s.rdata := rfl
@[simp] theorem chunkDone_resetPending (b : Blit) (s : State) :
    (chunkDone b s).resetPending = s.resetPending := rfl
@[simp] theorem chunkDone_snkTaken (b : Blit) (s : State) :
    (chunkDone b s).snkTaken = 0 := rfl
@[simp] theorem chunkDone_sinkOut (b : Blit) (s : State) :
    (chunkDone b s).sinkOut = s.sinkOut ++ [b] := rfl
@[simp] theorem chunkDone_hostQ (b : Blit) (s : State) : (chunkDone b s).hostQ = s.hostQ := rfl
@[simp] theorem chunkDone_sched (b : Blit) (s : State) : (chunkDone b s).sched = s.sched := rfl
@[simp] theorem chunkDone_codeCtx (b : Blit) (s : State) : (chunkDone b s).codeCtx = s.codeCtx := rfl

/-! ### an accepted START_DECODE (43_host_commands.md R145) -/

@[simp] theorem startDecode_params (s : State) : (startDecode s).params = s.params := rfl
@[simp] theorem startDecode_flags (s : State) :
    (startDecode s).flags =
      { phase := .decoding, decDone := false, decCause := .none, renDone := false,
        renSkip := false, errCode := .none, eod := false } := rfl
@[simp] theorem startDecode_cfg (s : State) : (startDecode s).cfg = s.cfg := rfl
@[simp] theorem startDecode_br (s : State) :
    (startDecode s).br = BitReader.reset := rfl
@[simp] theorem startDecode_lzw (s : State) :
    (startDecode s).lzw =
      { decMcs := s.cfg.mcs, codeWidth := s.cfg.mcs + 1,
        nextCode := BitVec.ofNat 13 (2 ^ s.cfg.mcs.toNat + 2), prevValid := false, prevCode := 0 } := rfl
@[simp] theorem startDecode_frame (s : State) :
    (startDecode s).frame =
      { idxCount := 0, expected := BitVec.ofNat 32 (s.cfg.w.toNat * s.cfg.h.toNat),
        decW := s.cfg.w, decH := s.cfg.h, renRow := 0 } := rfl
@[simp] theorem startDecode_idxRaddr (s : State) : (startDecode s).idxRaddr = s.idxRaddr := rfl
@[simp] theorem startDecode_inq (s : State) :
    (startDecode s).inq = [] := rfl
@[simp] theorem startDecode_dict (s : State) :
    (startDecode s).dict = initDict s.cfg.mcs.toNat := rfl
@[simp] theorem startDecode_idxmem (s : State) : (startDecode s).idxmem = s.idxmem := rfl
@[simp] theorem startDecode_pal (s : State) : (startDecode s).pal = s.pal := rfl
@[simp] theorem startDecode_held (s : State) : (startDecode s).held = s.held := rfl
@[simp] theorem startDecode_rdata (s : State) : (startDecode s).rdata = s.rdata := rfl
@[simp] theorem startDecode_resetPending (s : State) :
    (startDecode s).resetPending = s.resetPending := rfl
@[simp] theorem startDecode_snkTaken (s : State) : (startDecode s).snkTaken = s.snkTaken := rfl
@[simp] theorem startDecode_sinkOut (s : State) : (startDecode s).sinkOut = s.sinkOut := rfl
@[simp] theorem startDecode_hostQ (s : State) : (startDecode s).hostQ = s.hostQ := rfl
@[simp] theorem startDecode_sched (s : State) : (startDecode s).sched = s.sched := rfl

/-! ### an accepted START_RENDER (R147) -/

@[simp] theorem startRender_params (s : State) : (startRender s).params = s.params := rfl
@[simp] theorem startRender_cfg (s : State) : (startRender s).cfg = s.cfg := rfl
@[simp] theorem startRender_br (s : State) : (startRender s).br = s.br := rfl
@[simp] theorem startRender_lzw (s : State) : (startRender s).lzw = s.lzw := rfl
@[simp] theorem startRender_frame (s : State) :
    (startRender s).frame = { s.frame with renRow := 0 } := rfl
@[simp] theorem startRender_idxRaddr (s : State) : (startRender s).idxRaddr = s.idxRaddr := rfl
@[simp] theorem startRender_inq (s : State) : (startRender s).inq = s.inq := rfl
@[simp] theorem startRender_dict (s : State) : (startRender s).dict = s.dict := rfl
@[simp] theorem startRender_idxmem (s : State) : (startRender s).idxmem = s.idxmem := rfl
@[simp] theorem startRender_pal (s : State) : (startRender s).pal = s.pal := rfl
@[simp] theorem startRender_held (s : State) : (startRender s).held = s.held := rfl
@[simp] theorem startRender_rdata (s : State) : (startRender s).rdata = s.rdata := rfl
@[simp] theorem startRender_resetPending (s : State) :
    (startRender s).resetPending = s.resetPending := rfl
@[simp] theorem startRender_snkTaken (s : State) : (startRender s).snkTaken = s.snkTaken := rfl
@[simp] theorem startRender_sinkOut (s : State) : (startRender s).sinkOut = s.sinkOut := rfl
@[simp] theorem startRender_hostQ (s : State) : (startRender s).hostQ = s.hostQ := rfl
@[simp] theorem startRender_sched (s : State) : (startRender s).sched = s.sched := rfl
@[simp] theorem startRender_codeCtx (s : State) : (startRender s).codeCtx = s.codeCtx := rfl

/-! ### a turn used up -/

@[simp] theorem dropTurn_params (s : State) : (dropTurn s).params = s.params := rfl
@[simp] theorem dropTurn_flags (s : State) : (dropTurn s).flags = s.flags := rfl
@[simp] theorem dropTurn_cfg (s : State) : (dropTurn s).cfg = s.cfg := rfl
@[simp] theorem dropTurn_br (s : State) : (dropTurn s).br = s.br := rfl
@[simp] theorem dropTurn_lzw (s : State) : (dropTurn s).lzw = s.lzw := rfl
@[simp] theorem dropTurn_frame (s : State) : (dropTurn s).frame = s.frame := rfl
@[simp] theorem dropTurn_idxRaddr (s : State) : (dropTurn s).idxRaddr = s.idxRaddr := rfl
@[simp] theorem dropTurn_inq (s : State) : (dropTurn s).inq = s.inq := rfl
@[simp] theorem dropTurn_dict (s : State) : (dropTurn s).dict = s.dict := rfl
@[simp] theorem dropTurn_idxmem (s : State) : (dropTurn s).idxmem = s.idxmem := rfl
@[simp] theorem dropTurn_pal (s : State) : (dropTurn s).pal = s.pal := rfl
@[simp] theorem dropTurn_held (s : State) : (dropTurn s).held = s.held := rfl
@[simp] theorem dropTurn_rdata (s : State) : (dropTurn s).rdata = s.rdata := rfl
@[simp] theorem dropTurn_resetPending (s : State) :
    (dropTurn s).resetPending = s.resetPending := rfl
@[simp] theorem dropTurn_snkTaken (s : State) : (dropTurn s).snkTaken = s.snkTaken := rfl
@[simp] theorem dropTurn_sinkOut (s : State) : (dropTurn s).sinkOut = s.sinkOut := rfl
@[simp] theorem dropTurn_hostQ (s : State) : (dropTurn s).hostQ = s.hostQ := rfl
@[simp] theorem dropTurn_sched (s : State) :
    (dropTurn s).sched = s.sched.tail := rfl
@[simp] theorem dropTurn_codeCtx (s : State) : (dropTurn s).codeCtx = s.codeCtx := rfl

end Sys2Proof.Machine
end

