-- ==== Sys2Proof/Laws/BitReader.lean ====
section
/-! SUPPORT. Laws/BitReader.lean: the Bit Reader's steps as numbers (40_bit_reader.md R81, R82,
R86). -/

namespace Sys2Proof.Machine

/-- FILL adds the byte above the bits held, with nothing lost (R81, R86). -/
theorem fillByte_bitBuf {r : BitReader} (b : Byte) (hc : r.bitCnt.toNat ≤ 11)
    (hb : r.bitBuf.toNat < 2 ^ r.bitCnt.toNat) :
    (fillByte b r).bitBuf.toNat = r.bitBuf.toNat + b.toNat * 2 ^ r.bitCnt.toNat := by
  have h8 := b.isLt
  have hp : 2 ^ r.bitCnt.toNat ≤ 2 ^ 11 := Nat.pow_le_pow_right (by omega) hc
  have hlt : b.toNat * 2 ^ r.bitCnt.toNat < 2 ^ 19 := by
    calc b.toNat * 2 ^ r.bitCnt.toNat ≤ 255 * 2 ^ 11 := Nat.mul_le_mul (by omega) hp
      _ < 2 ^ 19 := by norm_num
  have hs : (b.setWidth 19 <<< r.bitCnt.toNat).toNat = b.toNat * 2 ^ r.bitCnt.toNat := by
    rw [BitVec.toNat_shiftLeft, BitVec.toNat_setWidth, Nat.shiftLeft_eq,
      Nat.mod_eq_of_lt (show b.toNat < 2 ^ 19 by omega), Nat.mod_eq_of_lt hlt]
  have := Nat.two_pow_add_eq_or_of_lt hb b.toNat
  simp only [fillByte, BitVec.toNat_or, hs, Nat.or_comm r.bitBuf.toNat]
  rw [Nat.mul_comm b.toNat, ← this, Nat.add_comm]

/-- FILL counts eight bits more (R81). -/
theorem fillByte_bitCnt {r : BitReader} (b : Byte) (hc : r.bitCnt.toNat ≤ 11) :
    (fillByte b r).bitCnt.toNat = r.bitCnt.toNat + 8 := by
  simp only [fillByte, BitVec.toNat_add]
  show (_ + 8) % 2 ^ 5 = _
  omega

/-- FILL keeps the clean top (R85). -/
theorem fillByte_clean {r : BitReader} (b : Byte) (hc : r.bitCnt.toNat ≤ 11)
    (hb : r.bitBuf.toNat < 2 ^ r.bitCnt.toNat) :
    (fillByte b r).bitBuf.toNat < 2 ^ (fillByte b r).bitCnt.toNat := by
  rw [fillByte_bitBuf b hc hb, fillByte_bitCnt b hc, Nat.pow_add]
  have h8 := b.isLt
  have : b.toNat * 2 ^ r.bitCnt.toNat ≤ 255 * 2 ^ r.bitCnt.toNat :=
    Nat.mul_le_mul_right _ (by omega)
  omega

/-- EXTRACT counts the bits down (R82). -/
theorem extract_bitCnt {s : State} (h : s.lzw.codeWidth.toNat ≤ s.br.bitCnt.toNat) :
    (extract s).br.bitCnt.toNat = s.br.bitCnt.toNat - s.lzw.codeWidth.toNat := by
  have h4 := s.lzw.codeWidth.isLt
  have h5 := s.br.bitCnt.isLt
  simp only [extract, BitVec.toNat_sub, BitVec.toNat_setWidth]
  rw [Nat.mod_eq_of_lt (show s.lzw.codeWidth.toNat < 2 ^ 5 by omega)]
  omega

/-- EXTRACT shifts the buffer right (R82). -/
theorem extract_bitBuf (s : State) :
    (extract s).br.bitBuf.toNat = s.br.bitBuf.toNat / 2 ^ s.lzw.codeWidth.toNat := by
  simp only [extract, BitVec.toNat_ushiftRight, Nat.shiftRight_eq_div_pow]

/-- EXTRACT keeps the clean top (R85). -/
theorem extract_clean {s : State} (h : s.lzw.codeWidth.toNat ≤ s.br.bitCnt.toNat)
    (hb : s.br.bitBuf.toNat < 2 ^ s.br.bitCnt.toNat) :
    (extract s).br.bitBuf.toNat < 2 ^ (extract s).br.bitCnt.toNat := by
  rw [extract_bitBuf, extract_bitCnt h, Nat.div_lt_iff_lt_mul (Nat.two_pow_pos _), ← Nat.pow_add,
    Nat.sub_add_cancel h]
  exact hb

/-- The extracted code as a number (R82). -/
theorem extractedCode_toNat {s : State} (h : s.lzw.codeWidth.toNat ≤ 12) :
    (extractedCode s).toNat = s.br.bitBuf.toNat % 2 ^ s.lzw.codeWidth.toNat := by
  have : s.br.bitBuf.toNat % 2 ^ s.lzw.codeWidth.toNat < 2 ^ 12 :=
    lt_of_lt_of_le (Nat.mod_lt _ (Nat.two_pow_pos _)) (Nat.pow_le_pow_right (by omega) h)
  simp only [extractedCode, BitVec.toNat_ofNat, Nat.mod_eq_of_lt this]

end Sys2Proof.Machine
end

