-- ==== Sys2Proof/Laws/Memory.lean ====
section
/-! SUPPORT. Laws/Memory.lean: the laws of the memories: a read after a write, the canonical form,
and which addresses a memory lists. -/

namespace Sys2Proof.Machine

variable {α : Type}

@[simp] theorem Mem.read_nil (a : Nat) : Mem.read ([] : Mem α) a = none := rfl

theorem Mem.read_write_same (m : Mem α) (a : Nat) (v : α) :
    Mem.read (Mem.write m a v) a = some v := by
  induction m with
  | nil => simp [Mem.write, Mem.read]
  | cons e m ih =>
    obtain ⟨k, u⟩ := e
    simp only [Mem.write]
    split
    · simp [Mem.read]
    · split
      · simp [Mem.read]
      · next _ h => simp [Mem.read, Ne.symm h, ih]

theorem Mem.read_write_other (m : Mem α) {a b : Nat} (v : α) (h : b ≠ a) :
    Mem.read (Mem.write m a v) b = Mem.read m b := by
  induction m with
  | nil => simp [Mem.write, Mem.read, Ne.symm h]
  | cons e m ih =>
    obtain ⟨k, u⟩ := e
    simp only [Mem.write]
    split
    · simp [Mem.read, Ne.symm h]
    · split
      · next _ h' => subst h'; simp [Mem.read, Ne.symm h]
      · simp only [Mem.read, ih]

/-- A write, read anywhere. -/
theorem Mem.read_write (m : Mem α) (a b : Nat) (v : α) :
    Mem.read (Mem.write m a v) b = if b = a then some v else Mem.read m b := by
  split
  · next h => subst h; exact Mem.read_write_same m b v
  · next h => exact Mem.read_write_other m v h

/-- An entry of a written memory is the new one or an old one. -/
theorem Mem.mem_write {m : Mem α} {a : Nat} {v : α} {e : Nat × α} (h : e ∈ Mem.write m a v) :
    e = (a, v) ∨ e ∈ m := by
  induction m with
  | nil => simpa [Mem.write] using h
  | cons e' m ih =>
    obtain ⟨k, u⟩ := e'
    simp only [Mem.write] at h
    split at h
    · simp only [List.mem_cons] at h ⊢; tauto
    · split at h
      · simp only [List.mem_cons] at h ⊢; tauto
      · simp only [List.mem_cons] at h ⊢
        rcases h with h | h
        · exact .inr (.inl h)
        · rcases ih h with h | h <;> tauto

/-- A write keeps the canonical form. -/
theorem Mem.wf_write {m : Mem α} (h : Mem.wf m) (a : Nat) (v : α) : Mem.wf (Mem.write m a v) := by
  induction m with
  | nil => simp [Mem.wf, Mem.write]
  | cons e m ih =>
    obtain ⟨k, u⟩ := e
    simp only [Mem.wf, List.map_cons, List.pairwise_cons, List.mem_map, forall_exists_index,
      and_imp, forall_apply_eq_imp_iff₂] at h
    simp only [Mem.write]
    split
    · next hlt =>
      simp only [Mem.wf, List.map_cons, List.pairwise_cons, List.mem_cons, List.mem_map,
        forall_eq_or_imp, forall_exists_index, and_imp, forall_apply_eq_imp_iff₂]
      exact ⟨⟨hlt, fun e he => lt_trans hlt (h.1 e he)⟩, h.1, h.2⟩
    · split
      · next hle heq =>
        subst heq
        simp only [Mem.wf, List.map_cons, List.pairwise_cons, List.mem_map, forall_exists_index,
          and_imp, forall_apply_eq_imp_iff₂]
        exact h
      · next hle hne =>
        simp only [Mem.wf, List.map_cons, List.pairwise_cons, List.mem_map, forall_exists_index,
          and_imp, forall_apply_eq_imp_iff₂]
        refine ⟨fun e he => ?_, ih h.2⟩
        rcases Mem.mem_write he with rfl | he
        · show k < a; omega
        · exact h.1 e he

/-- A listed address reads as a value. -/
theorem Mem.read_isSome_of_mem {m : Mem α} {e : Nat × α} (h : e ∈ m) :
    (Mem.read m e.1).isSome = true := by
  induction m with
  | nil => simp at h
  | cons e' m ih =>
    obtain ⟨k, u⟩ := e'
    simp only [Mem.read]
    split
    · rfl
    · next hne =>
      rcases List.mem_cons.1 h with rfl | h
      · exact absurd rfl hne
      · exact ih h

/-- A value read is listed. -/
theorem Mem.mem_of_read {m : Mem α} {a : Nat} {v : α} (h : Mem.read m a = some v) : (a, v) ∈ m := by
  induction m with
  | nil => simp at h
  | cons e m ih =>
    obtain ⟨k, u⟩ := e
    simp only [Mem.read] at h
    split at h
    · next hk => simp only [Option.some.injEq] at h; subst hk h; exact List.mem_cons_self
    · exact List.mem_cons_of_mem _ (ih h)

/-- Two canonical memories that read alike everywhere are the same data. -/
theorem Mem.ext_of_read {m n : Mem α} (hm : Mem.wf m) (hn : Mem.wf n)
    (h : ∀ a, Mem.read m a = Mem.read n a) : m = n := by
  induction m generalizing n with
  | nil =>
    cases n with
    | nil => rfl
    | cons e n => have := h e.1; simp [Mem.read] at this
  | cons e m ih =>
    obtain ⟨k, u⟩ := e
    cases n with
    | nil => have := h k; simp [Mem.read] at this
    | cons e' n =>
      obtain ⟨k', u'⟩ := e'
      simp only [Mem.wf, List.map_cons, List.pairwise_cons, List.mem_map, forall_exists_index,
        and_imp, forall_apply_eq_imp_iff₂] at hm hn
      have hk : k = k' := by
        by_contra hne
        have h1 := h k
        have h2 := h k'
        simp only [Mem.read, if_pos, if_neg (Ne.symm hne), if_neg hne] at h1 h2
        have a1 := hn.1 _ (Mem.mem_of_read h1.symm)
        have a2 := hm.1 _ (Mem.mem_of_read h2)
        simp only at a1 a2
        omega
      subst hk
      have hu : u = u' := by simpa [Mem.read] using h k
      subst hu
      congr 1
      refine ih hm.2 hn.2 fun a => ?_
      by_cases ha : k = a
      · subst ha
        have e1 : Mem.read m k = none := by
          by_contra hc
          obtain ⟨v, hv⟩ := Option.ne_none_iff_exists'.1 hc
          have := hm.1 _ (Mem.mem_of_read hv); simp at this
        have e2 : Mem.read n k = none := by
          by_contra hc
          obtain ⟨v, hv⟩ := Option.ne_none_iff_exists'.1 hc
          have := hn.1 _ (Mem.mem_of_read hv); simp at this
        rw [e1, e2]
      · simpa [Mem.read, ha] using h a

/-- Reading a memory built from consecutive addresses. -/
theorem Mem.read_map_range' (f : Nat → α) (n k a : Nat) :
    Mem.read ((List.range' k n).map fun c => (c, f c)) a =
      if k ≤ a ∧ a < k + n then some (f a) else none := by
  induction n generalizing k with
  | zero => simp
  | succ n ih =>
    simp only [List.range'_succ, List.map_cons, Mem.read, ih]
    by_cases h : k = a
    · subst h; simp
    · simp only [h, if_false]
      congr 1
      apply propext
      omega

/-- Reading the dictionary as DictReset leaves it (41_lzw_decompressor.md R92). -/
theorem read_initDict (m c : Nat) :
    Mem.read (initDict m) c =
      if c < 2 ^ m then some (.str (BitVec.ofNat 8 c) [])
      else if c < 2 ^ m + 2 then some .empty else none := by
  unfold initDict
  rw [List.range_eq_range', Mem.read_map_range' (fun c => if c < 2 ^ m then
    DictEntry.str (BitVec.ofNat 8 c) [] else .empty)]
  simp only [Nat.zero_le, true_and, Nat.zero_add]
  split <;> split <;> first | rfl | (simp_all; try omega)

/-- The initial dictionary is in canonical form. -/
theorem initDict_wf (m : Nat) : Mem.wf (initDict m) := by
  simp only [Mem.wf, initDict, List.map_map]
  have : (Prod.fst ∘ fun c : Nat => (c, if c < 2 ^ m then
      DictEntry.str (BitVec.ofNat 8 c) [] else .empty)) = id := rfl
  rw [this, List.map_id]
  exact List.pairwise_lt_range

/-- The codes the initial dictionary lists. -/
theorem lt_of_mem_initDict {m : Nat} {e : Nat × DictEntry} (h : e ∈ initDict m) :
    e.1 < 2 ^ m + 2 := by
  simp only [initDict, List.mem_map, List.mem_range] at h
  obtain ⟨c, hc, rfl⟩ := h
  exact hc

end Sys2Proof.Machine
end

