-- ==== Sys2Proof/Laws/Emit.lean ====
section
/-! SUPPORT. Laws/Emit.lean: everything Emit can do (41_lzw_decompressor.md R100). -/

namespace Sys2Proof.Machine

/-- Room for what EXPECTED still allows: R50 of 20_memory.md. -/
def EmitRoom (s : State) : Prop :=
  s.frame.idxCount.toNat ≤ s.frame.expected.toNat ∧ s.frame.expected.toNat ≤ s.params.idxCap

/-- Emit changes IDX_COUNT and IDXMEM and nothing else. -/
theorem emit_frame {bs : List Byte} {s t : State} (h : emit bs s = .ok t) :
    t = { s with frame := { s.frame with idxCount := t.frame.idxCount }, idxmem := t.idxmem } := by
  induction bs generalizing s with
  | nil => simp only [emit, Except.ok.injEq] at h; subst h; rfl
  | cons b bs ih =>
    simp only [emit, emitByte] at h
    split at h
    · next u hu =>
      split at hu
      · split at hu
        · simp only [Except.ok.injEq] at hu; subst hu; have := ih h; exact this
        · cases hu
      · simp only [Except.ok.injEq] at hu; subst hu; exact ih h
    · cases h

/-- Once IDX_COUNT has reached EXPECTED, Emit writes nothing. -/
theorem emit_full {bs : List Byte} {s : State}
    (h : s.frame.expected.toNat ≤ s.frame.idxCount.toNat) : emit bs s = .ok s := by
  induction bs with
  | nil => rfl
  | cons b bs ih => simp only [emit, emitByte, if_neg (Nat.not_lt.2 h), ih]

/-- Emit always completes where the memory has the room START_DECODE checked for, and then has
written exactly what R100 says. -/
theorem emit_spec {bs : List Byte} {s : State} (h : EmitRoom s) :
    ∃ t, emit bs s = .ok t ∧ Emitted bs s t := by
  induction bs generalizing s with
  | nil =>
    refine ⟨s, rfl, ?_, ?_, fun a _ => rfl⟩
    · simp only [List.length_nil]; have := h.1; omega
    · simp
  | cons b bs ih =>
    by_cases hlt : s.frame.idxCount.toNat < s.frame.expected.toNat
    · have hcap : s.frame.idxCount.toNat < s.params.idxCap := lt_of_lt_of_le hlt h.2
      have hsucc : (s.frame.idxCount + 1).toNat = s.frame.idxCount.toNat + 1 := by
        have := s.frame.expected.isLt
        rw [BitVec.toNat_add]; show (_ + 1) % 2 ^ 32 = _; omega
      have step : emitByte b s = .ok { s with
          idxmem := Mem.write s.idxmem s.frame.idxCount.toNat b
          frame := { s.frame with idxCount := s.frame.idxCount + 1 } } := by
        simp only [emitByte, if_pos hlt, if_pos hcap]
      have hr : EmitRoom { s with
          idxmem := Mem.write s.idxmem s.frame.idxCount.toNat b
          frame := { s.frame with idxCount := s.frame.idxCount + 1 } } :=
        ⟨by show (s.frame.idxCount + 1).toNat ≤ _; rw [hsucc]; exact hlt, h.2⟩
      obtain ⟨t, ht, hc, hw, ho⟩ := ih hr
      simp only [hsucc] at hc hw ho
      refine ⟨t, by simp only [emit, step, ht], ?_, ?_, ?_⟩
      · simp only [List.length_cons]; omega
      · intro k c hk hlt'
        cases k with
        | zero =>
          simp only [List.getElem?_cons_zero, Option.some.injEq] at hk
          subst hk
          rw [Nat.add_zero, ho _ (.inl (Nat.lt_succ_self _)), Mem.read_write_same]
        | succ k =>
          have := hw k c (by simpa using hk) (by omega)
          rw [← this]; congr 1; omega
      · intro a ha
        rw [ho a (by omega), Mem.read_write_other]
        omega
    · have hge := Nat.le_of_not_lt hlt
      refine ⟨s, emit_full hge, ?_, ?_, fun a _ => rfl⟩
      · have := h.1; simp only [List.length_cons]; omega
      · intro k c _ h'; omega

/-- What Emit writes stays inside the memory and keeps its canonical form. -/
theorem emit_mem {bs : List Byte} {s t : State} (h : emit bs s = .ok t) (hw : Memory.wf s.idxmem)
    (hc : ∀ e ∈ s.idxmem, e.1 < s.params.idxCap) :
    Memory.wf t.idxmem ∧ ∀ e ∈ t.idxmem, e.1 < t.params.idxCap := by
  induction bs generalizing s with
  | nil => simp only [emit, Except.ok.injEq] at h; subst h; exact ⟨hw, hc⟩
  | cons b bs ih =>
    simp only [emit, emitByte] at h
    split at h
    · next u hu =>
      split at hu
      · split at hu
        · next hcap =>
          simp only [Except.ok.injEq] at hu; subst hu
          refine ih h (Mem.wf_write hw _ _) fun e he => ?_
          rcases Mem.mem_write he with rfl | he
          · exact hcap
          · exact hc e he
        · cases hu
      · simp only [Except.ok.injEq] at hu; subst hu; exact ih h hw hc
    · cases h

end Sys2Proof.Machine
end

