-- ==== Sys2Proof/Laws/DataCode.lean ====
section
/-! SUPPORT. Laws/DataCode.lean: everything the common sub-steps of a data code can do
(41_lzw_decompressor.md R94, R100 to R105). -/

namespace Sys2Proof.Machine

/-- A defined data entry reads as its byte string (20_memory.md R40). -/
theorem readDict_of_read {s : State} {c : Code} {b : Byte} {bs : List Byte}
    (hlt : c.toNat < s.lzw.nextCode.toNat) (h : Mem.read s.dict c.toNat = some (.str b bs)) :
    readDict s c = some (b, bs) := by
  simp only [readDict, if_pos hlt, h]

/-- What a read of the dictionary returned is the entry there. -/
theorem read_of_readDict {s : State} {c : Code} {b : Byte} {bs : List Byte}
    (h : readDict s c = some (b, bs)) :
    c.toNat < s.lzw.nextCode.toNat ∧ Mem.read s.dict c.toNat = some (.str b bs) := by
  unfold readDict at h
  split at h
  · next hlt =>
    split at h
    · next e => simp only [Option.some.injEq, Prod.mk.injEq] at h; obtain ⟨rfl, rfl⟩ := h
                exact ⟨hlt, e⟩
    · cases h
    · cases h
  · cases h

/-- Widen as numbers (R102). -/
theorem widen_codeWidth (z : Lzw) : (widen z).codeWidth.toNat =
    if z.nextCode.toNat = 2 ^ z.codeWidth.toNat ∧ z.codeWidth.toNat < 12
    then z.codeWidth.toNat + 1 else z.codeWidth.toNat := by
  unfold widen
  split
  · next h =>
    have h12 : z.codeWidth.toNat < 12 := h.2
    simp only [BitVec.toNat_add]
    show (_ + 1) % 2 ^ 4 = _
    omega
  · rfl

@[simp] theorem widen_nextCode (z : Lzw) : (widen z).nextCode = z.nextCode := by
  unfold widen; split <;> rfl
@[simp] theorem widen_decMcs (z : Lzw) : (widen z).decMcs = z.decMcs := by
  unfold widen; split <;> rfl
@[simp] theorem widen_prevValid (z : Lzw) : (widen z).prevValid = z.prevValid := by
  unfold widen; split <;> rfl
@[simp] theorem widen_prevCode (z : Lzw) : (widen z).prevCode = z.prevCode := by
  unfold widen; split <;> rfl

/-- The flags after the count cutoff (R105). -/
theorem countCutoff_eq (s : State) : countCutoff s =
    { s with flags := if s.frame.expected.toNat ≤ s.frame.idxCount.toNat
                      then StoppedFlags .count s.flags else s.flags } := by
  unfold countCutoff
  split <;> rfl

/-- The common sub-steps always complete in a decode, and do what R100 to R105 say. -/
theorem dataCode_spec {first : Byte} {rest : List Byte} {cur : Code} {s : State} {p : Byte}
    {ps : List Byte} (hroom : EmitRoom s) (hz : LzwActive s.lzw)
    (hp : s.lzw.prevValid = true → Mem.read s.dict s.lzw.prevCode.toNat = some (.str p ps)) :
    ∃ t, dataCode first rest cur s = .next t ∧ DataCodeEffect first rest cur p ps s t := by
  obtain ⟨u, hu, hem⟩ := emit_spec (bs := first :: rest) hroom
  have hfr := emit_frame hu
  have hlz : u.lzw = s.lzw := by rw [hfr]
  have hdi : u.dict = s.dict := by rw [hfr]
  have hfl : u.flags = s.flags := by rw [hfr]
  have hex : u.frame.expected = s.frame.expected := by rw [hfr]
  have huf : u.frame = { s.frame with idxCount := u.frame.idxCount } := by rw [hfr]
  unfold dataCode
  simp only [hu, hlz]
  by_cases hv : s.lzw.prevValid = true
  · simp only [hv, if_true]
    by_cases hfull : s.lzw.nextCode.toNat = 4096
    · simp only [hfull, Config.dictSize, if_true]
      refine ⟨_, rfl, ⟨hem.1, hem.2.1, hem.2.2⟩, huf, ?_, ?_⟩
      · rw [hfr]; rfl
      · rw [if_pos ⟨hv, hfull⟩]
        refine ⟨hdi, hlz, ?_⟩
        rw [stop_flags, hfl]; rfl
    · obtain ⟨hplt, _, _⟩ := hz.2.2.2.2.2 hv
      have hlt : s.lzw.nextCode.toNat < 4096 := by have := hz.2.2.2.1; omega
      have hrd : readDict u s.lzw.prevCode = some (p, ps) :=
        readDict_of_read (by rw [hlz]; exact hplt) (by rw [hdi]; exact hp hv)
      have hsucc : (s.lzw.nextCode + 1).toNat = s.lzw.nextCode.toNat + 1 := by
        rw [BitVec.toNat_add]; show (_ + 1) % 2 ^ 13 = _; omega
      simp only [Config.dictSize, if_neg hfull, hrd, append, hlz, if_pos hlt, countCutoff_eq]
      refine ⟨_, rfl, ⟨hem.1, hem.2.1, hem.2.2⟩, huf, ?_, ?_⟩
      · rw [hfr]; rfl
      · simp only [hfull, and_false, if_false, hv, if_true]
        refine ⟨?_, rfl, rfl, ⟨?_, ?_, ?_, ?_⟩, ?_⟩
        · exact widen_decMcs _
        · exact Mem.read_write_same _ _ _
        · intro c hc
          show Mem.read (Mem.write u.dict _ _) c = _
          rw [Mem.read_write_other _ _ hc, hdi]
        · show (widen _).nextCode.toNat = _
          rw [widen_nextCode]; exact hsucc
        · show (widen _).codeWidth.toNat = _
          rw [widen_codeWidth]; simp only [hsucc]
        · show (if u.frame.expected.toNat ≤ u.frame.idxCount.toNat then
            StoppedFlags .count u.flags else u.flags) = _
          rw [hex, hfl]; rfl
  · have hv' : s.lzw.prevValid = false := by simpa using hv
    simp only [hv', Bool.false_eq_true, if_false, countCutoff_eq]
    refine ⟨_, rfl, ⟨hem.1, hem.2.1, hem.2.2⟩, huf, ?_, ?_⟩
    · rw [hfr]; rfl
    · simp only [hv', Bool.false_eq_true, false_and, if_false]
      refine ⟨?_, rfl, rfl, ⟨?_, ?_, ?_⟩, ?_⟩
      · show u.lzw.decMcs = _; rw [hlz]
      · exact hdi
      · show u.lzw.nextCode = _; rw [hlz]
      · show u.lzw.codeWidth = _; rw [hlz]
      · show (if u.frame.expected.toNat ≤ u.frame.idxCount.toNat then
          StoppedFlags .count u.flags else u.flags) = _
        rw [hex, hfl]; rfl

/-- A data code keeps the memories canonical and inside their bounds. -/
theorem dataCode_mem {first : Byte} {rest : List Byte} {cur : Code} {s t : State}
    (h : dataCode first rest cur s = .next t) (hm : MemOk s) : MemOk t := by
  unfold dataCode at h
  split at h
  · cases h
  · next u hu =>
    have hfr := emit_frame hu
    have hdi : u.dict = s.dict := by rw [hfr]
    have hpa : u.pal = s.pal := by rw [hfr]
    obtain ⟨hw, hc⟩ := emit_mem hu hm.2.2.1 hm.2.2.2.1
    have hmu : MemOk u := by
      refine ⟨by rw [hdi]; exact hm.1, by rw [hdi]; exact hm.2.1, hw, hc, by rw [hpa]; exact hm.2.2.2.2.1,
        by rw [hpa]; exact hm.2.2.2.2.2⟩
    split at h
    · split at h
      · injection h with h; subst h; exact hmu
      · split at h
        · cases h
        · unfold append at h
          split at h
          · cases h
          · next v hv =>
            split at hv
            · next hlt =>
              injection hv with hv; injection h with h
              subst hv; subst h
              rw [countCutoff_eq]
              refine ⟨Mem.wf_write hmu.1 _ _, fun e he => ?_, hmu.2.2⟩
              rcases Mem.mem_write he with rfl | he
              · exact hlt
              · exact hmu.2.1 e he
            · cases hv
    · injection h with h; subst h; rw [countCutoff_eq]; exact hmu

end Sys2Proof.Machine
end

