-- ==== Sys2Proof/Laws/Codes.lean ====
section
/-! SUPPORT. Laws/Codes.lean: what the classification of a code decides (30_encoding.md R63) and what
each class does in a decode (41_lzw_decompressor.md R95 to R99). -/

namespace Sys2Proof.Machine

/-- The bounds of a decode's registers, as numbers. -/
theorem LzwActive.bounds {z : Lzw} (h : LzwActive z) :
    4 ≤ 2 ^ z.decMcs.toNat ∧ 2 ^ z.decMcs.toNat ≤ 256 ∧
    2 ^ z.decMcs.toNat + 2 ≤ z.nextCode.toNat ∧ z.nextCode.toNat ≤ 4096 := by
  refine ⟨?_, ?_, h.2.2.1, h.2.2.2.1⟩
  · calc 4 = 2 ^ 2 := rfl
      _ ≤ _ := Nat.pow_le_pow_right (by omega) h.1
  · calc 2 ^ z.decMcs.toNat ≤ 2 ^ 8 := Nat.pow_le_pow_right (by omega) h.2.1
      _ = 256 := rfl

/-- The code width of a decode (R93 item 3). -/
theorem LzwActive.width {z : Lzw} (h : LzwActive z) :
    3 ≤ z.codeWidth.toNat ∧ z.codeWidth.toNat ≤ 12 := by
  have := h.1
  have h' := h.2.2.2.2.1
  omega

theorem classify_clear {s : State} (h : LzwActive s.lzw) :
    classify s.codeCtx (BitVec.ofNat 12 s.codeCtx.clear) = .clear := by
  have := h.bounds
  have e : s.codeCtx.clear = 2 ^ s.lzw.decMcs.toNat := rfl
  have : (BitVec.ofNat 12 s.codeCtx.clear).toNat = s.codeCtx.clear := by
    rw [BitVec.toNat_ofNat, Nat.mod_eq_of_lt]; omega
  simp only [classify, this, if_true]

theorem classify_endCode {s : State} (h : LzwActive s.lzw) :
    classify s.codeCtx (BitVec.ofNat 12 s.codeCtx.endCode) = .endCode := by
  have := h.bounds
  have e : s.codeCtx.endCode = 2 ^ s.lzw.decMcs.toNat + 1 := rfl
  have e' : s.codeCtx.clear = 2 ^ s.lzw.decMcs.toNat := rfl
  have : (BitVec.ofNat 12 s.codeCtx.endCode).toNat = s.codeCtx.endCode := by
    rw [BitVec.toNat_ofNat, Nat.mod_eq_of_lt]; omega
  simp only [classify, this, if_true]
  rw [if_neg]; omega

theorem classify_known {s : State} {c : Code} (h1 : c.toNat < s.lzw.nextCode.toNat)
    (h2 : c.toNat ≠ 2 ^ s.lzw.decMcs.toNat) (h3 : c.toNat ≠ 2 ^ s.lzw.decMcs.toNat + 1) :
    classify s.codeCtx c = .known := by
  have e : s.codeCtx.endCode = 2 ^ s.lzw.decMcs.toNat + 1 := rfl
  have e' : s.codeCtx.clear = 2 ^ s.lzw.decMcs.toNat := rfl
  have e'' : s.codeCtx.nextCode = s.lzw.nextCode := rfl
  simp only [classify, e, e', e'', if_neg h2, if_neg h3, if_pos h1]

theorem classify_kwkwk {s : State} {c : Code} (h : LzwActive s.lzw)
    (h1 : c.toNat = s.lzw.nextCode.toNat) (h2 : s.lzw.prevValid = true) :
    classify s.codeCtx c = .kwkwk := by
  have := h.bounds
  have e : s.codeCtx.endCode = 2 ^ s.lzw.decMcs.toNat + 1 := rfl
  have e' : s.codeCtx.clear = 2 ^ s.lzw.decMcs.toNat := rfl
  have e'' : s.codeCtx.nextCode = s.lzw.nextCode := rfl
  have e3 : s.codeCtx.prevValid = s.lzw.prevValid := rfl
  simp only [classify, e, e', e'', e3]
  rw [if_neg (by omega), if_neg (by omega), if_neg (by omega), if_pos ⟨h1, h2⟩]

theorem classify_invalid {s : State} {c : Code} (h : LzwActive s.lzw)
    (h1 : s.lzw.nextCode.toNat < c.toNat ∨
      c.toNat = s.lzw.nextCode.toNat ∧ s.lzw.prevValid = false) :
    classify s.codeCtx c = .invalid := by
  have := h.bounds
  have e : s.codeCtx.endCode = 2 ^ s.lzw.decMcs.toNat + 1 := rfl
  have e' : s.codeCtx.clear = 2 ^ s.lzw.decMcs.toNat := rfl
  have e'' : s.codeCtx.nextCode = s.lzw.nextCode := rfl
  have e3 : s.codeCtx.prevValid = s.lzw.prevValid := rfl
  simp only [classify, e, e', e'', e3]
  rw [if_neg (by omega), if_neg (by omega), if_neg (by omega), if_neg]
  rintro ⟨h5, h6⟩
  rcases h1 with h1 | ⟨_, h1⟩
  · omega
  · rw [h1] at h6; cases h6

/-- The class of a code, the other way round: what each class says of the code. -/
theorem classify_cases (s : State) (c : Code) :
    match classify s.codeCtx c with
    | .clear => c.toNat = 2 ^ s.lzw.decMcs.toNat
    | .endCode => c.toNat = 2 ^ s.lzw.decMcs.toNat + 1
    | .known => c.toNat < s.lzw.nextCode.toNat ∧ c.toNat ≠ 2 ^ s.lzw.decMcs.toNat ∧
        c.toNat ≠ 2 ^ s.lzw.decMcs.toNat + 1
    | .kwkwk => c.toNat = s.lzw.nextCode.toNat ∧ s.lzw.prevValid = true
    | .invalid => s.lzw.nextCode.toNat < c.toNat ∨
        c.toNat = s.lzw.nextCode.toNat ∧ s.lzw.prevValid = false := by
  have e : s.codeCtx.endCode = 2 ^ s.lzw.decMcs.toNat + 1 := rfl
  have e' : s.codeCtx.clear = 2 ^ s.lzw.decMcs.toNat := rfl
  have e'' : s.codeCtx.nextCode = s.lzw.nextCode := rfl
  have e3 : s.codeCtx.prevValid = s.lzw.prevValid := rfl
  unfold classify
  simp only [e, e', e'', e3]
  by_cases h1 : c.toNat = 2 ^ s.lzw.decMcs.toNat
  · rw [if_pos h1]; exact h1
  rw [if_neg h1]
  by_cases h2 : c.toNat = 2 ^ s.lzw.decMcs.toNat + 1
  · rw [if_pos h2]; exact h2
  rw [if_neg h2]
  by_cases h3 : c.toNat < s.lzw.nextCode.toNat
  · rw [if_pos h3]; exact ⟨h3, h1, h2⟩
  rw [if_neg h3]
  by_cases h4 : c.toNat = s.lzw.nextCode.toNat ∧ s.lzw.prevValid = true
  · rw [if_pos h4]; exact h4
  rw [if_neg h4]
  show _ ∨ _
  rcases Nat.lt_or_ge s.lzw.nextCode.toNat c.toNat with h5 | h5
  · exact .inl h5
  · refine .inr ⟨by omega, ?_⟩
    by_contra hc
    exact h4 ⟨by omega, by simpa using hc⟩

theorem classInForce_iff {k : CodeClass} {c : Code} {s : State} :
    classInForce k c s = true ↔ s.flags.phase = .decoding ∧ classify s.codeCtx c = k := by
  simp [classInForce]

theorem execClear_next {s : State} (hp : s.flags.phase = .decoding) (h : LzwActive s.lzw) :
    execClear s = .next (dictReset s) := by
  rw [execClear, if_pos (classInForce_iff.2 ⟨hp, classify_clear h⟩)]

theorem execEnd_next {s : State} (hp : s.flags.phase = .decoding) (h : LzwActive s.lzw) :
    execEnd s = .next (stop .end_ s) := by
  rw [execEnd, if_pos (classInForce_iff.2 ⟨hp, classify_endCode h⟩)]

theorem execInvalid_next {s : State} {c : Code} (hp : s.flags.phase = .decoding)
    (h : LzwActive s.lzw) (hc : s.lzw.nextCode.toNat < c.toNat ∨
      c.toNat = s.lzw.nextCode.toNat ∧ s.lzw.prevValid = false) :
    execInvalid c s = .next (stop .badCode s) := by
  rw [execInvalid, if_pos (classInForce_iff.2 ⟨hp, classify_invalid h hc⟩)]

theorem execKnown_eq {s : State} {c : Code} {b : Byte} {bs : List Byte}
    (hp : s.flags.phase = .decoding) (h1 : c.toNat < s.lzw.nextCode.toNat)
    (h2 : c.toNat ≠ 2 ^ s.lzw.decMcs.toNat) (h3 : c.toNat ≠ 2 ^ s.lzw.decMcs.toNat + 1)
    (hr : Mem.read s.dict c.toNat = some (.str b bs)) :
    execKnown c s = dataCode b bs c s := by
  rw [execKnown, if_pos (classInForce_iff.2 ⟨hp, classify_known h1 h2 h3⟩),
    readDict_of_read h1 hr]

theorem nextCode_setWidth {s : State} (h : s.lzw.nextCode.toNat < 4096) :
    (s.lzw.nextCode.setWidth 12).toNat = s.lzw.nextCode.toNat := by
  rw [BitVec.toNat_setWidth, Nat.mod_eq_of_lt h]

theorem execKwkwk_eq {s : State} {p : Byte} {ps : List Byte} (hp : s.flags.phase = .decoding)
    (h : LzwActive s.lzw) (hv : s.lzw.prevValid = true) (hn : s.lzw.nextCode.toNat < 4096)
    (hr : Mem.read s.dict s.lzw.prevCode.toNat = some (.str p ps)) :
    execKwkwk s = dataCode p (ps ++ [p]) (s.lzw.nextCode.setWidth 12) s := by
  rw [execKwkwk,
    if_pos (classInForce_iff.2 ⟨hp, classify_kwkwk h (nextCode_setWidth hn) hv⟩),
    readDict_of_read (h.2.2.2.2.2 hv).1 hr]

/-- A defined data entry is a byte string (R93 item 2). -/
theorem DictOk.str {s : State} (h : DictOk s) {c : Nat} (h1 : c < s.lzw.nextCode.toNat)
    (h2 : c ≠ 2 ^ s.lzw.decMcs.toNat) (h3 : c ≠ 2 ^ s.lzw.decMcs.toNat + 1) :
    ∃ b bs, Mem.read s.dict c = some (.str b bs) ∧
      bs.length + 1 ≤ max 1 (c - 2 ^ s.lzw.decMcs.toNat) ∧
      (∀ x ∈ b :: bs, x.toNat < 2 ^ s.lzw.decMcs.toNat) ∧
      (c < 2 ^ s.lzw.decMcs.toNat → b.toNat = c) := by
  have := h c h1
  unfold entryOk at this
  split at this
  · next b bs e =>
    simp only [Bool.and_eq_true, bne_iff_ne, decide_eq_true_eq, List.all_eq_true,
      Bool.or_eq_true, beq_iff_eq] at this
    refine ⟨b, bs, e, this.1.1.2, this.1.2, fun hc => ?_⟩
    rcases this.2 with h | h
    · omega
    · exact h
  · simp only [Bool.or_eq_true, beq_iff_eq] at this
    omega
  · cases this

/-- The previous entry is a byte string (10_state.md R12). -/
theorem prev_str {s : State} (hz : LzwActive s.lzw) (h : DictOk s) (hv : s.lzw.prevValid = true) :
    ∃ p ps, Mem.read s.dict s.lzw.prevCode.toNat = some (.str p ps) := by
  obtain ⟨h1, h2, h3⟩ := hz.2.2.2.2.2 hv
  obtain ⟨b, bs, e, _⟩ := h.str h1 h2 h3
  exact ⟨b, bs, e⟩

end Sys2Proof.Machine
end

