-- ==== Sys2Proof/Laws/Invariant.lean ====
section
/-! SUPPORT. Laws/Invariant.lean: the invariant operation by operation: which operation keeps which
part of it (Safety.lean). -/

namespace Sys2Proof.Machine

/-- A decode in progress has the registers of one (10_state.md R11). -/
theorem BlockInv.active {s : State} (h : BlockInv s) (hp : s.flags.phase = .decoding) : LzwActive s.lzw := by
  rcases h.lzw with h | h
  · exact absurd hp h.2
  · exact h

/-- A decode has the room Emit needs (20_memory.md R50). -/
theorem BlockInv.room {s : State} (h : BlockInv s) : EmitRoom s := ⟨h.frame.2.2.1, h.frame.2.1⟩

/-- The environment's fields and the ports' are no part of the block's own invariant. -/
theorem BlockInv.env {s : State} (h : BlockInv s) (held : Option Byte) (resetPending : Bool)
    (rdata : Word) (idxRaddr : Word) (hostQ : List PortReq) (sched : List Turn) :
    BlockInv { s with
      held := held, resetPending := resetPending, rdata := rdata, idxRaddr := idxRaddr,
      hostQ := hostQ, sched := sched } :=
  ⟨h.params, h.bits, h.lzw, h.dict, h.frame, h.flags, h.render, h.mem, h.queue, h.blits⟩

/-- Refuse keeps the invariant (60_exceptions.md R173). -/
theorem BlockInv.refuse {s : State} (h : BlockInv s) (e : Err) : BlockInv (refuse e s) :=
  ⟨h.params, h.bits, h.lzw, h.dict, h.frame, h.flags, h.render, h.mem, h.queue, h.blits⟩

/-- END_OF_DATA keeps the invariant. -/
theorem BlockInv.endOfData {s : State} (h : BlockInv s) :
    BlockInv { s with flags := { s.flags with eod := true, errCode := .none } } :=
  ⟨h.params, h.bits, h.lzw, h.dict, h.frame, h.flags, h.render, h.mem, h.queue, h.blits⟩

/-- The Bit Reader at reset (40_bit_reader.md R88). -/
theorem bitsOk_reset {s : State} (h : s.br = BitReader.reset) : BitsOk s := by
  unfold BitsOk; rw [h]; decide

/-- A change of the input queue within its depth. -/
theorem BlockInv.queued {s : State} (h : BlockInv s) {q : List Byte} (hq : q.length ≤ s.params.inqDepth) :
    BlockInv { s with inq := q } :=
  ⟨h.params, h.bits, h.lzw, h.dict, h.frame, h.flags, h.render, h.mem, hq, h.blits⟩

/-- A configuration write while PHASE = IDLE (43_host_commands.md R141). -/
theorem BlockInv.writeCfg {s : State} (h : BlockInv s) (hp : s.flags.phase = .idle) (c : Cfg) :
    BlockInv { s with cfg := c } :=
  ⟨h.params, h.bits, h.lzw, h.dict, h.frame, h.flags,
    ⟨h.render.1, h.render.2.1, fun hr => by rw [hp] at hr; cases hr⟩, h.mem, h.queue, h.blits⟩

/-- A palette write (43_host_commands.md R150). -/
theorem BlockInv.writePal {s : State} (h : BlockInv s) (i : BitVec 8) (c : Colour) :
    BlockInv { s with pal := Mem.write s.pal i.toNat c } := by
  refine ⟨h.params, h.bits, h.lzw, h.dict, h.frame, h.flags, h.render, ?_, h.queue, h.blits⟩
  refine ⟨h.mem.1, h.mem.2.1, h.mem.2.2.1, h.mem.2.2.2.1, Mem.wf_write h.mem.2.2.2.2.1 _ _, ?_⟩
  intro e he
  rcases Mem.mem_write he with rfl | he
  · exact i.isLt
  · exact h.mem.2.2.2.2.2 e he

/-- A change of the Bit Reader that keeps its own invariants. -/
theorem BlockInv.bitReader {s : State} (h : BlockInv s) {r : BitReader} {q : List Byte}
    (hq : q.length ≤ s.params.inqDepth) (h1 : r.bitCnt.toNat ≤ 19)
    (h2 : r.bitBuf.toNat < 2 ^ r.bitCnt.toNat) : BlockInv { s with br := r, inq := q } :=
  ⟨h.params, ⟨h1, h2⟩, h.lzw, h.dict, h.frame, h.flags, h.render, h.mem, hq, h.blits⟩

/-- EXTRACT keeps the invariant (40_bit_reader.md R82). -/
theorem BlockInv.extract {s : State} (h : BlockInv s) (hc : s.lzw.codeWidth.toNat ≤ s.br.bitCnt.toNat) :
    BlockInv (extract s) := by
  have h1 : (Machine.extract s).br.bitCnt.toNat ≤ 19 := by
    rw [extract_bitCnt hc]; have := h.bits.1; omega
  exact h.bitReader h.queue h1 (extract_clean hc h.bits.2)

/-- FILL keeps the invariant (R81). -/
theorem BlockInv.fill {s : State} (h : BlockInv s) (hp : s.flags.phase = .decoding)
    (hc : s.br.bitCnt.toNat < s.lzw.codeWidth.toNat) {b : Byte} {rest : List Byte}
    (hq : s.inq = b :: rest) : BlockInv { s with inq := rest, br := fillByte b s.br } := by
  have hw := (h.active hp).width
  have h11 : s.br.bitCnt.toNat ≤ 11 := by omega
  have hql : rest.length ≤ s.params.inqDepth := by
    have := h.queue; rw [hq] at this; simp only [List.length_cons] at this; omega
  refine h.bitReader hql ?_ (fillByte_clean b h11 h.bits.2)
  rw [fillByte_bitCnt b h11]; omega

/-- Stop with a cause the frame agrees with (60_exceptions.md R170, R166). -/
theorem BlockInv.stop {s : State} (h : BlockInv s) (hp : s.flags.phase = .decoding) {c : Cause}
    (hn : c ≠ .none) (hc : c = .count → s.frame.idxCount.toNat = s.frame.expected.toNat) :
    BlockInv (stop c s) := by
  have hd : s.snkTaken = 0 := h.render.2.1 (by rw [hp]; decide)
  have hf := h.frame.2.2.2.2 hp
  have hrs : s.flags.renSkip = false := by
    have h1 := h.flags.2.2.2.1 (by rw [hp]; decide)
    have h2 := h.flags.2.2.2.2.1
    rcases hrs : s.flags.renSkip with _ | _
    · rfl
    · rw [h2 hrs] at h1; cases h1
  refine ⟨h.params, h.bits, ?_, h.dict, ?_, ?_, ?_, h.mem, h.queue, h.blits⟩
  · exact .inr (h.active hp)
  · exact ⟨h.frame.1, h.frame.2.1, h.frame.2.2.1, h.frame.2.2.2.1, fun hh => by cases hh⟩
  · refine ⟨⟨fun _ => hn, fun _ => rfl⟩, (fun hh => by cases hh), (fun _ => rfl), (fun hh => absurd rfl hh), ?_, hc,
      fun _ => hf⟩
    intro hh
    have : s.flags.renSkip = true := hh
    rw [hrs] at this; cases this
  · exact ⟨h.render.1, fun _ => hd, fun hh => by cases hh⟩

/-- `1 + floor(log2(n))` is the width in bits. -/
theorem log2_bounds {n : Nat} (h : n ≠ 0) : 2 ^ Nat.log2 n ≤ n ∧ n < 2 ^ (Nat.log2 n + 1) :=
  ⟨Nat.log2_self_le h, Nat.lt_log2_self⟩

theorem log2_eq {n k : Nat} (h1 : 2 ^ k ≤ n) (h2 : n < 2 ^ (k + 1)) : Nat.log2 n = k := by
  have hn : n ≠ 0 := by have := Nat.two_pow_pos k; omega
  have := log2_bounds hn
  have a : Nat.log2 n < k + 1 := (Nat.pow_lt_pow_iff_right (by omega)).1 (lt_of_le_of_lt this.1 h2)
  have b : k < Nat.log2 n + 1 := (Nat.pow_lt_pow_iff_right (by omega)).1 (lt_of_le_of_lt h1 this.2)
  omega

/-- The initial registers of a decode are those of one (R92, R93). -/
theorem lzwActive_initial {z : Lzw} (h1 : 2 ≤ z.decMcs.toNat) (h2 : z.decMcs.toNat ≤ 8)
    (h3 : z.nextCode = BitVec.ofNat 13 (2 ^ z.decMcs.toNat + 2)) (h4 : z.codeWidth = z.decMcs + 1)
    (h5 : z.prevValid = false) : LzwActive z ∧
      z.nextCode.toNat = 2 ^ z.decMcs.toNat + 2 ∧ z.codeWidth.toNat = z.decMcs.toNat + 1 := by
  have hlo : 2 ^ 2 ≤ 2 ^ z.decMcs.toNat := Nat.pow_le_pow_right (by omega) h1
  have hhi : 2 ^ z.decMcs.toNat ≤ 2 ^ 8 := Nat.pow_le_pow_right (by omega) h2
  have hn : z.nextCode.toNat = 2 ^ z.decMcs.toNat + 2 := by
    rw [h3, BitVec.toNat_ofNat, Nat.mod_eq_of_lt]; omega
  have hw : z.codeWidth.toNat = z.decMcs.toNat + 1 := by
    rw [h4, BitVec.toNat_add]; show (_ + 1) % 2 ^ 4 = _; omega
  have hl : Nat.log2 z.nextCode.toNat = z.decMcs.toNat := by
    apply log2_eq
    · omega
    · rw [hn, Nat.pow_succ]; omega
  refine ⟨⟨h1, h2, by omega, by omega, by rw [hw, hl]; omega, fun h => by rw [h5] at h; cases h⟩, hn, hw⟩

/-- The initial dictionary meets R93 item 2. -/
theorem entryOk_initial {m c : Nat} (h2 : m ≤ 8) (hc : c < 2 ^ m + 2) :
    entryOk m c (Mem.read (initDict m) c) = true := by
  have hhi : 2 ^ m ≤ 2 ^ 8 := Nat.pow_le_pow_right (by omega) h2
  rw [read_initDict]
  split
  · next h =>
    have hb : (BitVec.ofNat 8 c).toNat = c := by
      rw [BitVec.toNat_ofNat, Nat.mod_eq_of_lt]; omega
    simp only [entryOk, List.length_nil, List.all_cons, List.all_nil, Bool.and_true,
      Bool.and_eq_true, bne_iff_ne, decide_eq_true_eq, Bool.or_eq_true, beq_iff_eq]
    rw [hb]
    omega
  · next h =>
    simp only [entryOk, Bool.or_eq_true, beq_iff_eq]
    omega

/-- DictReset in a decode keeps the invariant and leaves the initial dictionary (R92, R95). -/
theorem BlockInv.dictReset {s : State} (h : BlockInv s) (hp : s.flags.phase = .decoding) :
    BlockInv (dictReset s) := by
  have ha := h.active hp
  obtain ⟨hz, hn, _⟩ := lzwActive_initial (z := (Machine.dictReset s).lzw) ha.1 ha.2.1 rfl rfl rfl
  refine ⟨h.params, h.bits, .inr hz, ?_, h.frame, h.flags, h.render, ?_, h.queue, h.blits⟩
  · intro c hc
    rw [hn] at hc
    exact entryOk_initial ha.2.1 hc
  · refine ⟨initDict_wf _, fun e he => ?_, h.mem.2.2⟩
    have := lt_of_mem_initDict he
    have hhi : 2 ^ s.lzw.decMcs.toNat ≤ 2 ^ 8 := Nat.pow_le_pow_right (by omega) ha.2.1
    show e.1 < 4096
    omega

/-- START_DECODE, accepted, sets up a state that meets the invariant (43_host_commands.md R145). -/
theorem BlockInv.startDecode {s : State} (h : BlockInv s) (hp : s.flags.phase = .idle)
    (h1 : 2 ≤ s.cfg.mcs.toNat) (h2 : s.cfg.mcs.toNat ≤ 8)
    (h3 : s.cfg.w.toNat * s.cfg.h.toNat ≤ s.params.idxCap) : BlockInv (startDecode s) := by
  obtain ⟨hz, hn, _⟩ := lzwActive_initial (z := (Machine.startDecode s).lzw) h1 h2 rfl rfl rfl
  have hmul : s.cfg.w.toNat * s.cfg.h.toNat ≤ 65535 * 65535 :=
    Nat.mul_le_mul (by have := s.cfg.w.isLt; omega) (by have := s.cfg.h.isLt; omega)
  have hex : (Machine.startDecode s).frame.expected.toNat = s.cfg.w.toNat * s.cfg.h.toNat := by
    show (BitVec.ofNat 32 _).toNat = _
    rw [BitVec.toNat_ofNat, Nat.mod_eq_of_lt]; omega
  have hsnk : s.snkTaken = 0 := h.render.2.1 (by rw [hp]; decide)
  refine ⟨h.params, bitsOk_reset rfl, .inr hz, ?_, ?_, ?_, ?_, ?_, Nat.zero_le _, h.blits⟩
  · intro c hc
    rw [hn] at hc
    exact entryOk_initial h2 hc
  · refine ⟨hex, by rw [hex]; exact h3, Nat.zero_le _, fun a ha => absurd ha (Nat.not_lt_zero a), ?_⟩
    intro _
    show 0 < _ ∨ _
    omega
  · refine ⟨by simp, fun _ => rfl, ?_, fun _ => rfl, ?_, ?_, ?_⟩ <;> simp
  · exact ⟨Nat.zero_le _, fun _ => hsnk, fun hh => by cases hh⟩
  · refine ⟨initDict_wf _, fun e he => ?_, h.mem.2.2⟩
    have : e.1 < 2 ^ s.cfg.mcs.toNat + 2 := lt_of_mem_initDict he
    have hhi : 2 ^ s.cfg.mcs.toNat ≤ 2 ^ 8 := Nat.pow_le_pow_right (by omega) h2
    show e.1 < 4096
    omega

/-- SOFT_RESET keeps the invariant (43_host_commands.md R144). -/
theorem BlockInv.softReset {s : State} (h : BlockInv s) : BlockInv (softReset s) := by
  refine ⟨h.params, bitsOk_reset rfl, .inl ⟨rfl, fun hh => by cases hh⟩,
    fun c hc => absurd hc (Nat.not_lt_zero c), ?_, ?_, ?_, ?_, Nat.zero_le _, h.blits⟩
  · refine ⟨rfl, Nat.zero_le _, Nat.zero_le _, fun a ha => absurd ha (Nat.not_lt_zero a), by simp [Flags.reset]⟩
  · refine ⟨?_, ?_, ?_, ?_, ?_, ?_, ?_⟩ <;> simp [Flags.reset]
  · exact ⟨Nat.zero_le _, fun _ => rfl, fun hh => by cases hh⟩
  · exact h.mem

/-- Hardware reset keeps the invariant (70_reset_and_hazards.md R185). -/
theorem BlockInv.hardwareReset {s : State} (h : BlockInv s) : BlockInv (hardwareReset s) := by
  refine ⟨h.params, bitsOk_reset rfl, .inl ⟨rfl, fun hh => by cases hh⟩,
    fun c hc => absurd hc (Nat.not_lt_zero c), ?_, ?_, ?_, ?_, Nat.zero_le _, h.blits⟩
  · refine ⟨rfl, Nat.zero_le _, Nat.zero_le _, fun a ha => absurd ha (Nat.not_lt_zero a), by simp [Flags.reset]⟩
  · refine ⟨?_, ?_, ?_, ?_, ?_, ?_, ?_⟩ <;> simp [Flags.reset]
  · exact ⟨Nat.zero_le _, fun _ => rfl, fun hh => by cases hh⟩
  · refine ⟨by simp [Mem.wf], ?_, by simp [Mem.wf, Memory.wf], ?_, by simp [Mem.wf], ?_⟩ <;> simp

/-- Where a width is the number of bits of NEXT_CODE, Widen keeps it so (R93 item 3, R102). -/
theorem widen_width {n w m : Nat} (h1 : 2 ^ m + 2 ≤ n) (h2 : n < 4096)
    (hw : w = min 12 (max (m + 1) (1 + Nat.log2 n))) :
    (if n + 1 = 2 ^ w ∧ w < 12 then w + 1 else w) =
      min 12 (max (m + 1) (1 + Nat.log2 (n + 1))) := by
  have hn : n ≠ 0 := by clear hw; have := Nat.two_pow_pos m; omega
  obtain ⟨b1, b2⟩ := log2_bounds hn
  have hml : m ≤ Nat.log2 n := by
    have h3 : 2 ^ m < 2 ^ (Nat.log2 n + 1) := lt_trans (show 2 ^ m < n by omega) b2
    have : m < Nat.log2 n + 1 := (Nat.pow_lt_pow_iff_right (by omega)).1 h3
    omega
  have hl : Nat.log2 n < 12 := by
    have : 2 ^ Nat.log2 n < 2 ^ 12 := lt_of_le_of_lt b1 (by omega)
    exact (Nat.pow_lt_pow_iff_right (a := 2) (by omega)).1 this
  have hw' : w = Nat.log2 n + 1 := by omega
  by_cases hpow : n + 1 = 2 ^ (Nat.log2 n + 1)
  · have : Nat.log2 (n + 1) = Nat.log2 n + 1 := by
      apply log2_eq
      · omega
      · rw [hpow]; exact Nat.pow_lt_pow_right (by omega) (by omega)
    rw [this, hw']
    split <;> omega
  · have : Nat.log2 (n + 1) = Nat.log2 n := by
      apply log2_eq
      · omega
      · omega
    rw [this, hw', if_neg (fun h => hpow h.1)]
    omega

/-- A data code keeps the invariant: the entry it emits is below `clear` byte by byte, and `cur` is a
data code below the NEXT_CODE it leaves (R93). -/
theorem BlockInv.dataCode {s t : State} {first : Byte} {rest : List Byte} {cur : Code} (h : BlockInv s)
    (hp : s.flags.phase = .decoding) (hb : first.toNat < 2 ^ s.lzw.decMcs.toNat)
    (hcur : cur.toNat < s.lzw.nextCode.toNat ∨
      s.lzw.prevValid = true ∧ cur.toNat = s.lzw.nextCode.toNat ∧ s.lzw.nextCode.toNat < 4096)
    (hc1 : cur.toNat ≠ 2 ^ s.lzw.decMcs.toNat) (hc2 : cur.toNat ≠ 2 ^ s.lzw.decMcs.toNat + 1)
    (ht : dataCode first rest cur s = .next t) : BlockInv t := by
  have ha := h.active hp
  have hbd := ha.bounds
  obtain ⟨p, ps, hpe⟩ : ∃ p ps, s.lzw.prevValid = true →
      Mem.read s.dict s.lzw.prevCode.toNat = some (.str p ps) := by
    by_cases hv : s.lzw.prevValid = true
    · obtain ⟨p, ps, e⟩ := prev_str ha h.dict hv; exact ⟨p, ps, fun _ => e⟩
    · exact ⟨0, [], fun hv' => absurd hv' hv⟩
  obtain ⟨t', ht', heff⟩ := dataCode_spec (first := first) (rest := rest) (cur := cur) h.room ha hpe
  have : t' = t := by rw [ht'] at ht; injection ht
  subst this
  have hmem := dataCode_mem ht' h.mem
  obtain ⟨hem, hfr, hall, hif⟩ := heff
  have hex : t'.frame.expected = s.frame.expected := by rw [hfr]
  have hdw : t'.frame.decW = s.frame.decW := by rw [hfr]
  have hdh : t'.frame.decH = s.frame.decH := by rw [hfr]
  have hrr : t'.frame.renRow = s.frame.renRow := by rw [hfr]
  have hpar : t'.params = s.params := by rw [hall]
  have hcfg : t'.cfg = s.cfg := by rw [hall]
  have hbr : t'.br = s.br := by rw [hall]
  have hinq : t'.inq = s.inq := by rw [hall]
  have hsnk : t'.snkTaken = s.snkTaken := by rw [hall]
  have hout : t'.sinkOut = s.sinkOut := by rw [hall]
  have hsnk0 : s.snkTaken = 0 := h.render.2.1 (by rw [hp]; decide)
  have hle : t'.frame.idxCount.toNat ≤ s.frame.expected.toNat := by rw [hem.1]; omega
  have hge : s.frame.idxCount.toNat ≤ t'.frame.idxCount.toNat := by
    rw [hem.1]; have := h.frame.2.2.1; omega
  have hsome : ∀ a, a < t'.frame.idxCount.toNat → (Mem.read t'.idxmem a).isSome = true := by
    intro a hlt
    by_cases hs : a < s.frame.idxCount.toNat
    · rw [hem.2.2 a (.inl hs)]; exact h.frame.2.2.2.1 a hs
    · have hlen : a - s.frame.idxCount.toNat < (first :: rest).length := by rw [hem.1] at hlt; omega
      have := hem.2.1 (a - s.frame.idxCount.toNat) _ (List.getElem?_eq_getElem hlen) (by omega)
      rw [show s.frame.idxCount.toNat + (a - s.frame.idxCount.toNat) = a by omega] at this
      rw [this]; rfl
  have hrs : s.flags.renSkip = false := by
    have h1 := h.flags.2.2.2.1 (by rw [hp]; decide)
    have h2 := h.flags.2.2.2.2.1
    rcases hrs : s.flags.renSkip with _ | _
    · rfl
    · rw [h2 hrs] at h1; cases h1
  have hdd : s.flags.decDone = false := h.flags.2.1 hp
  have hdc : s.flags.decCause = .none := by
    by_contra hne; rw [h.flags.1.2 hne] at hdd; cases hdd
  have hrd : s.flags.renDone = false := h.flags.2.2.2.1 (by rw [hp]; decide)
  -- the flags and what they say of the frame
  have hflags : (t'.flags = s.flags ∧ t'.frame.idxCount.toNat < s.frame.expected.toNat) ∨
      (t'.flags = StoppedFlags .count s.flags ∧
        s.frame.expected.toNat ≤ t'.frame.idxCount.toNat) ∨
      t'.flags = StoppedFlags .dictFull s.flags := by
    split at hif
    · exact .inr (.inr hif.2.2)
    · have := hif.2.2.2.2
      split at this
      · next hh => exact .inr (.inl ⟨this, hh⟩)
      · next hh => exact .inl ⟨this, by omega⟩
  have hlzw : LzwActive t'.lzw ∧ ∀ c, c < t'.lzw.nextCode.toNat →
      entryOk t'.lzw.decMcs.toNat c (Mem.read t'.dict c) = true := by
    split at hif
    · rw [hif.2.1, hif.1]; exact ⟨ha, h.dict⟩
    · next hnf =>
      obtain ⟨e1, e2, e3, e4, _⟩ := hif
      split at e4
      · next hv =>
        obtain ⟨d1, d2, d3, d4⟩ := e4
        have hlt : s.lzw.nextCode.toNat < 4096 := by
          have : s.lzw.nextCode.toNat ≠ 4096 := fun hh => hnf ⟨hv, hh⟩
          omega
        refine ⟨⟨by rw [e1]; exact ha.1, by rw [e1]; exact ha.2.1, by rw [e1, d3]; omega,
          by omega, ?_, fun _ => ?_⟩, ?_⟩
        · rw [d4, d3, e1]
          exact widen_width ha.2.2.1 hlt ha.2.2.2.2.1
        · rw [e1, e3, d3]
          exact ⟨by omega, hc1, hc2⟩
        · intro c hc
          rw [e1]
          by_cases hcn : c = s.lzw.nextCode.toNat
          · subst hcn
            rw [d1]
            obtain ⟨hpl, hp1, hp2⟩ := ha.2.2.2.2.2 hv
            obtain ⟨b, bs, f1, f2, f3, _⟩ := h.dict.str hpl hp1 hp2
            rw [hpe hv] at f1
            simp only [Option.some.injEq, DictEntry.str.injEq] at f1
            obtain ⟨rfl, rfl⟩ := f1
            simp only [entryOk, List.length_append, List.length_cons, List.length_nil,
              Bool.and_eq_true, bne_iff_ne, ne_eq, decide_eq_true_eq, List.all_eq_true,
              Bool.or_eq_true, beq_iff_eq]
            refine ⟨⟨⟨⟨by omega, by omega⟩, by omega⟩, ?_⟩, .inl (by omega)⟩
            intro x hx
            simp only [List.mem_cons, List.mem_append, List.not_mem_nil, or_false] at hx
            rcases hx with hx | hx | hx
            · exact f3 x (by simp [hx])
            · exact f3 x (by simp [hx])
            · rw [hx]; exact hb
          · rw [d2 c hcn]
            exact h.dict c (by omega)
      · next hv =>
        obtain ⟨d1, d2, d3⟩ := e4
        refine ⟨⟨by rw [e1]; exact ha.1, by rw [e1]; exact ha.2.1, by rw [e1, d2]; exact ha.2.2.1,
          by rw [d2]; exact ha.2.2.2.1, by rw [d3, e1, d2]; exact ha.2.2.2.2.1, fun _ => ?_⟩, ?_⟩
        · rw [e3, d2, e1]
          refine ⟨?_, hc1, hc2⟩
          rcases hcur with hh | hh
          · exact hh
          · exact absurd hh.1 hv
        · intro c hc
          rw [d1, e1]; rw [d2] at hc
          exact h.dict c hc
  refine ⟨by rw [hpar]; exact h.params, ⟨by rw [hbr]; exact h.bits.1, by rw [hbr]; exact h.bits.2⟩,
    .inr hlzw.1, hlzw.2, ?_, ?_, ?_, hmem, by rw [hinq, hpar]; exact h.queue,
    by rw [hout]; exact h.blits⟩
  · refine ⟨by rw [hex, hdw, hdh]; exact h.frame.1, by rw [hex, hpar]; exact h.frame.2.1,
      by rw [hex]; exact hle, hsome, ?_⟩
    intro hph
    rcases hflags with ⟨hf, hlt⟩ | ⟨hf, _⟩ | hf
    · rw [hex]; exact .inl hlt
    · rw [hf] at hph; cases hph
    · rw [hf] at hph; cases hph
  · rcases hflags with ⟨hf, hlt⟩ | ⟨hf, hge'⟩ | hf
    · unfold FlagsOk
      rw [hf, hdd, hdc, hp, hrd, hrs]
      simp
    · unfold FlagsOk
      rw [hf, hex]
      simp only [StoppedFlags, hrs]
      simp
      omega
    · unfold FlagsOk
      rw [hf, hex]
      simp only [StoppedFlags, hrs]
      simp
  · refine ⟨by rw [hrr, hdh]; exact h.render.1, fun _ => by rw [hsnk]; exact hsnk0, ?_⟩
    intro hph
    rcases hflags with ⟨hf, _⟩ | ⟨hf, _⟩ | hf <;> rw [hf] at hph
    · rw [hp] at hph; cases hph
    · cases hph
    · cases hph

end Sys2Proof.Machine
end

