-- ==== Sys2Proof/Laws/Chunk.lean ====
section
/-! SUPPORT. Laws/Chunk.lean: one chunk of a render: its pixels, its bytes, its rectangle, and the
invariant across it (42_palette_mapper.md R125 to R129). -/

namespace Sys2Proof.Machine

/-! ### Pixels -/

/-- Resolve answers a colour, or faults on an entry below PAL_SIZE that was never written (R125;
20_memory.md R42). -/
theorem resolve_cases {s : State} (h : FrameOk s) (p : Nat) :
    (∃ c, resolve s p = .ok c) ∨
    (∃ i, resolve s p = .error (.palUnwritten i) ∧ i < s.cfg.palSize.toNat ∧ i < 256 ∧
      Mem.read s.pal i = none) := by
  unfold resolve
  split
  · exact .inl ⟨_, rfl⟩
  · next hlt =>
    split
    · next hn =>
      have := h.2.2.2.1 p (by omega)
      rw [hn] at this; cases this
    · next idx _ =>
      split
      · exact .inl ⟨_, rfl⟩
      · split
        · next hps =>
          unfold readPal
          split
          · exact .inl ⟨_, rfl⟩
          · next hr => exact .inr ⟨_, rfl, hps, idx.isLt, hr⟩
        · exact .inl ⟨_, rfl⟩

/-- With the palette loaded Resolve always answers (70_reset_and_hazards.md R193). -/
theorem resolve_ok {s : State} (h : FrameOk s) (hp : PaletteLoaded s) (p : Nat) :
    ∃ c, resolve s p = .ok c := by
  rcases resolve_cases h p with hc | ⟨i, _, h1, h2, h3⟩
  · exact hc
  · have := hp i h2 h1
    rw [h3] at this; cases this

theorem packAll_cases {s : State} (h : FrameOk s) (ps : List Nat) :
    (∃ bs, packAll s ps = .ok bs) ∨
    (∃ i, packAll s ps = .error (.palUnwritten i) ∧ i < s.cfg.palSize.toNat ∧ i < 256 ∧
      Mem.read s.pal i = none) := by
  induction ps with
  | nil => exact .inl ⟨[], rfl⟩
  | cons p ps ih =>
    rcases resolve_cases h p with ⟨c, hc⟩ | ⟨i, hi, hr⟩
    · rcases ih with ⟨bs, hb⟩ | ⟨i, hi, hr⟩
      · exact .inl ⟨pack c ++ bs, by simp only [packAll, hc, hb]⟩
      · exact .inr ⟨i, by simp only [packAll, hc, hi], hr⟩
    · exact .inr ⟨i, by simp only [packAll, hi], hr⟩

theorem packAll_ok {s : State} (h : FrameOk s) (hp : PaletteLoaded s) (ps : List Nat) :
    ∃ bs, packAll s ps = .ok bs := by
  rcases packAll_cases h ps with hc | ⟨i, _, h1, h2, h3⟩
  · exact hc
  · have := hp i h2 h1
    rw [h3] at this; cases this

/-- Pack gives two bytes a pixel (R126). -/
theorem packAll_length {s : State} {ps : List Nat} {bs : List Byte} (h : packAll s ps = .ok bs) :
    bs.length = 2 * ps.length := by
  induction ps generalizing bs with
  | nil => simp only [packAll, Except.ok.injEq] at h; subst h; rfl
  | cons p ps ih =>
    simp only [packAll] at h
    split at h
    · cases h
    · split at h
      · cases h
      · next bytes hb =>
        simp only [Except.ok.injEq] at h; subst h
        simp only [pack, List.length_append, List.length_cons, List.length_nil, ih hb]
        omega

/-- The bytes of pixel `q` of a list of pixels, high byte first (R126; 20_memory.md R45). -/
theorem packAll_getElem? {s : State} {ps : List Nat} {bs : List Byte} (h : packAll s ps = .ok bs)
    {q p : Nat} (hq : ps[q]? = some p) :
    ∃ c, resolve s p = .ok c ∧ bs[2 * q]? = some (c.extractLsb' 8 8) ∧
      bs[2 * q + 1]? = some (c.extractLsb' 0 8) := by
  induction ps generalizing bs q with
  | nil => simp at hq
  | cons p' ps ih =>
    simp only [packAll] at h
    split at h
    · cases h
    · next c hc =>
      split at h
      · cases h
      · next bytes hb =>
        simp only [Except.ok.injEq] at h; subst h
        cases q with
        | zero =>
          simp only [List.getElem?_cons_zero, Option.some.injEq] at hq
          subst hq
          exact ⟨c, hc, by simp [pack], by simp [pack]⟩
        | succ q =>
          obtain ⟨d, h1, h2, h3⟩ := ih hb (by simpa using hq)
          refine ⟨d, h1, ?_, ?_⟩
          · rw [show 2 * (q + 1) = 2 * q + 2 by omega]; simpa [pack] using h2
          · rw [show 2 * (q + 1) + 1 = (2 * q + 1) + 2 by omega]; simpa [pack] using h3

/-- Pixels in two lists one after the other. -/
theorem packAll_append {s : State} {ps qs : List Nat} {bs cs : List Byte}
    (h1 : packAll s ps = .ok bs) (h2 : packAll s qs = .ok cs) :
    packAll s (ps ++ qs) = .ok (bs ++ cs) := by
  induction ps generalizing bs with
  | nil => simp only [packAll, Except.ok.injEq] at h1; subst h1; exact h2
  | cons p ps ih =>
    simp only [packAll] at h1
    split at h1
    · cases h1
    · next c hc =>
      split at h1
      · cases h1
      · next bytes hb =>
        simp only [Except.ok.injEq] at h1; subst h1
        simp only [List.cons_append, packAll, hc, ih hb, List.append_assoc]

/-- What pixels a colour depends on: the configuration, IDX_COUNT, IDXMEM and PAL, no cursor. -/
theorem packAll_congr {s t : State} (h1 : t.cfg = s.cfg) (h2 : t.idxmem = s.idxmem)
    (h3 : t.pal = s.pal) (h4 : t.frame.idxCount = s.frame.idxCount) (ps : List Nat) :
    packAll t ps = packAll s ps := by
  have hr : ∀ p, resolve t p = resolve s p := by
    intro p; unfold resolve readPal; rw [h1, h2, h3, h4]
  induction ps with
  | nil => rfl
  | cons p ps ih => simp only [packAll, hr, ih]

/-! ### Addresses -/

/-- Element `q` of rows of `w` laid end to end. -/
theorem getElem?_rows (f : Nat → Nat → Nat) (w n q : Nat) (h : q < n * w) :
    ((List.range n).flatMap fun j => (List.range w).map (f j))[q]? = some (f (q / w) (q % w)) := by
  have hw : 0 < w := by
    rcases Nat.eq_zero_or_pos w with rfl | h'
    · simp at h
    · exact h'
  induction n with
  | zero => simp at h
  | succ n ih =>
    rw [List.range_succ, List.flatMap_append]
    have hlen : ((List.range n).flatMap fun j => (List.range w).map (f j)).length = n * w := by
      simp [List.length_flatMap]
    by_cases hq : q < n * w
    · rw [List.getElem?_append_left (by rw [hlen]; exact hq)]
      exact ih hq
    · have hge : n * w ≤ q := Nat.le_of_not_lt hq
      have hlt : q - n * w < w := by rw [Nat.succ_mul] at h; omega
      have hdiv : q / w = n := by
        rw [Nat.div_eq_iff hw]
        rw [Nat.succ_mul] at h
        omega
      have hmod : q % w = q - n * w := by
        have := Nat.div_add_mod q w
        rw [hdiv, Nat.mul_comm w n] at this
        omega
      rw [List.getElem?_append_right (by rw [hlen]; exact hge), hlen]
      simp only [List.flatMap_cons, List.flatMap_nil, List.append_nil, List.getElem?_map,
        List.getElem?_range hlt, Option.map_some]
      rw [hdiv, hmod]

/-- A chunk has `rows * DEC_W` pixels (R127). -/
theorem chunkAddrs_length (s : State) :
    (chunkAddrs s).length = chunkRows s * s.frame.decW.toNat := by
  simp [chunkAddrs, List.length_flatMap]

/-- The address of pixel `q` of a chunk. -/
theorem chunkAddrs_getElem? {s : State} {q : Nat} (h : q < chunkRows s * s.frame.decW.toNat) :
    (chunkAddrs s)[q]? = some (chunkAddr s q) :=
  getElem?_rows (fun j x => srcRow s (s.frame.renRow.toNat + j) * s.frame.decW.toNat + x) _ _ q h

/-! ### The rectangle and the cursor -/

/-- The rows of a chunk never pass the end of the frame (R127). -/
theorem chunkRows_le (s : State) : chunkRows s ≤ s.frame.decH.toNat - s.frame.renRow.toNat :=
  Nat.min_le_right _ _

/-- While PHASE = RENDERING a chunk has at least one row (R127). -/
theorem chunkRows_pos {s : State} (h : RenderOk s) (hp : s.flags.phase = .rendering) :
    1 ≤ chunkRows s := by
  obtain ⟨_, h2, h3, _⟩ := h.2.2 hp
  simp only [chunkRows]; omega

/-- REN_ROW after the chunk, as a number. -/
theorem renRow_add_chunkRows (s : State) (h : s.frame.renRow.toNat ≤ s.frame.decH.toNat) :
    (s.frame.renRow + BitVec.ofNat 16 (chunkRows s)).toNat =
      s.frame.renRow.toNat + chunkRows s := by
  have := chunkRows_le s
  have := s.frame.decH.isLt
  rw [BitVec.toNat_add, BitVec.toNat_ofNat]
  omega

/-- The rectangle of a chunk, as numbers (R128). -/
theorem chunk_rect {s : State} (h : RenderOk s) (hp : s.flags.phase = .rendering) :
    (chunkX0 s).toNat = s.cfg.destX.toNat + s.cfg.frameX.toNat ∧
    (chunkY0 s).toNat =
      s.cfg.destY.toNat + s.cfg.frameY.toNat + s.frame.renRow.toNat ∧
    (chunkX1 s).toNat = s.cfg.destX.toNat + s.cfg.frameX.toNat + s.frame.decW.toNat - 1 ∧
    (chunkY1 s).toNat =
      s.cfg.destY.toNat + s.cfg.frameY.toNat + s.frame.renRow.toNat + chunkRows s - 1 := by
  obtain ⟨h1, h2, _, _, h5, h6, _⟩ := h.2.2 hp
  have := chunkRows_pos h hp
  have := chunkRows_le s
  have := s.frame.decH.isLt
  have one : (1 : BitVec 16).toNat = 1 := rfl
  simp only [chunkX0, chunkY0, chunkX1, chunkY1, BitVec.toNat_add, BitVec.toNat_sub,
    BitVec.toNat_ofNat, one]
  refine ⟨?_, ?_, ?_, ?_⟩ <;> omega

/-- The blit of a chunk meets the sink contract (30_encoding.md R72). -/
theorem chunkBlit_ok {s : State} (h : RenderOk s) (hp : s.flags.phase = .rendering) {b : Blit}
    (hb : chunkBlit s = .ok b) : b.ok ∧ b.x0 = chunkX0 s ∧ b.y0 = chunkY0 s ∧ b.x1 = chunkX1 s ∧
      b.y1 = chunkY1 s ∧ packAll s (chunkAddrs s) = .ok b.bytes := by
  unfold chunkBlit at hb
  split at hb
  · cases hb
  · next bytes hpk =>
    simp only [Except.ok.injEq] at hb
    subst hb
    obtain ⟨e1, e2, e3, e4⟩ := chunk_rect h hp
    obtain ⟨h1, _⟩ := h.2.2 hp
    have hr := chunkRows_pos h hp
    refine ⟨⟨?_, ?_, ?_⟩, rfl, rfl, rfl, rfl, hpk⟩
    · show (chunkX0 s).toNat ≤ (chunkX1 s).toNat; omega
    · show (chunkY0 s).toNat ≤ (chunkY1 s).toNat; omega
    · show bytes.length = 2 * ((chunkX1 s).toNat - (chunkX0 s).toNat + 1) *
        ((chunkY1 s).toNat - (chunkY0 s).toNat + 1)
      rw [packAll_length hpk, chunkAddrs_length,
        show (chunkX1 s).toNat - (chunkX0 s).toNat + 1 = s.frame.decW.toNat by omega,
        show (chunkY1 s).toNat - (chunkY0 s).toNat + 1 = chunkRows s by omega,
        Nat.mul_comm (chunkRows s), Nat.mul_assoc]

/-- The chunk's blit, or a fault on a palette entry that was never written. -/
theorem chunkBlit_cases {s : State} (h : FrameOk s) :
    (∃ b, chunkBlit s = .ok b) ∨
    (∃ i, chunkBlit s = .error (.palUnwritten i) ∧ i < s.cfg.palSize.toNat ∧ i < 256 ∧
      Mem.read s.pal i = none) := by
  unfold chunkBlit
  rcases packAll_cases h (chunkAddrs s) with ⟨bs, hb⟩ | ⟨i, hi, hr⟩
  · rw [hb]; exact .inl ⟨_, rfl⟩
  · rw [hi]; exact .inr ⟨i, rfl, hr⟩

theorem chunkEnabled_iff {s : State} : chunkEnabled s = true ↔
    s.flags.phase = .rendering ∧ s.frame.renRow.toNat < s.frame.decH.toNat := by
  simp [chunkEnabled]

/-- While PHASE = RENDERING the CHUNK step is the enabled one (30_encoding.md R75). -/
theorem chunkEnabled_of {s : State} (h : RenderOk s) (hp : s.flags.phase = .rendering) :
    chunkEnabled s = true := chunkEnabled_iff.2 ⟨hp, (h.2.2 hp).2.1⟩

/-- A finished CHUNK step keeps the invariant (R127, R129). -/
theorem BlockInv.chunkDone {s : State} (h : BlockInv s) (hp : s.flags.phase = .rendering) {b : Blit}
    (hb : chunkBlit s = .ok b) : BlockInv (chunkDone b s) := by
  have hrow := renRow_add_chunkRows s h.render.1
  have hle := chunkRows_le s
  have hpos := chunkRows_pos h.render hp
  obtain ⟨r1, r2, r3, r4, r5, r6, _⟩ := h.render.2.2 hp
  have hfl := h.flags
  have hph : (Machine.chunkDone b s).flags.phase ≠ .decoding := by
    show (if _ then _ else _ : Flags).phase ≠ _
    split
    · exact fun hh => by cases hh
    · rw [hp]; exact fun hh => by cases hh
  refine ⟨h.params, h.bits, ?_, h.dict, ?_, ?_, ?_, h.mem, h.queue, ?_⟩
  · rcases h.lzw with hz | hz
    · exact .inl ⟨hz.1, hph⟩
    · exact .inr hz
  · exact ⟨h.frame.1, h.frame.2.1, h.frame.2.2.1, h.frame.2.2.2.1, fun hh => absurd hh hph⟩
  · show (_ ∧ _)
    have hd : s.flags.decDone = true := hfl.2.2.1 hp
    by_cases hrow' : s.frame.renRow + BitVec.ofNat 16 (chunkRows s) = s.frame.decH
    · have hf : (Machine.chunkDone b s).flags =
          { s.flags with renDone := true, phase := .idle } := if_pos hrow'
      rw [hf]
      exact ⟨hfl.1, (fun hh => by cases hh), (fun _ => hd), (fun hh => absurd rfl hh),
        fun _ => rfl, hfl.2.2.2.2.2.1, hfl.2.2.2.2.2.2⟩
    · have hf : (Machine.chunkDone b s).flags = s.flags := if_neg hrow'
      rw [hf]
      exact hfl
  · have hlt : (Machine.chunkDone b s).frame.renRow.toNat = s.frame.renRow.toNat + chunkRows s :=
      hrow
    refine ⟨?_, fun _ => rfl, fun hh => ?_⟩
    · rw [hlt]; show _ ≤ s.frame.decH.toNat; omega
    · have hne : s.frame.renRow + BitVec.ofNat 16 (chunkRows s) ≠ s.frame.decH := by
        intro he
        have hf : (Machine.chunkDone b s).flags =
          { s.flags with renDone := true, phase := .idle } := if_pos he
        rw [hf] at hh; cases hh
      have hlt' : s.frame.renRow.toNat + chunkRows s < s.frame.decH.toNat := by
        have : s.frame.renRow.toNat + chunkRows s ≠ s.frame.decH.toNat := by
          intro he; exact hne (BitVec.eq_of_toNat_eq (by rw [hrow]; exact he))
        omega
      refine ⟨r1, by rw [hlt]; exact hlt', r3, r4, r5, r6, ?_⟩
      show 0 < 2 * (min s.cfg.chunkH.toNat (s.frame.decH.toNat -
        (Machine.chunkDone b s).frame.renRow.toNat) * s.frame.decW.toNat)
      rw [hlt]
      have : 0 < min s.cfg.chunkH.toNat
          (s.frame.decH.toNat - (s.frame.renRow.toNat + chunkRows s)) := by omega
      have := Nat.mul_pos this r1
      omega
  · intro b' hb'
    simp only [chunkDone_sinkOut, List.mem_append, List.mem_singleton] at hb'
    rcases hb' with hb' | rfl
    · exact h.blits b' hb'
    · exact (chunkBlit_ok h.render hp hb).1

end Sys2Proof.Machine
end

