-- ==== Sys2Proof/Laws/Exec.lean ====
section
/-! SUPPORT. Laws/Exec.lean: what the code classes and CODE can do, all at once, and the invariant
across every instruction. -/

namespace Sys2Proof.Machine

/-- The parameters of this machine are in the ranges of 00_scope.md R7. -/
theorem params_ok : Config.params.ok = true := by
  have h1 : 1 ≤ Config.params.idxCap := Nat.le_add_right 1 _
  have h2 : Config.params.idxCap ≤ Config.idxCapMax := by
    have := Nat.mod_lt Config.idxCapChoice (show Config.idxCapMax > 0 by decide)
    show 1 + Config.idxCapChoice % Config.idxCapMax ≤ Config.idxCapMax
    omega
  have h3 : 1 ≤ Config.params.inqDepth := Nat.le_add_right 1 _
  simp [Params.ok, h1, h2, h3]

/-- A CODE step that completes is the step of one code class after EXTRACT
(41_lzw_decompressor.md R94). -/
theorem execCode_cases {s t : State} (h : execCode s = .next t) : codeEnabled s = true ∧
   ∃ i : Instr, i.format = .code ∧ exec i (extract s) = .next t := by
  unfold execCode at h
  split at h
  · next he =>
    refine ⟨he, ?_⟩
    split at h
    · exact ⟨.clear, rfl, h⟩
    · exact ⟨.endCode, rfl, h⟩
    · exact ⟨.known _, rfl, h⟩
    · exact ⟨.kwkwk, rfl, h⟩
    · exact ⟨.invalid _, rfl, h⟩
  · cases h

/-- Everything a data code can change, and the flags it leaves (R100 to R105). -/
theorem dataCode_frame {first : Byte} {rest cur} {s t : State} (h : dataCode first rest cur s = .next t) :
    t = { s with flags := t.flags, frame := { s.frame with idxCount := t.frame.idxCount }, idxmem := t.idxmem, dict := t.dict, lzw := t.lzw } ∧
    t.lzw.decMcs = s.lzw.decMcs ∧
    (t.flags = s.flags ∨ t.flags = StoppedFlags .count s.flags ∨ t.flags = StoppedFlags .dictFull s.flags) := by
  unfold dataCode at h
  split at h
  · cases h
  · next u hu =>
    have hfr := emit_frame hu
    have hfl : u.flags = s.flags := by rw [hfr]
    have hlz : u.lzw = s.lzw := by rw [hfr]
    split at h
    · split at h
      · injection h with h; subst h
        refine ⟨?_, ?_, .inr (.inr ?_)⟩
        · rw [hfr]; rfl
        · rw [← hlz]; rfl
        · rw [← hfl]; rfl
      · split at h
        · cases h
        · unfold append at h
          split at h
          · cases h
          · next v hv =>
            split at hv
            · next hlt =>
              injection hv with hv; injection h with h
              subst hv; subst h
              rw [countCutoff_eq]
              refine ⟨?_, ?_, ?_⟩
              · rw [hfr]; rfl
              · show (widen _).decMcs = _; rw [widen_decMcs, ← hlz]
              · show (if _ then _ else _ : Flags) = _ ∨ _
                split
                · right; left; show StoppedFlags _ u.flags = _; rw [hfl]
                · left; exact hfl
            · cases hv
    · injection h with h; subst h; rw [countCutoff_eq]
      refine ⟨?_, ?_, ?_⟩
      · rw [hfr]; rfl
      · rw [← hlz]; rfl
      · show (if _ then _ else _ : Flags) = _ ∨ _
        split
        · right; left; show StoppedFlags _ u.flags = _; rw [hfl]
        · left; exact hfl

/-- Everything a code class can change, and when it is in force (R95 to R99). -/
theorem codeClass_frame {i : Instr} (hi : i.format = .code) {s t : State} (h : exec i s = .next t) :
    s.flags.phase = .decoding ∧
    t = { s with flags := t.flags, frame := { s.frame with idxCount := t.frame.idxCount }, idxmem := t.idxmem, dict := t.dict, lzw := t.lzw } ∧
    t.lzw.decMcs = s.lzw.decMcs ∧
    (t.flags = s.flags ∨ ∃ c, c ≠ .none ∧ t.flags = StoppedFlags c s.flags) := by
  cases i <;> simp [Instr.format] at hi <;> simp only [exec] at h
  · unfold execClear at h
    split at h
    · next he => injection h with h; subst h; exact ⟨(classInForce_iff.1 he).1, rfl, rfl, .inl rfl⟩
    · cases h
  · unfold execEnd at h
    split at h
    · next he => injection h with h; subst h; exact ⟨(classInForce_iff.1 he).1, rfl, rfl, .inr ⟨.end_, by simp, rfl⟩⟩
    · cases h
  · unfold execKnown at h
    split at h
    · next he =>
      split at h
      · cases h
      · obtain ⟨h1, h2, h3⟩ := dataCode_frame h
        refine ⟨(classInForce_iff.1 he).1, h1, h2, ?_⟩
        rcases h3 with h3 | h3 | h3
        · exact .inl h3
        · exact .inr ⟨_, by simp, h3⟩
        · exact .inr ⟨_, by simp, h3⟩
    · cases h
  · unfold execKwkwk at h
    split at h
    · next he =>
      split at h
      · cases h
      · obtain ⟨h1, h2, h3⟩ := dataCode_frame h
        refine ⟨(classInForce_iff.1 he).1, h1, h2, ?_⟩
        rcases h3 with h3 | h3 | h3
        · exact .inl h3
        · exact .inr ⟨_, by simp, h3⟩
        · exact .inr ⟨_, by simp, h3⟩
    · cases h
  · unfold execInvalid at h
    split at h
    · next he => injection h with h; subst h; exact ⟨(classInForce_iff.1 he).1, rfl, rfl, .inr ⟨.badCode, by simp, rfl⟩⟩
    · cases h

/-- A code class keeps the invariant (R93). -/
theorem BlockInv.codeClass {i : Instr} (hi : i.format = .code) {s t : State} (hs : BlockInv s) (h : exec i s = .next t) : BlockInv t := by
  cases i <;> simp [Instr.format] at hi <;> simp only [exec] at h
  · unfold execClear at h
    split at h
    · next he => injection h with h; subst h; exact hs.dictReset (classInForce_iff.1 he).1
    · cases h
  · unfold execEnd at h
    split at h
    · next he => injection h with h; subst h; exact hs.stop (classInForce_iff.1 he).1 (by simp) (by simp)
    · cases h
  · unfold execKnown at h
    split at h
    · next c he =>
      obtain ⟨hp, hc⟩ := classInForce_iff.1 he
      have hcl := classify_cases s c
      rw [hc] at hcl
      split at h
      · cases h
      · next b bs hr =>
        obtain ⟨h1, h2⟩ := read_of_readDict hr
        obtain ⟨b', bs', e, _, hbs, _⟩ := hs.dict.str hcl.1 hcl.2.1 hcl.2.2
        rw [h2] at e
        simp only [Option.some.injEq, DictEntry.str.injEq] at e
        obtain ⟨rfl, rfl⟩ := e
        exact hs.dataCode hp (hbs b (by simp)) (.inl hcl.1) hcl.2.1 hcl.2.2 h
    · cases h
  · unfold execKwkwk at h
    split at h
    · next he =>
      obtain ⟨hp, hc⟩ := classInForce_iff.1 he
      have hcl := classify_cases s (s.lzw.nextCode.setWidth 12)
      rw [hc] at hcl
      have ha := hs.active hp
      have hbd := ha.bounds
      have hlt : s.lzw.nextCode.toNat < 4096 := by
        have := (s.lzw.nextCode.setWidth 12).isLt; omega
      split at h
      · cases h
      · next b bs hr =>
        obtain ⟨h1, h2⟩ := read_of_readDict hr
        obtain ⟨hp1, hp2, hp3⟩ := ha.2.2.2.2.2 hcl.2
        obtain ⟨b', bs', e, _, hbs, _⟩ := hs.dict.str hp1 hp2 hp3
        rw [h2] at e
        simp only [Option.some.injEq, DictEntry.str.injEq] at e
        obtain ⟨rfl, rfl⟩ := e
        exact hs.dataCode hp (hbs b (by simp)) (.inr ⟨hcl.2, hcl.1, hlt⟩) (by omega) (by omega) h
    · cases h
  · unfold execInvalid at h
    split at h
    · next he => injection h with h; subst h; exact hs.stop (classInForce_iff.1 he).1 (by simp) (by simp)
    · cases h

/-- An accepted START_RENDER keeps the invariant (43_host_commands.md R147). -/
theorem BlockInv.startRender {s : State} (h : BlockInv s) (hp : s.flags.phase = .idle) (hd : s.flags.decDone = true)
   (hc : s.cfg.chunkH.toNat ≠ 0) (ho : ¬ coordOverflow s = true) : BlockInv (startRender s) := by
  have hf := h.flags
  have hph : (Machine.startRender s).flags.phase ≠ .decoding := by
    simp only [Machine.startRender]
    repeat' split
    all_goals simp [hp]
  have hsn := h.render.2.1 (by rw [hp]; decide)
  refine ⟨h.params, h.bits, ?_, h.dict, ⟨h.frame.1, h.frame.2.1, h.frame.2.2.1, h.frame.2.2.2.1, fun hh => absurd hh hph⟩, ?_, ?_, h.mem, h.queue, h.blits⟩
  · rcases h.lzw with hz | hz
    · exact .inl ⟨hz.1, hph⟩
    · exact .inr hz
  · unfold FlagsOk Machine.startRender
    obtain ⟨f1, f2, f3, f4, f5, f6, f7⟩ := hf
    dsimp only
    split
    · refine ⟨f1, f2, fun _ => hd, fun hh => absurd hp hh, fun _ => rfl, f6, f7⟩
    · split
      · refine ⟨f1, f2, fun _ => hd, fun hh => absurd hp hh, (fun hh => by cases hh), f6, f7⟩
      · refine ⟨f1, (fun hh => by cases hh), fun _ => hd, fun _ => rfl, (fun hh => by cases hh), f6, f7⟩
  · refine ⟨Nat.zero_le _, fun _ => hsn, ?_⟩
    intro hr
    simp only [Machine.startRender] at hr
    split at hr
    · rw [hp] at hr; cases hr
    · next h0 =>
      split at hr
      · rw [hp] at hr; cases hr
      · next h1 =>
        simp only [coordOverflow, Bool.and_eq_true, decide_eq_true_eq, Bool.or_eq_true] at ho
        have h2 : 1 ≤ s.frame.decW.toNat := by omega
        refine ⟨h2, ?_, ?_, ?_, ?_, ?_, ?_⟩
        · show 0 < s.frame.decH.toNat; omega
        · show 1 ≤ s.cfg.chunkH.toNat; omega
        · show 1 ≤ s.cfg.palSize.toNat; omega
        · show s.cfg.destX.toNat + s.cfg.frameX.toNat + s.frame.decW.toNat - 1 ≤ 65535; omega
        · show s.cfg.destY.toNat + s.cfg.frameY.toNat + s.frame.decH.toNat - 1 ≤ 65535; omega
        · show s.snkTaken < 2 * (min s.cfg.chunkH.toNat (s.frame.decH.toNat - 0) * s.frame.decW.toNat)
          rw [hsn]
          have : 0 < min s.cfg.chunkH.toNat (s.frame.decH.toNat - 0) := by omega
          have := Nat.mul_pos this h2
          omega

/-- What offering a byte does (43_host_commands.md R149). -/
theorem offerByte_cases (b : Byte) (s : State) :
    ((s.flags.phase ≠ .decoding ∨ s.flags.eod = true) ∧ offerByte b s = { s with held := none }) ∨
    (s.flags.phase = .decoding ∧ s.flags.eod = false ∧ s.inq.length < s.params.inqDepth ∧
      offerByte b s = { s with inq := s.inq ++ [b], held := none }) ∨
    (s.flags.phase = .decoding ∧ s.flags.eod = false ∧ s.params.inqDepth ≤ s.inq.length ∧
      offerByte b s = { s with held := some b }) := by
  unfold offerByte
  split
  · next h => exact .inl ⟨h, rfl⟩
  · next h =>
    obtain ⟨hp, he⟩ := not_or.1 h
    rw [not_not] at hp
    have he : s.flags.eod = false := by simpa using he
    split
    · next hq => exact .inr (.inl ⟨hp, he, hq, rfl⟩)
    · next hq => exact .inr (.inr ⟨hp, he, Nat.le_of_not_lt hq, rfl⟩)

/-- Offering a byte keeps the block's own invariant (R149). -/
theorem BlockInv.offerByte {s : State} (h : BlockInv s) (b : Byte) : BlockInv (offerByte b s) := by
  rcases offerByte_cases b s with ⟨_, e⟩ | ⟨_, _, hq, e⟩ | ⟨_, _, _, e⟩ <;> rw [e]
  · exact h.env none s.resetPending s.rdata s.idxRaddr s.hostQ s.sched
  · exact (h.queued (q := s.inq ++ [b]) (by simp; omega)).env none s.resetPending s.rdata
      s.idxRaddr s.hostQ s.sched
  · exact h.env (some b) s.resetPending s.rdata s.idxRaddr s.hostQ s.sched

/-- Every instruction keeps the block's own invariant. -/
theorem BlockInv.exec {i : Instr} {s t : State} (hs : BlockInv s) (h : exec i s = .next t) :
    BlockInv t := by
  cases i <;> simp only [Machine.exec] at h
  case nop => injection h with h; subst h; exact hs
  case softReset =>
    unfold execSoftReset at h
    split at h
    · injection h with h; subst h; exact hs.env s.held true s.rdata s.idxRaddr s.hostQ s.sched
    · injection h with h; subst h; exact hs.softReset
  case startDecode =>
    unfold execStartDecode at h
    split at h
    · injection h with h; subst h; exact hs.refuse _
    · split at h
      · injection h with h; subst h; exact hs.refuse _
      · split at h
        · injection h with h; subst h; exact hs.refuse _
        · injection h with h; subst h
          exact hs.startDecode (by simp_all) (by omega) (by omega) (by omega)
  case endOfData =>
    unfold execEndOfData at h
    split at h
    · injection h with h; subst h; exact hs.refuse _
    · injection h with h; subst h; exact hs.endOfData
  case startRender =>
    unfold execStartRender at h
    split at h
    · injection h with h; subst h; exact hs.refuse _
    · split at h
      · injection h with h; subst h; exact hs.refuse _
      · split at h
        · injection h with h; subst h; exact hs.refuse _
        · split at h
          · injection h with h; subst h; exact hs.refuse _
          · injection h with h; subst h
            exact hs.startRender (by simp_all) (by simp_all) (by assumption) (by assumption)
  case cmdReserved => injection h with h; subst h; exact hs.refuse _
  case fill =>
    unfold execFill at h
    split at h
    · next he =>
      simp only [fillEnabled, Bool.and_eq_true, beq_iff_eq, decide_eq_true_eq] at he
      split at h
      · cases h
      · next hq => injection h with h; subst h; exact hs.fill he.1.1 he.1.2 hq
    · cases h
  case exhaust =>
    unfold execExhaust at h
    split at h
    · next he =>
      simp only [exhaustEnabled, Bool.and_eq_true, beq_iff_eq, decide_eq_true_eq] at he
      injection h with h; subst h; exact hs.stop he.1.1.1 (by simp) (by simp)
    · cases h
  case code =>
    obtain ⟨he, j, hj, h'⟩ := execCode_cases h
    simp only [codeEnabled, Bool.and_eq_true, beq_iff_eq, decide_eq_true_eq] at he
    exact BlockInv.codeClass hj (hs.extract he.2) h'
  case chunk =>
    unfold execChunk at h
    split at h
    · next he =>
      split at h
      · cases h
      · next hb => injection h with h; subst h; exact hs.chunkDone (chunkEnabled_iff.1 he).1 hb
    · cases h
  case clear => exact BlockInv.codeClass (i := .clear) rfl hs h
  case endCode => exact BlockInv.codeClass (i := .endCode) rfl hs h
  case known c => exact BlockInv.codeClass (i := .known c) rfl hs h
  case kwkwk => exact BlockInv.codeClass (i := .kwkwk) rfl hs h
  case invalid c => exact BlockInv.codeClass (i := .invalid c) rfl hs h
  case wrDataIn b => injection h with h; subst h; exact hs.offerByte b
  case wrIdxRaddr a => injection h with h; subst h; exact hs.env s.held s.resetPending s.rdata a s.hostQ s.sched
  case wrPal i c =>
    unfold execWrPal at h
    split at h
    · injection h with h; subst h; exact hs.writePal i c
    · injection h with h; subst h; exact hs
  case wrReserved => injection h with h; subst h; exact hs
  case rd a =>
    unfold execRd at h
    split at h
    · next v _ => injection h with h; subst h; exact hs.env s.held s.resetPending v s.idxRaddr s.hostQ s.sched
    · cases h
  all_goals
    simp only [execWrLzwCfg, execWrFramePos, execWrFrameSize, execWrRenCfg, execWrPalSize,
      execWrBgColor, execWrDestPos, Machine.writeCfg] at h
    split at h
    · next hp => injection h with h; subst h; exact hs.writeCfg hp _
    · injection h with h; subst h; exact hs

end Sys2Proof.Machine
end

