-- ==== Sys2Proof/Laws/Interlace.lean ====
section
/-! SUPPORT. Laws/Interlace.lean: the passes of the interlace order in closed form
(42_palette_mapper.md R122, R123). -/

namespace Sys2Proof.Machine

theorem div_eq_of_rest {n k q r : Nat} (hr : r < k) (h : n = k * q + r) : n / k = q := by
  rw [h, Nat.mul_add_div (by omega), Nat.div_eq_of_lt hr, Nat.add_zero]

/-- One pass: the numbers below `h` that are `a` mod `k`, in order. -/
theorem filter_mod_range {k a : Nat} (ha : a < k) (h : Nat) :
    (List.range h).filter (fun r => r % k = a) =
      (List.range ((h + k - 1 - a) / k)).map (fun i => k * i + a) := by
  have hk : 0 < k := by omega
  induction h with
  | zero =>
    have : (0 + k - 1 - a) / k = 0 := Nat.div_eq_of_lt (by omega)
    rw [this]; rfl
  | succ h ih =>
    rw [List.range_succ, List.filter_append, ih]
    have e := Nat.div_add_mod h k
    have hlt := Nat.mod_lt h hk
    have hs : k * (h / k + 1) = k * (h / k) + k := Nat.mul_succ _ _
    by_cases hm : h % k = a
    · have h1 : (h + k - 1 - a) / k = h / k := div_eq_of_rest (r := k - 1) (by omega) (by omega)
      have h2 : (h + 1 + k - 1 - a) / k = h / k + 1 := div_eq_of_rest (r := 0) hk (by omega)
      rw [h1, h2, List.range_succ, List.map_append, List.map_singleton,
        show k * (h / k) + a = h by omega]
      simp [hm]
    · have h1 : (h + 1 + k - 1 - a) / k = (h + k - 1 - a) / k := by
        rcases Nat.lt_or_ge (h % k) a with hl | hl
        · have h2 : (h + 1 + k - 1 - a) / k = h / k :=
            div_eq_of_rest (r := h % k + k - a) (by omega) (by omega)
          have h3 : (h + k - 1 - a) / k = h / k :=
            div_eq_of_rest (r := h % k + k - 1 - a) (by omega) (by omega)
          rw [h2, h3]
        · have h2 : (h + 1 + k - 1 - a) / k = h / k + 1 :=
            div_eq_of_rest (r := h % k - a) (by omega) (by omega)
          have h3 : (h + k - 1 - a) / k = h / k + 1 :=
            div_eq_of_rest (r := h % k - a - 1) (by omega) (by omega)
          rw [h2, h3]
      rw [h1]
      simp [hm]

/-- The four passes in closed form. -/
theorem ilaceList_eq (h : Nat) : ilaceList h =
    (List.range ((h + 7) / 8)).map (fun i => 8 * i) ++
    (List.range ((h + 3) / 8)).map (fun i => 8 * i + 4) ++
    (List.range ((h + 1) / 4)).map (fun i => 4 * i + 2) ++
    (List.range (h / 2)).map (fun i => 2 * i + 1) := by
  unfold ilaceList
  rw [filter_mod_range (show 0 < 8 by decide), filter_mod_range (show 4 < 8 by decide),
    filter_mod_range (show 2 < 4 by decide), filter_mod_range (show 1 < 2 by decide)]
  rfl

/-- The closed form without the two tests on the height, which the divisions make themselves. -/
theorem ilace_eq (h i : Nat) : ilace h i =
    if i < (h + 7) / 8 then 8 * i
    else if i < (h + 7) / 8 + (h + 3) / 8 then 8 * (i - (h + 7) / 8) + 4
    else if i < (h + 7) / 8 + (h + 3) / 8 + (h + 1) / 4 then
      4 * (i - (h + 7) / 8 - (h + 3) / 8) + 2
    else 2 * (i - (h + 7) / 8 - (h + 3) / 8 - (h + 1) / 4) + 1 := by
  have e2 : (if 4 < h then (h + 3) / 8 else 0) = (h + 3) / 8 := by split <;> omega
  have e3 : (if 2 < h then (h + 1) / 4 else 0) = (h + 1) / 4 := by split <;> omega
  unfold ilace
  rw [e2, e3]

/-- The passes together have all the rows. -/
theorem pass_lengths (h : Nat) : (h + 7) / 8 + (h + 3) / 8 + (h + 1) / 4 + h / 2 = h := by omega

end Sys2Proof.Machine
end

