-- ==== Sys2Proof/Laws/PerInstr.lean ====
section
/-! SUPPORT. Laws/PerInstr.lean: statements made for every instruction, one lemma per
constructor. -/

/-- Every instruction is encoded in its own format (30_encoding.md R60): a command as a write of
CMD, a register write as a write of another offset, a read as a read, a code class as a code, an
engine micro-operation as nothing. -/
def Sys2Proof.Laws.EncodesInItsFormat.Statement (i : Sys2Proof.Instr) : Prop :=
  ∀ x : Sys2Proof.CodeCtx, i.wf = true → (Sys2Proof.encode x i).format = i.format

namespace Sys2Proof.Laws.EncodesInItsFormat

theorem nop : Statement .nop := fun _ _ => rfl
theorem softReset : Statement .softReset := fun _ _ => rfl
theorem startDecode : Statement .startDecode := fun _ _ => rfl
theorem endOfData : Statement .endOfData := fun _ _ => rfl
theorem startRender : Statement .startRender := fun _ _ => rfl
theorem cmdReserved (op : BitVec 8) : Statement (.cmdReserved op) := fun _ _ => rfl
theorem clear : Statement .clear := fun _ _ => rfl
theorem endCode : Statement .endCode := fun _ _ => rfl
theorem known (c : Code) : Statement (.known c) := fun _ _ => rfl
theorem kwkwk : Statement .kwkwk := fun _ _ => rfl
theorem invalid (c : Code) : Statement (.invalid c) := fun _ _ => rfl
theorem fill : Statement .fill := fun _ _ => rfl
theorem exhaust : Statement .exhaust := fun _ _ => rfl
theorem code : Statement .code := fun _ _ => rfl
theorem chunk : Statement .chunk := fun _ _ => rfl
theorem wrLzwCfg (mcs : BitVec 4) : Statement (.wrLzwCfg mcs) := fun _ _ => rfl
theorem wrFramePos (x y : BitVec 16) : Statement (.wrFramePos x y) := fun _ _ => rfl
theorem wrFrameSize (w h : BitVec 16) : Statement (.wrFrameSize w h) := fun _ _ => rfl
theorem wrRenCfg (interlace transpEn : Bool) (transpIdx chunkH : BitVec 8) :
    Statement (.wrRenCfg interlace transpEn transpIdx chunkH) := fun _ _ => rfl
theorem wrPalSize (n : BitVec 9) : Statement (.wrPalSize n) := fun _ _ => rfl
theorem wrBgColor (bg : Colour) : Statement (.wrBgColor bg) := fun _ _ => rfl
theorem wrDestPos (x y : BitVec 16) : Statement (.wrDestPos x y) := fun _ _ => rfl
theorem wrDataIn (b : Byte) : Statement (.wrDataIn b) := fun _ _ => rfl
theorem wrIdxRaddr (a : Word) : Statement (.wrIdxRaddr a) := fun _ _ => rfl

theorem wrPal (i : BitVec 8) (c : Colour) : Statement (.wrPal i c) := by
  intro x _
  have hi := i.isLt
  have hn : regAt (0x400 + 4 * i.toNat) ≠ regAt 0x000 := by
    intro h
    have := congrArg BitVec.toNat h
    simp only [BitVec.toNat_ofNat] at this
    omega
  simp only [encode, writeReq, Encoding.format, Instr.format, hn, Bool.false_eq_true, if_false]

theorem wrReserved (a : RegAddr) (v : Word) : Statement (.wrReserved a v) := by
  intro x h
  have hn : a ≠ regAt 0x000 := by rintro rfl; cases h
  simp only [encode, Encoding.format, Instr.format, hn, Bool.false_eq_true, if_false]

theorem rd (a : RegAddr) : Statement (.rd a) := fun _ _ => rfl

end Sys2Proof.Laws.EncodesInItsFormat
end

