-- ==== Sys2Proof/Laws/Turns.lean ====
section
/-! SUPPORT. Laws/Turns.lean: a step by whose turn it is, and the engine step a state selects
(20_memory.md R51; 30_encoding.md R75). -/

namespace Sys2Proof.Machine

/-- A step whose turn the schedule names. -/
theorem step_cons {s : State} {t : Turn} {q : List Turn} (h : s.sched = t :: q) :
    step s = takeTurn t { s with sched := q } := by
  have h1 : nextTurn s = t := by simp [nextTurn, h]
  have h2 : dropTurn s = { s with sched := q } := by simp [dropTurn, h]
  rw [step, h1, h2]

/-- A step where the schedule has run out: the engine's if a step is enabled, else the host's. -/
theorem step_nil {s : State} (h : s.sched = []) :
    step s = if (engineSelect s).isSome then engineTurn s else hostTurn s := by
  have h2 : dropTurn s = s := by
    have : s.sched.tail = s.sched := by simp [h]
    unfold dropTurn; rw [this]
  rw [step, h2]
  by_cases he : (engineSelect s).isSome = true
  · simp [nextTurn, h, he, takeTurn]
  · simp [nextTurn, h, he, takeTurn]

theorem core_run_succ (M : Host.Core) {s t : M.State} (h : M.step s = .next t) (k : Nat) :
    M.run (k + 1) s = M.run k t := by
  rw [Host.Core.run, h]

theorem core_run_succ_inv (M : Host.Core) {s u : M.State} {k : Nat} (h : M.run (k + 1) s = .next u) :
    ∃ t, M.step s = .next t ∧ M.run k t = .next u := by
  rw [Host.Core.run] at h
  split at h
  · next t ht => exact ⟨t, ht, h⟩
  · cases h
  · cases h

/-- A run whose first step completes. -/
theorem run_succ {s t : State} (h : step s = .next t) (k : Nat) :
    Host.Core.run core (k + 1) s = Host.Core.run core k t :=
  core_run_succ core h k

/-- A run that completes has a first step that does. -/
theorem run_succ_inv {s u : State} {k : Nat} (h : Host.Core.run core (k + 1) s = .next u) :
    ∃ t, step s = .next t ∧ Host.Core.run core k t = .next u :=
  core_run_succ_inv core h

/-! ### What waits at the port -/

/-- Nothing waits: an engine step's state is as the step left it. -/
theorem settle_none {s : State} (hr : s.resetPending = false) (hh : s.held = none) :
    settle s = s := by
  simp [settle, hr, hh]

/-- A held DATA_IN write is offered again (43_host_commands.md R149). -/
theorem settle_held {s : State} {b : Byte} (hr : s.resetPending = false) (hh : s.held = some b) :
    settle s = offerByte b s := by
  simp [settle, hr, hh]

/-- A SOFT_RESET that has waited for the blit takes effect (R144). -/
theorem settle_pending {s : State} (hr : s.resetPending = true) : settle s = softReset s := by
  simp [settle, hr]

/-- A port at which nothing waits. -/
theorem PortOk.of_none {s : State} (hh : s.held = none) (hr : s.resetPending = false) : PortOk s :=
  ⟨fun h => absurd hh h, fun h => by rw [hr] at h; cases h⟩

/-- After an offer a byte is held only where the port's invariant lets it be. -/
theorem PortOk.offerByte {s : State} (hr : s.resetPending = false) (b : Byte) :
    PortOk (offerByte b s) := by
  rcases offerByte_cases b s with ⟨_, e⟩ | ⟨_, _, _, e⟩ | ⟨h1, h2, h3, e⟩ <;> rw [e]
  · exact .of_none rfl hr
  · exact .of_none rfl hr
  · exact ⟨fun _ => ⟨h1, h2, h3⟩, fun h => by rw [show _ = false from hr] at h; cases h⟩

/-- Whatever an engine step left waiting, afterwards the port's invariant holds. -/
theorem PortOk.settle {s : State} (h : s.resetPending = true → s.held = none) :
    PortOk (settle s) := by
  rcases hr : s.resetPending with _ | _
  · rcases hh : s.held with _ | b
    · rw [settle_none hr hh]; exact .of_none hh hr
    · rw [settle_held hr hh]; exact PortOk.offerByte hr b
  · rw [settle_pending hr]; exact .of_none (h hr) rfl

/-! ### The host's turn -/

/-- The host's turn with nothing held and an access waiting. -/
theorem hostTurn_cons {s : State} {r : PortReq} {rest : List PortReq} (hh : s.held = none)
    (hq : s.hostQ = r :: rest) (hw : s.resetPending = false) :
    hostTurn s = exec (decodeRequest r) { s with hostQ := rest } := by
  simp [hostTurn, hh, hq, beforeAccess, hw]

/-- The host's turn with no access to make. -/
theorem hostTurn_nil {s : State} (hq : s.hostQ = []) : hostTurn s = .next s := by
  unfold hostTurn
  split
  · rfl
  · rw [hq]

/-- The host's turn with a SOFT_RESET waiting for the blit: the engine's step comes first (log 8). -/
theorem hostTurn_pending {s t : State} {r : PortReq} {rest : List PortReq} (hh : s.held = none)
    (hq : s.hostQ = r :: rest) (hw : s.resetPending = true) (ht : engineTurn s = .next t) :
    hostTurn s = exec (decodeRequest r) { t with hostQ := rest } := by
  simp [hostTurn, hh, hq, beforeAccess, hw, ht]

/-- The host's turn with a DATA_IN write held (43_host_commands.md R149). -/
theorem hostTurn_held {s : State} {b : Byte} (hh : s.held = some b) : hostTurn s = .next s := by
  simp only [hostTurn, hh]

/-- An engine turn that completes took the selected step and did what waited, or there was none to
take. -/
theorem engineTurn_cases {s t : State} (h : engineTurn s = .next t) :
    (∃ i u, engineSelect s = some i ∧ exec i s = .next u ∧ t = settle u) ∨
    (engineSelect s = none ∧ t = s) := by
  unfold engineTurn at h
  split at h
  · next i hi =>
    rcases he : exec i s with u | f | e <;> rw [he] at h
    · injection h with h; exact .inl ⟨i, u, hi, he, h.symm⟩
    · cases h
    · cases h
  · next hi => injection h with h; exact .inr ⟨hi, h.symm⟩

/-- While no SOFT_RESET waits and nothing is held, an engine turn is the selected step, where that
step leaves both so. -/
theorem afterStep_none {r : Result} (h : ∀ t, r = .next t → t.resetPending = false ∧ t.held = none) :
    afterStep r = r := by
  rcases r with t | f | e
  · obtain ⟨h1, h2⟩ := h t rfl
    show Host.Outcome.next (settle t) = _
    rw [settle_none h1 h2]
  · rfl
  · rfl

/-- The step each state selects (30_encoding.md R75). -/
theorem engineSelect_eq (s : State) : engineSelect s =
    match s.flags.phase with
    | .idle => none
    | .decoding =>
      if s.lzw.codeWidth.toNat ≤ s.br.bitCnt.toNat then some .code
      else if s.inq ≠ [] then some .fill
      else if s.flags.eod then some .exhaust else none
    | .rendering => if s.frame.renRow.toNat < s.frame.decH.toNat then some .chunk else none := by
  rcases hp : s.flags.phase with _ | _ | _
  · simp [engineSelect, fillEnabled, exhaustEnabled, codeEnabled, chunkEnabled, hp]
  · by_cases hc : s.lzw.codeWidth.toNat ≤ s.br.bitCnt.toNat
    · simp [engineSelect, fillEnabled, exhaustEnabled, codeEnabled, hp, hc, Nat.not_lt.2 hc]
    · rcases hq : s.inq with _ | ⟨b, q⟩
      · simp [engineSelect, fillEnabled, exhaustEnabled, codeEnabled, chunkEnabled, hp, hc, hq,
          Nat.lt_of_not_le hc]
      · simp [engineSelect, fillEnabled, hp, hc, hq, Nat.lt_of_not_le hc]
  · simp [engineSelect, fillEnabled, exhaustEnabled, codeEnabled, chunkEnabled, hp]

/-- What is selected is a micro-operation. -/
theorem engineSelect_format {s : State} {i : Instr} (h : engineSelect s = some i) :
    i = .fill ∨ i = .exhaust ∨ i = .code ∨ i = .chunk := by
  unfold engineSelect at h
  repeat' split at h
  all_goals simp_all

/-- An engine step leaves the port to `settle` (R75: the engine has no access to it). -/
theorem engine_port {i : Instr} {s t : State}
    (hi : i = .fill ∨ i = .exhaust ∨ i = .code ∨ i = .chunk) (h : exec i s = .next t) :
    t.held = s.held ∧ t.resetPending = s.resetPending ∧ t.hostQ = s.hostQ ∧ t.sched = s.sched := by
  rcases hi with rfl | rfl | rfl | rfl
  · change execFill s = _ at h
    unfold execFill at h
    split at h
    · split at h
      · cases h
      · injection h with h; subst h; exact ⟨rfl, rfl, rfl, rfl⟩
    · cases h
  · change execExhaust s = _ at h
    unfold execExhaust at h
    split at h
    · injection h with h; subst h; exact ⟨rfl, rfl, rfl, rfl⟩
    · cases h
  · obtain ⟨_, i, hi, he⟩ := execCode_cases h
    obtain ⟨_, e, _⟩ := codeClass_frame hi he
    rw [e]; exact ⟨rfl, rfl, rfl, rfl⟩
  · change execChunk s = _ at h
    unfold execChunk at h
    split at h
    · split at h
      · cases h
      · injection h with h; subst h; exact ⟨rfl, rfl, rfl, rfl⟩
    · cases h

/-- The engine's turn with nothing waiting at the port is the selected step. -/
theorem engineTurn_some {s : State} {i : Instr} (h : engineSelect s = some i)
    (hr : s.resetPending = false) (hh : s.held = none) : engineTurn s = exec i s := by
  simp only [engineTurn, h]
  refine afterStep_none fun t ht => ?_
  obtain ⟨h1, h2, _⟩ := engine_port (engineSelect_format h) ht
  exact ⟨h2.trans hr, h1.trans hh⟩

/-- `transferring`, spelled out. -/
theorem transferring_iff {s : State} : transferring s = true ↔
    s.flags.phase = .rendering ∧ s.frame.renRow.toNat < s.frame.decH.toNat ∧ s.snkTaken ≠ 0 := by
  simp [transferring, chunkEnabled, and_assoc]

/-- An instruction executed while nothing waits at the port leaves something waiting there only as the
port's invariant lets it: SOFT_RESET during a blit, DATA_IN with INQ full. -/
theorem PortOk.exec {i : Instr} {s t : State} (hh : s.held = none) (hr : s.resetPending = false)
    (h : exec i s = .next t) : PortOk t := by
  have key : t.held = s.held ∧ t.resetPending = s.resetPending → PortOk t :=
    fun e => .of_none (e.1.trans hh) (e.2.trans hr)
  cases i
  case softReset =>
    change execSoftReset s = _ at h
    unfold execSoftReset at h
    split at h
    · next ht =>
      injection h with h; subst h
      exact ⟨fun h => absurd hh h,
        fun _ => ⟨(transferring_iff.1 ht).1, (transferring_iff.1 ht).2.2⟩⟩
    · injection h with h; subst h; exact .of_none hh rfl
  case wrDataIn b => injection h with h; subst h; exact PortOk.offerByte hr b
  case fill =>
    obtain ⟨h1, h2, _⟩ := engine_port (.inl rfl) h
    exact key ⟨h1, h2⟩
  case exhaust =>
    obtain ⟨h1, h2, _⟩ := engine_port (.inr (.inl rfl)) h
    exact key ⟨h1, h2⟩
  case code =>
    obtain ⟨h1, h2, _⟩ := engine_port (.inr (.inr (.inl rfl))) h
    exact key ⟨h1, h2⟩
  case chunk =>
    obtain ⟨h1, h2, _⟩ := engine_port (.inr (.inr (.inr rfl))) h
    exact key ⟨h1, h2⟩
  case clear | endCode | kwkwk | known | invalid =>
    obtain ⟨_, e, _⟩ := codeClass_frame rfl h
    exact key (by rw [e]; exact ⟨rfl, rfl⟩)
  case nop | cmdReserved | wrIdxRaddr | wrReserved => injection h with h; subst h; exact key ⟨rfl, rfl⟩
  case startDecode =>
    change execStartDecode s = _ at h
    unfold execStartDecode at h
    repeat' split at h
    all_goals (injection h with h; subst h; exact key ⟨rfl, rfl⟩)
  case endOfData =>
    change execEndOfData s = _ at h
    unfold execEndOfData at h
    split at h <;> (injection h with h; subst h; exact key ⟨rfl, rfl⟩)
  case startRender =>
    change execStartRender s = _ at h
    unfold execStartRender at h
    repeat' split at h
    all_goals (injection h with h; subst h; exact key ⟨rfl, rfl⟩)
  case wrPal i c =>
    change execWrPal i c s = _ at h
    unfold execWrPal at h
    split at h <;> (injection h with h; subst h; exact key ⟨rfl, rfl⟩)
  case rd a =>
    change execRd a s = _ at h
    unfold execRd at h
    split at h
    · injection h with h; subst h; exact key ⟨rfl, rfl⟩
    · cases h
  all_goals
    simp only [Machine.exec, execWrLzwCfg, execWrFramePos, execWrFrameSize, execWrRenCfg,
      execWrPalSize, execWrBgColor, execWrDestPos, Machine.writeCfg] at h
    split at h <;> (injection h with h; subst h; exact key ⟨rfl, rfl⟩)

end Sys2Proof.Machine
end

