-- ==== Sys2Proof/Laws/Render.lean ====
section
/-! SUPPORT. Laws/Render.lean: a render as a sequence of CHUNK steps: the rows a chunk covers, one
chunk completing, and how the chunks join (42_palette_mapper.md R127, R129, R132). -/

namespace Sys2Proof.Machine

/-- The addresses of `n` output rows from row `a` on, left to right. -/
def rowAddrs (s : State) (a n : Nat) : List Nat :=
  (List.range n).flatMap fun j =>
    (List.range s.frame.decW.toNat).map fun x => srcRow s (a + j) * s.frame.decW.toNat + x

theorem chunkAddrs_eq (s : State) :
    chunkAddrs s = rowAddrs s s.frame.renRow.toNat (chunkRows s) := rfl

/-- The whole image is all the rows from row 0 on. -/
theorem imageBytes_eq (s : State) :
    imageBytes s = packAll s (rowAddrs s 0 s.frame.decH.toNat) := by
  simp only [imageBytes, rowAddrs, Nat.zero_add]

/-- Rows one after another. -/
theorem rowAddrs_add (s : State) (a m n : Nat) :
    rowAddrs s a (m + n) = rowAddrs s a m ++ rowAddrs s (a + m) n := by
  simp only [rowAddrs, List.range_add, List.flatMap_append, List.flatMap_map, Nat.add_assoc]

/-- The rows of a frame do not depend on how far its render has got. -/
theorem rowAddrs_congr {s t : State} (h1 : t.cfg = s.cfg) (h2 : t.frame.decW = s.frame.decW)
    (h3 : t.frame.decH = s.frame.decH) (a n : Nat) : rowAddrs t a n = rowAddrs s a n := by
  unfold rowAddrs srcRow
  rw [h1, h2, h3]

/-- The blit on offer depends on the configuration, the frame, IDXMEM and PAL only: not on who moves
next, nor on how much of it the sink has taken. -/
theorem chunkBlit_congr {s t : State} (h1 : t.cfg = s.cfg) (h2 : t.frame = s.frame)
    (h3 : t.idxmem = s.idxmem) (h4 : t.pal = s.pal) : chunkBlit t = chunkBlit s := by
  have hr : chunkRows t = chunkRows s := by unfold chunkRows; rw [h1, h2]
  have ha : chunkAddrs t = chunkAddrs s := by
    unfold chunkAddrs srcRow; rw [hr, h1, h2]
  have hp := packAll_congr h1 h3 h4 (by rw [h2]) (chunkAddrs s)
  unfold chunkBlit chunkY1 chunkX1 chunkY0 chunkX0
  rw [ha, hr, h1, h2, hp]

/-- So do the blits still to come (R132). -/
theorem renderFrom_congr (k : Nat) : ∀ s t : State, t.cfg = s.cfg → t.frame = s.frame →
    t.idxmem = s.idxmem → t.pal = s.pal → renderFrom k t = renderFrom k s := by
  induction k with
  | zero => intros; rfl
  | succ k ih =>
    intro s t h1 h2 h3 h4
    have hr : chunkRows t = chunkRows s := by unfold chunkRows; rw [h1, h2]
    simp only [renderFrom, chunkBlit_congr h1 h2 h3 h4, hr, h2]
    split
    · split
      · rfl
      · rw [ih { s with frame := { s.frame with
            renRow := s.frame.renRow + BitVec.ofNat 16 (chunkRows s) } }
          { t with frame := { s.frame with
            renRow := s.frame.renRow + BitVec.ofNat 16 (chunkRows s) } } h1 rfl h3 h4]
    · rfl

/-- At `REN_ROW = DEC_H` there is no more to come. -/
theorem renderFrom_done (k : Nat) {s : State} (h : s.frame.decH.toNat ≤ s.frame.renRow.toNat) :
    renderFrom k s = .ok [] := by
  cases k with
  | zero => rfl
  | succ k => simp [renderFrom, Nat.not_lt.2 h]

/-- Before it, the chunk on offer comes first, and the rest from the state the CHUNK step leaves. -/
theorem renderFrom_chunk (k : Nat) {s : State} {b : Blit} {bs : List Blit}
    (h : s.frame.renRow.toNat < s.frame.decH.toNat) (hb : chunkBlit s = .ok b)
    (hk : renderFrom k (chunkDone b s) = .ok bs) : renderFrom (k + 1) s = .ok (b :: bs) := by
  have hk := (renderFrom_congr k (chunkDone b s) { s with frame := { s.frame with
    renRow := s.frame.renRow + BitVec.ofNat 16 (chunkRows s) } } rfl rfl rfl rfl).trans hk
  simp only [renderFrom, h, if_true, hb, hk]

/-- With the palette loaded a CHUNK step completes (R127). -/
theorem execChunk_next {s : State} (h : BlockInv s) (hp : s.flags.phase = .rendering)
    (hpl : PaletteLoaded s) :
    ∃ b, chunkBlit s = .ok b ∧ exec .chunk s = .next (chunkDone b s) := by
  rcases chunkBlit_cases h.frame with ⟨b, hb⟩ | ⟨i, _, h1, h2, h3⟩
  · refine ⟨b, hb, ?_⟩
    show execChunk s = _
    rw [execChunk, if_pos (chunkEnabled_of h.render hp), hb]
  · have := hpl i h2 h1
    rw [h3] at this; cases this

/-- While PHASE = RENDERING, with the schedule run out and nothing waiting at the port, a step is the
CHUNK step. -/
theorem step_rendering {s : State} (hs : s.sched = []) (hp : s.flags.phase = .rendering)
    (hr : s.frame.renRow.toNat < s.frame.decH.toNat) (hw : s.resetPending = false)
    (hh : s.held = none) : step s = exec .chunk s := by
  have he : engineSelect s = some .chunk := by rw [engineSelect_eq, hp]; simp [hr]
  rw [step_nil hs, he]
  simp only [Option.isSome_some, if_true, engineTurn_some he hw hh]

/-- Whether a finished CHUNK step was the last, and what it leaves (R129). -/
theorem chunkDone_flags (b : Blit) {s : State} (h : s.frame.renRow.toNat ≤ s.frame.decH.toNat) :
    (chunkDone b s).frame.renRow.toNat = s.frame.renRow.toNat + chunkRows s ∧
    (chunkDone b s).flags =
      if s.frame.renRow.toNat + chunkRows s = s.frame.decH.toNat then
        { s.flags with renDone := true, phase := .idle } else s.flags := by
  have hrow := renRow_add_chunkRows s h
  refine ⟨hrow, ?_⟩
  have : (s.frame.renRow + BitVec.ofNat 16 (chunkRows s) = s.frame.decH) ↔
      s.frame.renRow.toNat + chunkRows s = s.frame.decH.toNat := by
    rw [← hrow]
    exact ⟨fun e => by rw [e], fun e => BitVec.eq_of_toNat_eq e⟩
  simp only [chunkDone, this]

end Sys2Proof.Machine
end

