-- ==== Sys2Proof/Tests/Slice0.lean ====
section
/-! SUPPORT. Tests/Slice0.lean: the model's own tests. Expected results are taken from the spec
(95_test_vectors.md by the vector's name, or worked by hand from the rule named); nothing here is a
statement for the provers. -/

namespace Sys2Proof.Tests

open Sys2Proof.Machine

/-! ### Well-formedness: each check refuses an ill-formed term (30_encoding.md R63, R66) -/

theorem test_wf_reserved_command :
    (Instr.cmdReserved 4).wf = false ∧ (Instr.cmdReserved 5).wf = true ∧
    (Instr.cmdReserved 0xFF).wf = true := by decide

theorem test_wf_reserved_write :
    (Instr.wrReserved 0x000 1).wf = false ∧ (Instr.wrReserved 0x012 1).wf = false ∧
    (Instr.wrReserved 0x100 1).wf = false ∧ (Instr.wrReserved 0x1FF 1).wf = false ∧
    (Instr.wrReserved 0x001 1).wf = true ∧ (Instr.wrReserved 0x013 1).wf = true ∧
    (Instr.wrReserved 0x200 1).wf = true := by decide

theorem test_wf_invalid_code :
    (Instr.invalid 5).wf = false ∧ (Instr.invalid 6).wf = true := by decide

/-- The context right after a CLEAR with `M = 2` (R92). -/
def fresh : CodeCtx := { decMcs := 2, codeWidth := 3, nextCode := 6, prevValid := false }

/-- The same with a previous entry. -/
def fresh' : CodeCtx := { fresh with prevValid := true }

theorem test_wf_context :
    fresh.ok = true ∧ { fresh with decMcs := 1 }.ok = false ∧ { fresh with decMcs := 9 }.ok = false ∧
    { fresh with nextCode := 5 }.ok = false ∧ { fresh with codeWidth := 2 }.ok = false ∧
    { fresh with nextCode := 8 }.ok = false ∧
    { fresh with nextCode := 4096, codeWidth := 12 }.ok = true ∧
    { fresh with nextCode := 4096, codeWidth := 13 }.ok = false ∧
    { fresh with nextCode := 4097, codeWidth := 12 }.ok = false := by decide

theorem test_wf_in_context :
    (Instr.known 4).wfIn fresh = false ∧ (Instr.known 5).wfIn fresh = false ∧
    (Instr.known 6).wfIn fresh = false ∧ (Instr.known 3).wfIn fresh = true ∧
    (Instr.kwkwk).wfIn fresh = false ∧ (Instr.kwkwk).wfIn fresh' = true ∧
    (Instr.kwkwk).wfIn { fresh' with nextCode := 4096, codeWidth := 12 } = false ∧
    (Instr.invalid 6).wfIn fresh' = false ∧ (Instr.invalid 6).wfIn fresh = true ∧
    (Instr.invalid 8).wfIn fresh = false ∧ (Instr.cmdReserved 4).wfIn fresh = false := by decide

/-! ### Decoding: words written out from the spec's encodings -/

/-- A write of word `v` to word index `a`. -/
def w (a : RegAddr) (v : Word) : Encoding := .request { read := false, addr := a, wdata := v }

/-- The command codes, 30_encoding.md R66; bits 31..8 are ignored (R65). -/
theorem test_decode_commands :
    decode fresh (w 0 0x00000000) = .ok .nop ∧ decode fresh (w 0 0x00000001) = .ok .softReset ∧
    decode fresh (w 0 0x00000002) = .ok .startDecode ∧
    decode fresh (w 0 0x00000003) = .ok .endOfData ∧
    decode fresh (w 0 0x00000004) = .ok .startRender ∧
    decode fresh (w 0 0xABCDEF04) = .ok .startRender ∧
    decode fresh (w 0 0x00000005) = .ok (.cmdReserved 5) ∧
    decode fresh (w 0 0x000001FF) = .ok (.cmdReserved 0xFF) := by decide

/-- P1 and P2 of 95_test_vectors.md give the words of FRAME_SIZE, DEST_POS, FRAME_POS, REN_CFG, PAL;
the offsets are those of 10_state.md R16, divided by 4 (R37). -/
theorem test_decode_register_writes :
    decode fresh (w 0x002 0xFFFFFFF3) = .ok (.wrLzwCfg 3) ∧
    decode fresh (w 0x003 0x00060005) = .ok (.wrFramePos 5 6) ∧
    decode fresh (w 0x004 0x000A0002) = .ok (.wrFrameSize 2 10) ∧
    decode fresh (w 0x005 0x00040303) = .ok (.wrRenCfg true true 3 4) ∧
    decode fresh (w 0x005 0xFF08FFFC) = .ok (.wrRenCfg false false 0xFF 8) ∧
    decode fresh (w 0x006 0xFFFFFF00) = .ok (.wrPalSize 0x100) ∧
    decode fresh (w 0x007 0xFFFFBEEF) = .ok (.wrBgColor 0xBEEF) ∧
    decode fresh (w 0x008 0x0014000A) = .ok (.wrDestPos 10 20) ∧
    decode fresh (w 0x009 0xFFFFFF86) = .ok (.wrDataIn 0x86) ∧
    decode fresh (w 0x012 0x80000002) = .ok (.wrIdxRaddr 0x80000002) := by decide

theorem test_decode_palette_and_reserved :
    decode fresh (w 0x100 0x00001234) = .ok (.wrPal 0 0x1234) ∧
    decode fresh (w 0x1FF 0xFFFFABCD) = .ok (.wrPal 255 0xABCD) ∧
    decode fresh (w 0x001 0x7) = .ok (.wrReserved 0x001 7) ∧
    decode fresh (w 0x00A 0) = .ok (.wrReserved 0x00A 0) ∧
    decode fresh (w 0x013 0) = .ok (.wrReserved 0x013 0) ∧
    decode fresh (w 0x0FF 0) = .ok (.wrReserved 0x0FF 0) ∧
    decode fresh (w 0x200 0) = .ok (.wrReserved 0x200 0) ∧
    decode fresh (.request { read := true, addr := 0x3FF, wdata := 5 }) = .ok (.rd 0x3FF) := by
  decide

/-- The classes of R63, `M = 2`: V4 has code 6 INVALID after a CLEAR, V2 has it KWKWK. -/
theorem test_decode_codes :
    decode fresh (.code 4) = .ok .clear ∧ decode fresh (.code 5) = .ok .endCode ∧
    decode fresh (.code 3) = .ok (.known 3) ∧ decode fresh (.code 6) = .ok (.invalid 6) ∧
    decode fresh' (.code 6) = .ok .kwkwk ∧ decode fresh' (.code 7) = .ok (.invalid 7) ∧
    decode { fresh' with nextCode := 7 } (.code 6) = .ok (.known 6) := by decide

/-- FILL, EXHAUST, CODE and CHUNK have no encoding (R75). -/
theorem test_decode_engine :
    decode fresh (encode fresh .fill) = .error .noEncoding ∧
    decode fresh (encode fresh .exhaust) = .error .noEncoding ∧
    decode fresh (encode fresh .code) = .error .noEncoding ∧
    decode fresh (encode fresh .chunk) = .error .noEncoding := by decide

theorem test_encode_words :
    encode fresh .startRender = w 0 4 ∧ encode fresh (.wrRenCfg true true 3 4) = w 5 0x00040303 ∧
    encode fresh (.wrFrameSize 2 10) = w 4 0x000A0002 ∧
    encode fresh (.wrPal 255 0xABCD) = w 0x1FF 0xABCD ∧ encode fresh .clear = .code 4 := by decide

/-- The stream of B1: byte 0x8C, first code of width 3 is 4 (95_test_vectors.md). -/
theorem test_stream_code :
    streamCode [0x8C, 0x2D, 0x99] 0 3 = some 4 ∧ streamCode [0xAB, 0xCD, 0xEF] 0 12 = some 0xDAB ∧
    streamCode [0xAB, 0xCD, 0xEF] 12 12 = some 0xEFC ∧ streamCode [0xAB] 0 12 = none := by decide

/-- The bytes of a request are the model's (log 10): the table's 32-bit words are command writes. -/
theorem test_table_words :
    decodeTableWord 32 0x00000002 = some .startDecode ∧ decodeTableWord 8 0x7F = some (.cmdReserved 0x7F) ∧
    decodeTableWord 48 0x000900000086 = some (.wrDataIn 0x86) ∧
    decodeTableWord 48 0x040100000000 = some (.rd 0x001) ∧
    decodeTableWord 48 0x800000000000 = none ∧
    decodeBytes [0x02, 0, 0, 0, 0] = .error .truncated ∧
    decodeBytes [0, 0, 0, 0, 0, 0xFF] = .error .badPadding := by decide

/-! ### States -/

/-- Reset with `IDX_CAP = 16`, `INQ_DEPTH = 2`. -/
def blank : State := { State.reset with params := { idxCap := 16, inqDepth := 2 } }

/-- Configured as in P1: `M = 2`, 4 x 4. -/
def ready : State := { blank with cfg := { Cfg.reset with mcs := 2, w := 4, h := 4 } }

/-- The initial dictionary for `M = 2` (R92). -/
def dict2 : Mem DictEntry :=
  [(0, .str 0 []), (1, .str 1 []), (2, .str 2 []), (3, .str 3 []), (4, .empty), (5, .empty)]

/-- Right after START_DECODE of `ready`. -/
def decoding : State :=
  { ready with
    flags := { Flags.reset with phase := .decoding }
    lzw := { decMcs := 2, codeWidth := 3, nextCode := 6, prevValid := false, prevCode := 0 }
    frame := { idxCount := 0, expected := 16, decW := 4, decH := 4, renRow := 0 }
    dict := dict2 }

/-- V1 after code #1: one KNOWN code, previous entry 0. -/
def first : State :=
  { decoding with
    lzw := { decoding.lzw with prevValid := true, prevCode := 0 }
    frame := { decoding.frame with idxCount := 1 }
    idxmem := [(0, 0)] }

/-- V1 after code #2: DICT[6] = [0,0]. -/
def second : State :=
  { first with
    lzw := { first.lzw with nextCode := 7 }
    frame := { first.frame with idxCount := 2 }
    idxmem := [(0, 0), (1, 0)]
    dict := dict2 ++ [(6, .str 0 [0])] }

/-- A decode at the ceiling, as V10 before code #4092, with only the entries read here. -/
def full : State :=
  { decoding with
    lzw := { decMcs := 2, codeWidth := 12, nextCode := 4096, prevValid := true, prevCode := 1 }
    frame := { decoding.frame with idxCount := 1 }
    idxmem := [(0, 1)] }

/-- A finished decode of a 2 x 2 frame that ended early: indices 0, 1, 2; two palette entries. -/
def decoded : State :=
  { decoding with
    flags := { Flags.reset with decDone := true, decCause := .end_ }
    cfg := { Cfg.reset with mcs := 2, w := 2, h := 2, chunkH := 1, palSize := 2, bg := 0xBEEF,
                            destX := 10, destY := 20, frameX := 5, frameY := 6 }
    frame := { idxCount := 3, expected := 4, decW := 2, decH := 2, renRow := 0 }
    idxmem := [(0, 0), (1, 1), (2, 2)]
    pal := [(0, 0x1234), (1, 0xABCD)] }

/-- The same, rendering. -/
def rendering : State := { decoded with flags := { decoded.flags with phase := .rendering } }

/-- P2 while it renders, before its third blit. -/
def p2 : State :=
  { rendering with
    cfg := { Cfg.reset with interlace := true, transpEn := true, transpIdx := 3, chunkH := 4,
                            palSize := 4, bg := 0xBEEF, destX := 100, destY := 50, frameX := 5,
                            frameY := 6 }
    frame := { idxCount := 20, expected := 20, decW := 2, decH := 10, renRow := 8 }
    idxmem := (List.range 20).zip [0, 4, 1, 5, 2, 6, 3, 7, 4, 0, 5, 1, 6, 2, 7, 3, 0, 4, 1, 5]
    pal := [(0, 0x0001), (1, 0x0203), (2, 0x0405), (3, 0x0607)] }

/-- A result is a next state of which `p` holds. -/
def next (r : Result) (p : State → Bool) : Bool :=
  match r with
  | .next t => p t
  | .fault _ => false
  | .refused _ => false

/-- A result is this fault. -/
def faults (r : Result) (f : Fault) : Bool :=
  match r with
  | .next _ => false
  | .fault g => g == f
  | .refused _ => false

/-- A result is this refusal. -/
def refuses (r : Result) (f : Refusal) : Bool :=
  match r with
  | .next _ => false
  | .fault _ => false
  | .refused g => g == f

/-! ### Commands -/

theorem test_nop : next (exec .nop second) (· == second) = true := by decide

theorem test_softReset :
    next (exec .softReset rendering) (fun t => t.cfg == Cfg.reset && t.flags == Flags.reset &&
      t.frame.idxCount == 0 && t.pal == rendering.pal && t.idxmem == rendering.idxmem) = true := by
  decide

/-- P1: STATUS 0x1 and LZW_STATE 0x623 after START_DECODE. -/
theorem test_startDecode :
    next (exec .startDecode ready) (fun t => statusWord t.flags == 0x1 &&
      lzwStateWord t.lzw == 0x623 && t.frame.expected == 16 && t.dict == dict2) = true := by decide

/-- C3: BAD_MCS before TOO_LARGE. -/
theorem test_startDecode_refused :
    next (exec .startDecode { blank with cfg := { Cfg.reset with mcs := 9, w := 5, h := 4 } })
      (fun t => statusWord t.flags == 0x200) = true ∧
    next (exec .startDecode { blank with cfg := { Cfg.reset with mcs := 2, w := 5, h := 4 } })
      (fun t => statusWord t.flags == 0x300) = true := by decide

theorem test_endOfData :
    next (exec .endOfData decoding) (fun t => statusWord t.flags == 0x801) = true ∧
    next (exec .endOfData decoded) (fun t => statusWord t.flags == 0x10C) = true := by decide

theorem test_startRender :
    next (exec .startRender decoded) (fun t => statusWord t.flags == 0xE && t.frame.renRow == 0) = true
    := by decide

/-- C4: BAD_CHUNK before COORD_OVF; the last column at 65535 is accepted, at 65536 refused. -/
theorem test_startRender_checks :
    next (exec .startRender { decoded with cfg := { decoded.cfg with chunkH := 0, destX := 65535 } })
      (fun t => t.flags.errCode == .badChunk) = true ∧
    next (exec .startRender { decoded with cfg := { decoded.cfg with destX := 65534, frameX := 0 } })
      (fun t => t.flags.phase == .rendering) = true ∧
    next (exec .startRender { decoded with cfg := { decoded.cfg with destX := 65534, frameX := 1 } })
      (fun t => t.flags.errCode == .coordOvf) = true ∧
    next (exec .startRender ready) (fun t => t.flags.errCode == .noFrame) = true := by decide

theorem test_cmdReserved :
    next (exec (.cmdReserved 0x7F) decoding) (fun t => statusWord t.flags == 0x701) = true := by decide

/-! ### Codes -/

theorem test_clear :
    next (exec .clear second) (fun t => t.lzw == decoding.lzw && t.dict == dict2 &&
      t.frame == second.frame) = true := by decide

/-- V13a: END as the first code. -/
theorem test_endCode :
    next (exec .endCode decoding) (fun t => t.flags == { Flags.reset with decDone := true, decCause := .end_ })
      = true := by decide

/-- V1 code #3: emits 1, DICT[7] = [0,1], NEXT 8, WIDTH 4, PC 1, COUNT 3. -/
theorem test_known :
    next (exec (.known 1) second) (fun t => t.frame.idxCount == 3 && Mem.read t.idxmem 2 == some 1 &&
      Mem.read t.dict 7 == some (.str 0 [1]) &&
      t.lzw == { decMcs := 2, codeWidth := 4, nextCode := 8, prevValid := true, prevCode := 1 } &&
      t.flags == second.flags) = true := by decide

/-- V10 code #4092: emitted, then Stop(DICT_FULL); PREV_CODE stays 1. -/
theorem test_known_full :
    next (exec (.known 2) full) (fun t => t.frame.idxCount == 2 && t.flags.decCause == .dictFull &&
      t.flags.phase == .idle && t.lzw == full.lzw) = true := by decide

/-- V2 code #2: emits 0,0, DICT[6] = [0,0], NEXT 7, PC 6, COUNT 3. -/
theorem test_kwkwk :
    next (exec .kwkwk first) (fun t => t.frame.idxCount == 3 &&
      Mem.read t.dict 6 == some (.str 0 [0]) &&
      t.lzw == { decMcs := 2, codeWidth := 3, nextCode := 7, prevValid := true, prevCode := 6 })
      = true := by decide

/-- V7 in small: 2 bytes to emit, 1 fits; the append and the previous entry still happen; COUNT. -/
theorem test_kwkwk_truncated :
    next (exec .kwkwk { first with frame := { first.frame with expected := 2, decW := 2, decH := 1 } })
      (fun t => t.frame.idxCount == 2 && t.lzw.nextCode == 7 && t.lzw.prevCode == 6 &&
        t.flags.decCause == .count && t.idxmem == [(0, 0), (1, 0)]) = true := by decide

/-- V4: code 6 after a CLEAR. -/
theorem test_invalid :
    next (exec (.invalid 6) decoding) (fun t => t.flags.decCause == .badCode && t.lzw == decoding.lzw)
      = true := by decide

/-- A class that the state does not give the code is no transition (R63). -/
theorem test_class_not_in_force :
    refuses (exec (.known 6) decoding) (.notEnabled "KNOWN") = true ∧
    refuses (exec .kwkwk decoding) (.notEnabled "KWKWK") = true ∧
    refuses (exec .clear ready) (.notEnabled "CLEAR") = true := by decide

/-! ### Engine -/

/-- B5: the third FILL takes BITCNT from 11 to 19 and BITBUF to 0x7FFFF. -/
theorem test_fill :
    next (exec .fill { full with br := { bitBuf := 0x7FF, bitCnt := 11, srcPos := 2 }, inq := [0xFF, 0] })
      (fun t => t.br == { bitBuf := 0x7FFFF, bitCnt := 19, srcPos := 3 } && t.inq == [0]) = true := by
  decide

/-- B2: the byte already merged stays; only the flags change. -/
theorem test_exhaust :
    next (exec .exhaust { full with
        br := { bitBuf := 0xFF, bitCnt := 8, srcPos := 1 }, flags := { full.flags with eod := true } })
      (fun t => bitStateWord t.br == 0xFF08 && statusWord t.flags == 0x81C) = true := by decide

/-- B1, first row: 0x8C, width 3: code 4, then BITBUF 0x11, BITCNT 5. -/
theorem test_code :
    next (exec .code { decoding with br := { bitBuf := 0x8C, bitCnt := 8, srcPos := 1 } })
      (fun t => t.br == { bitBuf := 0x11, bitCnt := 5, srcPos := 1 } && t.lzw == decoding.lzw &&
        t.frame.idxCount == 0) = true := by decide

/-- V5: code 7 above NEXT_CODE is INVALID. -/
theorem test_code_invalid :
    next (exec .code { first with br := { bitBuf := 0x7, bitCnt := 3, srcPos := 1 } })
      (fun t => t.br.bitCnt == 0 && t.flags.decCause == .badCode) = true := by decide

/-- By hand from R125 to R128: row 0 is indices 0, 1; the frame goes on. -/
theorem test_chunk :
    next (exec .chunk rendering) (fun t => t.sinkOut ==
        [{ x0 := 15, y0 := 26, x1 := 16, y1 := 26, bytes := [0x12, 0x34, 0xAB, 0xCD] }] &&
      t.frame.renRow == 1 && t.flags == rendering.flags) = true := by decide

/-- P2, blit 3: (105, 64, 106, 65), `BE EF BE EF 02 03 BE EF`; the render is done. -/
theorem test_chunk_interlaced :
    next (exec .chunk p2) (fun t => t.sinkOut ==
        [{ x0 := 105, y0 := 64, x1 := 106, y1 := 65,
           bytes := [0xBE, 0xEF, 0xBE, 0xEF, 0x02, 0x03, 0xBE, 0xEF] }] &&
      t.frame.renRow == 10 && t.flags.renDone && t.flags.phase == .idle) = true := by decide

theorem test_engine_not_enabled :
    refuses (exec .fill decoding) (.notEnabled "FILL") = true ∧
    refuses (exec .exhaust decoding) (.notEnabled "EXHAUST") = true ∧
    refuses (exec .code decoding) (.notEnabled "CODE") = true ∧
    refuses (exec .chunk decoding) (.notEnabled "CHUNK") = true := by decide

/-! ### Registers -/

theorem test_wrLzwCfg : next (exec (.wrLzwCfg 7) ready) (fun t => t.cfg.mcs == 7) = true ∧
    next (exec (.wrLzwCfg 7) decoding) (· == decoding) = true := by decide
theorem test_wrFramePos : next (exec (.wrFramePos 5 6) ready)
    (fun t => t.cfg == { ready.cfg with frameX := 5, frameY := 6 }) = true := by decide
theorem test_wrFrameSize : next (exec (.wrFrameSize 2 10) ready)
    (fun t => t.cfg == { ready.cfg with w := 2, h := 10 }) = true := by decide
theorem test_wrRenCfg : next (exec (.wrRenCfg true false 3 4) ready)
    (fun t => t.cfg == { ready.cfg with interlace := true, transpEn := false, transpIdx := 3,
                                        chunkH := 4 }) = true := by decide
theorem test_wrPalSize : next (exec (.wrPalSize 256) ready)
    (fun t => t.cfg == { ready.cfg with palSize := 256 }) = true := by decide
theorem test_wrBgColor : next (exec (.wrBgColor 0xBEEF) ready)
    (fun t => t.cfg == { ready.cfg with bg := 0xBEEF }) = true := by decide
theorem test_wrDestPos : next (exec (.wrDestPos 10 20) ready)
    (fun t => t.cfg == { ready.cfg with destX := 10, destY := 20 }) = true := by decide
theorem test_wrDataIn :
    next (exec (.wrDataIn 2) { decoding with inq := [1] }) (fun t => t.inq == [1, 2]) = true ∧
    next (exec (.wrDataIn 3) { decoding with inq := [1, 2] })
      (fun t => t.held == some 3 && t.inq == [1, 2] && !regReady t) = true := by decide
theorem test_wrDataIn_dropped :
    next (exec (.wrDataIn 0xAB) ready) (· == ready) = true ∧
    next (exec (.wrDataIn 3) { decoding with flags := { decoding.flags with eod := true } })
      (fun t => t.inq == []) = true := by decide
theorem test_wrIdxRaddr :
    next (exec (.wrIdxRaddr 16) decoding) (fun t => t.idxRaddr == 16) = true := by decide
theorem test_wrPal : next (exec (.wrPal 1 0x5555) decoded)
    (fun t => t.pal == [(0, 0x1234), (1, 0x5555)]) = true ∧
    next (exec (.wrPal 1 0x5555) rendering) (· == rendering) = true := by decide
theorem test_wrReserved : next (exec (.wrReserved 1 0xFFFF) second) (· == second) = true := by decide

/-- P1: IDX_RDATA is 0x101 at an index 1 below IDX_COUNT, 0 at IDX_COUNT. -/
theorem test_rd_window :
    next (exec (.rd 0x013) { decoded with idxRaddr := 1 }) (fun t => t.rdata == 0x101) = true ∧
    next (exec (.rd 0x013) { decoded with idxRaddr := 3 }) (fun t => t.rdata == 0) = true := by decide

/-- The LZW registers after P2's decode. -/
def p2Lzw : Lzw :=
  { decMcs := 3, codeWidth := 5, nextCode := 27, prevValid := true, prevCode := 12 }

/-- P2: LZW_STATE 0x1B35, LZW_PREV 0x100C, BIT_STATE 0x101; an unwritten PAL entry faults. -/
theorem test_rd_views :
    next (exec (.rd 0x00D) { decoding with lzw := p2Lzw }) (fun t => t.rdata == 0x1B35) = true ∧
    lzwPrevWord p2Lzw = 0x100C ∧
    bitStateWord { bitBuf := 1, bitCnt := 1, srcPos := 11 } = 0x101 ∧
    next (exec (.rd 0x101) decoded) (fun t => t.rdata == 0xABCD) = true ∧
    faults (exec (.rd 0x102) decoded) (.palUnwritten 2) = true := by decide

/-! ### Turns -/

theorem test_withFetchWord :
    next (step (State.reset.withFetchWord 8 0x03)) (fun t => t.flags.errCode == .badPhase) = true := by
  decide

/-- The sink's turns: a chunk of 4 bytes is done with the fourth (R127). -/
theorem test_sink_turn :
    next (step { rendering with sched := [.sink], snkTaken := 2 }) (fun t => t.snkTaken == 3 &&
      t.sinkOut == []) = true ∧
    next (step { rendering with sched := [.sink], snkTaken := 3 }) (fun t => t.snkTaken == 0 &&
      t.sinkOut.length == 1 && t.frame.renRow == 1) = true := by decide

/-- R144, R37: written after one byte of a blit SOFT_RESET is complete and its effect to come; before
any byte it resets at once. -/
theorem test_softReset_during_blit :
    next (step { rendering with sched := [.host], snkTaken := 1, hostQ := [writeAt 0 1] })
      (fun t => t.hostQ == [] && t.resetPending && regReady t && t.flags == rendering.flags) = true ∧
    next (step { rendering with sched := [.host], hostQ := [writeAt 0 1] })
      (fun t => t.hostQ == [] && t.flags == Flags.reset) = true := by decide

/-- R144: the reset comes with the blit's fourth byte, the sink having the whole blit and no other;
R51: an access made before that reads the reset STATUS. -/
theorem test_softReset_after_last_byte :
    next (step { rendering with sched := [.sink], snkTaken := 3, resetPending := true })
      (fun t => t.flags == Flags.reset && t.sinkOut.length == 1 && !t.resetPending) = true ∧
    next (step { rendering with sched := [.host], snkTaken := 1, resetPending := true,
                                hostQ := [{ read := true, addr := regAt 4, wdata := 0 }] })
      (fun t => t.rdata == 0 && t.sinkOut.length == 1 && t.hostQ == []) = true := by decide

/-- R149, INQ_DEPTH = 2: a FILL that makes room pushes the held byte; a CODE step that stops the decode
(END, code 5) drops it. -/
theorem test_held_write :
    next (step { decoding with sched := [.engine], inq := [1, 2], held := some 3 })
      (fun t => t.inq == [2, 3] && regReady t) = true ∧
    next (step { decoding with sched := [.engine], inq := [1, 2], held := some 3,
                               br := { bitBuf := 5, bitCnt := 3, srcPos := 1 } })
      (fun t => t.inq == [1, 2] && regReady t && t.flags.phase == .idle) = true := by decide

/-- R132: no colour table, no blit, even where a render has run before. -/
theorem test_render :
    (render { rendering with cfg := { rendering.cfg with palSize := 0 } }).toOption = some [] ∧
    (render { decoded with frame := { decoded.frame with renRow := 2 } }).toOption =
      some [{ x0 := 15, y0 := 26, x1 := 16, y1 := 26, bytes := [0x12, 0x34, 0xAB, 0xCD] },
            { x0 := 15, y0 := 27, x1 := 16, y1 := 27, bytes := [0xBE, 0xEF, 0xBE, 0xEF] }] := by
  decide

/-! ### States that meet the invariant -/

theorem test_inv_ready : Inv ready := by
  refine ⟨⟨by decide, ?_, .inl ?_, ?_, ?_, ?_, ?_, ?_, by decide, fun b hb => by cases hb⟩,
    by unfold PortOk; decide⟩
  · unfold BitsOk; decide
  · decide
  · unfold DictOk; decide
  · unfold FrameOk; decide
  · unfold FlagsOk; decide
  · unfold RenderOk; decide
  · unfold MemOk; decide

theorem test_inv_decoding : Inv decoding := by
  refine ⟨⟨by decide, ?_, .inr ?_, ?_, ?_, ?_, ?_, ?_, by decide, fun b hb => by cases hb⟩,
    by unfold PortOk; decide⟩
  · unfold BitsOk; decide
  · unfold LzwActive; decide
  · unfold DictOk; decide
  · unfold FrameOk; decide
  · unfold FlagsOk; decide
  · unfold RenderOk; decide
  · unfold MemOk; decide

theorem test_inv_second : Inv second := by
  refine ⟨⟨by decide, ?_, .inr ?_, ?_, ?_, ?_, ?_, ?_, by decide, fun b hb => by cases hb⟩,
    by unfold PortOk; decide⟩
  · unfold BitsOk; decide
  · unfold LzwActive; decide
  · unfold DictOk; decide
  · unfold FrameOk; decide
  · unfold FlagsOk; decide
  · unfold RenderOk; decide
  · unfold MemOk; decide

theorem test_inv_rendering : Inv rendering := by
  refine ⟨⟨by decide, ?_, .inr ?_, ?_, ?_, ?_, ?_, ?_, by decide, fun b hb => by cases hb⟩,
    by unfold PortOk; decide⟩
  · unfold BitsOk; decide
  · unfold LzwActive; decide
  · unfold DictOk; decide
  · unfold FrameOk; decide
  · unfold FlagsOk; decide
  · unfold RenderOk; decide
  · unfold MemOk; decide

theorem test_palette_loaded : PaletteLoaded rendering := by
  intro i _ h
  have h2 : i < 2 := h
  have : i = 0 ∨ i = 1 := by omega
  rcases this with rfl | rfl <;> rfl

/-- `rendering` with `n` of its chunk's four bytes taken, a SOFT_RESET waiting or not. -/
theorem test_inv_transfer (n : Nat) (h : n < 4) (p : Bool) (hp : p = true → n ≠ 0) (q : List Turn)
    (rs : List PortReq) :
    Inv { rendering with snkTaken := n, resetPending := p, sched := q, hostQ := rs } := by
  have hi := test_inv_rendering
  refine ⟨⟨hi.params, hi.bits, hi.lzw, hi.dict, hi.frame, hi.flags,
    ⟨hi.render.1, fun hh => absurd rfl hh, fun _ => ?_⟩, hi.mem, hi.queue, hi.blits⟩,
    fun hh => absurd rfl hh, fun hh => ⟨rfl, hp hh⟩⟩
  obtain ⟨a1, a2, a3, a4, a5, a6, _⟩ := hi.render.2.2 rfl
  exact ⟨a1, a2, a3, a4, a5, a6, h⟩

/-! ### Witnesses: for each obligation with hypotheses, inputs that meet them, clause by clause -/

theorem test_witness_DecodeOfEncode :
    fresh.ok = true ∧ (Instr.invalid 7).wfIn fresh = true ∧ (Instr.invalid 7).format ≠ .engine ∧
    (Instr.wrReserved 0x200 1).wfIn fresh = true := by decide

theorem test_witness_IgnoredBits :
    (0x00000102#32).toNat % 256 = (0xFFFFFF02#32).toNat % 256 := by decide

theorem test_witness_Classes : fresh'.ok = true ∧ classify fresh' 4 = .clear ∧
    classify fresh' 5 = .endCode ∧ classify fresh' 3 = .known ∧ classify fresh' 6 = .kwkwk ∧
    classify fresh' 7 = .invalid ∧ classify fresh 6 = .invalid := by decide

theorem test_witness_HardwareReset : { second with sched := [.reset, .host] }.sched = .reset :: [.host] :=
  rfl

theorem test_witness_ReservedCommands :
    0x05 ≤ (0x00000005#32).toNat % 256 ∧ 0x05 ≤ (0x000000FF#32).toNat % 256 := by decide

/-- `4 * 4 <= 16`, at the bound; and `M = 8` with a zero-area frame. -/
theorem test_witness_StartDecode :
    (ready.flags.phase = .idle ∧ 2 ≤ ready.cfg.mcs.toNat ∧ ready.cfg.mcs.toNat ≤ 8 ∧
      ready.cfg.w.toNat * ready.cfg.h.toNat ≤ ready.params.idxCap) ∧
    2 ≤ { Cfg.reset with mcs := 8 }.mcs.toNat ∧ { Cfg.reset with mcs := 8 }.mcs.toNat ≤ 8 ∧
    { Cfg.reset with mcs := 8 }.w.toNat * { Cfg.reset with mcs := 8 }.h.toNat ≤ 16 := by decide

theorem test_witness_StartDecodeChecks :
    decoding.flags.phase ≠ .idle ∧
    ready.flags.phase = .idle ∧ { ready.cfg with mcs := 1 }.mcs.toNat < 2 ∧
    8 < { ready.cfg with mcs := 9 }.mcs.toNat ∧
    ready.params.idxCap < { ready.cfg with w := 17, h := 1 }.w.toNat *
      { ready.cfg with w := 17, h := 1 }.h.toNat := by decide

theorem test_witness_EndOfData :
    ready.flags.phase ≠ .decoding ∧ decoding.flags.phase = .decoding ∧
    { decoding.flags with eod := true }.eod = true ∧ { decoding.flags with eod := true }.errCode = .none :=
  by decide

/-- The last column at 65535 exactly. -/
theorem test_witness_StartRender :
    let s := { decoded with cfg := { decoded.cfg with destX := 65534, frameX := 0 } }
    s.flags.phase = .idle ∧ s.flags.decDone = true ∧ 1 ≤ s.cfg.chunkH.toNat ∧
    s.cfg.destX.toNat + s.cfg.frameX.toNat + s.frame.decW.toNat - 1 = 65535 ∧
    s.cfg.destY.toNat + s.cfg.frameY.toNat + s.frame.decH.toNat - 1 ≤ 65535 := by decide

theorem test_witness_StartRenderChecks :
    decoding.flags.phase ≠ .idle ∧ (ready.flags.phase = .idle ∧ ready.flags.decDone = false) ∧
    (decoded.flags.phase = .idle ∧ decoded.flags.decDone = true ∧
      { decoded.cfg with chunkH := 0 }.chunkH = 0) ∧
    decoded.cfg.chunkH ≠ 0 ∧ 1 ≤ decoded.frame.decW.toNat ∧ 1 ≤ decoded.frame.decH.toNat ∧
    65535 < { decoded.cfg with destX := 65535, frameX := 0 }.destX.toNat +
      { decoded.cfg with destX := 65535, frameX := 0 }.frameX.toNat + decoded.frame.decW.toNat - 1 ∧
    65535 < { decoded.cfg with destY := 30000, frameY := 35535 }.destY.toNat +
      { decoded.cfg with destY := 30000, frameY := 35535 }.frameY.toNat +
      decoded.frame.decH.toNat - 1 := by decide

/-- Idle, decoding and rendering states, for the statements that suppose no more. -/
theorem test_witness_phases :
    ready.flags.phase = .idle ∧ decoding.flags.phase ≠ .idle ∧ rendering.flags.phase ≠ .idle ∧
    decoding.flags.phase = .decoding ∧ rendering.flags.phase = .rendering := by decide

/-- `INQ_DEPTH = 2`: one byte leaves room, two do not. -/
theorem test_witness_DataIn :
    (ready.flags.phase ≠ .decoding ∨ ready.flags.eod = true) ∧
    (decoding.flags.phase = .decoding ∧ decoding.flags.eod = false ∧
      [0x01#8].length < decoding.params.inqDepth ∧
      decoding.params.inqDepth ≤ [0x01#8, 0x02#8].length) := by decide

theorem test_witness_Reserved :
    writable 0x001 = false ∧ writable 0x013 = false ∧ writable 0x0FF = false ∧
    writable 0x200 = false ∧
    (0x050 / 4 ≤ (0x014#10).toNat ∧ (0x014#10).toNat < 0x400 / 4) ∧
    (0x0FF#10).toNat < 0x400 / 4 ∧ 0x800 / 4 ≤ (0x200#10).toNat ∧ 0x800 / 4 ≤ (0x3FF#10).toNat := by
  decide

/-- IDX_RADDR at IDX_COUNT - 1 and at IDX_COUNT. -/
theorem test_witness_IndexWindow :
    ((2#32).toNat < decoded.frame.idxCount.toNat ∧ Mem.read decoded.idxmem (2#32).toNat = some 2) ∧
    decoded.frame.idxCount.toNat ≤ (3#32).toNat := by decide

theorem test_witness_PaletteRead :
    Mem.read decoded.pal (1#8).toNat = some 0xABCD ∧ Mem.read decoded.pal (2#8).toNat = none ∧ Mem.read ready.pal (255#8).toNat = none := by decide

theorem test_witness_Fill (b : Byte) : Inv { decoding with inq := [b], br := decoding.br } ∧
    decoding.flags.phase = .decoding ∧ decoding.br.bitCnt.toNat < decoding.lzw.codeWidth.toNat :=
  ⟨⟨test_inv_decoding.bitReader (Nat.le_succ 1) (by decide) (by decide), .of_none rfl rfl⟩,
    by decide, by decide⟩

theorem test_witness_Exhaust :
    decoding.flags.phase = .decoding ∧ decoding.br.bitCnt.toNat < decoding.lzw.codeWidth.toNat ∧
    decoding.inq = [] ∧ { decoding.flags with eod := true }.eod = true := by decide

/-- Nothing taken yet; and B4 after its first code: `BITBUF = 0xC, BITCNT = 4`, two bytes taken. -/
theorem test_witness_ReadBits :
    HoldsStream [0x8C] 0 { bitBuf := 0, bitCnt := 0, srcPos := 0 } ∧
    HoldsStream [0xAB, 0xCD, 0xEF] 2 { bitBuf := 0xC, bitCnt := 4, srcPos := 2 } := by
  unfold HoldsStream; decide

theorem test_witness_Code :
    Inv { decoding with br := { bitBuf := 4, bitCnt := 3, srcPos := 1 }, inq := [] } ∧
    decoding.flags.phase = .decoding ∧ decoding.lzw.codeWidth.toNat ≤ (3#5).toNat :=
  ⟨⟨test_inv_decoding.bitReader (by decide) (by decide) (by decide), .of_none rfl rfl⟩,
    by decide, by decide⟩

theorem test_witness_CodeClasses :
    decoding.flags.phase = .decoding ∧ LzwActive decoding.lzw ∧
    decoding.lzw.nextCode.toNat < (7#12).toNat ∧
    ((6#12).toNat = decoding.lzw.nextCode.toNat ∧ decoding.lzw.prevValid = false) :=
  ⟨by decide, by unfold LzwActive; decide, by decide, by decide⟩

/-- A KNOWN code without and with a previous entry, the highest below NEXT_CODE among them. -/
theorem test_witness_Known :
    (decoding.lzw.prevValid = false ∧ (3#12).toNat < decoding.lzw.nextCode.toNat ∧
      (3#12).toNat ≠ 2 ^ decoding.lzw.decMcs.toNat) ∧
    (second.lzw.prevValid = true ∧ (6#12).toNat < second.lzw.nextCode.toNat ∧
      (6#12).toNat ≠ 2 ^ second.lzw.decMcs.toNat + 1 ∧ second.flags.phase = .decoding) := by decide

theorem test_witness_Kwkwk :
    second.flags.phase = .decoding ∧ second.lzw.prevValid = true ∧
    second.lzw.nextCode.toNat < 4096 := by decide

theorem test_witness_Interlace : 9 < 10 ∧ (ilaceList 10)[9]? = some 9 ∧ (ilaceList 10)[1]? = some 8 ∧
    ilaceList 10 = [0, 8, 4, 2, 6, 1, 3, 5, 7, 9] := by decide

/-- Pixels 0 to 3 of `decoded` with index 1 transparent: table, transparent, out of range, never
decoded. -/
theorem test_witness_Resolve :
    let s := { decoded with cfg := { decoded.cfg with transpEn := true, transpIdx := 1 } }
    (resolve s 0).toOption = some 0x1234 ∧ (resolve s 1).toOption = some 0xBEEF ∧
    (resolve s 2).toOption = some 0xBEEF ∧ (resolve s 3).toOption = some 0xBEEF ∧
    s.frame.idxCount.toNat = 3 ∧ Mem.read s.idxmem 2 = some 2 ∧ s.cfg.palSize.toNat = 2 := by decide

/-- A completing CHUNK step, and one that faults: entry 1 never written. -/
theorem test_witness_Chunk :
    next (exec .chunk rendering) (fun t => t.sinkOut.length == 1) = true ∧
    faults (exec .chunk { rendering with pal := [(0, 0x1234)] }) (.palUnwritten 1) = true ∧
    (chunkByte rendering 3).toOption = some 0xCD ∧ 3 < chunkLen rendering := by decide

/-- A read and a refused command while a render runs. -/
theorem test_witness_HostDuringRender :
    rendering.flags.phase = .rendering ∧
    next (exec (decodeRequest (writeAt 0 2)) rendering) (fun t => t.flags.errCode == .badPhase) = true ∧
    next (exec (decodeRequest (writeAt 0x018 9)) rendering) (· == rendering) = true := by decide

/-- Each transition of the PHASE table that is taken (R152). -/
theorem test_witness_Phase :
    next (exec .startDecode ready) (fun t => t.flags.phase != ready.flags.phase) = true ∧
    next (exec .startRender decoded) (fun t => t.flags.phase != decoded.flags.phase) = true ∧
    next (exec .endCode second) (fun t => t.flags.phase != second.flags.phase) = true ∧
    next (exec .chunk p2) (fun t => t.flags.phase != p2.flags.phase) = true ∧
    next (exec .softReset second) (fun t => t.flags.phase != second.flags.phase) = true := by decide

theorem test_witness_ErrCode :
    next (exec .startDecode decoding) (fun t => t.flags.errCode != decoding.flags.errCode) = true ∧
    next (exec .softReset { ready with flags := { ready.flags with errCode := .badCmd } })
      (fun t => t.flags.errCode == .none) = true := by decide

/-- A FILL and a CODE step that a push may come before or after. -/
theorem test_witness_Push :
    (engineSelect { decoding with inq := [4] } = some .fill ∧ [4#8].length < decoding.params.inqDepth ∧
      next (exec .fill { decoding with inq := [4] }) (fun t => t.flags.phase == .decoding) = true) ∧
    (engineSelect { decoding with br := { bitBuf := 4, bitCnt := 3, srcPos := 1 } } = some .code ∧
      next (exec .code { decoding with br := { bitBuf := 4, bitCnt := 3, srcPos := 1 } })
        (fun t => t.flags.phase == .decoding) = true) := by decide

/-- A SOFT_RESET that resets at once, and one that must wait. -/
theorem test_witness_SoftReset :
    ¬(rendering.flags.phase = .rendering ∧ rendering.frame.renRow.toNat < rendering.frame.decH.toNat ∧
      rendering.snkTaken ≠ 0) ∧
    rendering.flags.phase = .rendering ∧
    rendering.frame.renRow.toNat < rendering.frame.decH.toNat ∧
    { rendering with snkTaken := 1 }.snkTaken ≠ 0 := by decide

theorem test_witness_HostTurn :
    let s := { rendering with sched := [.host], hostQ := [writeAt 0 1], snkTaken := 1 }
    s.sched = [.host] ∧ s.held = none ∧ s.resetPending = false ∧ s.hostQ = [writeAt 0 1] ∧
    decodeRequest (writeAt 0 1) = .softReset ∧ s.flags.phase = .rendering ∧
    s.frame.renRow.toNat < s.frame.decH.toNat ∧ s.snkTaken ≠ 0 := by decide

theorem test_witness_Placed : decodeTableWord 8 0x02 = some .startDecode := by decide

/-- A held write while a FILL is selected, and while a CODE is; the host's turn or the engine's. -/
theorem test_witness_Held (c : Bool) (q : List Turn) :
    let r : BitReader := if c then { bitBuf := 5, bitCnt := 3, srcPos := 1 } else .reset
    let s := { decoding with br := r, inq := [1, 2], held := some 3, sched := q }
    Inv s ∧ s.held = some 3 := by
  refine ⟨⟨?_, fun _ => ⟨rfl, rfl, Nat.le_refl 2⟩, fun h => by cases h⟩, rfl⟩
  cases c
  · exact (test_inv_decoding.bitReader (r := .reset) (q := [1, 2]) (Nat.le_refl 2) (by decide)
      (by decide)).env _ _ _ _ _ _
  · exact (test_inv_decoding.bitReader (r := { bitBuf := 5, bitCnt := 3, srcPos := 1 })
      (q := [1, 2]) (Nat.le_refl 2) (by decide) (by decide)).env _ _ _ _ _ _

/-- A SOFT_RESET waiting with one byte taken, and with all but the last. -/
theorem test_witness_SoftResetWaits (q : List Turn) (rs : List PortReq) :
    (∀ n, n = 1 ∨ n = 3 →
      Inv { rendering with snkTaken := n, resetPending := true, sched := q, hostQ := rs }) ∧
    PaletteLoaded rendering ∧ 1 + 1 < chunkLen rendering ∧ 3 + 1 = chunkLen rendering := by
  refine ⟨fun n hn => ?_, test_palette_loaded, by decide, by decide⟩
  exact test_inv_transfer n (by omega) true (fun _ => by omega) q rs

/-- Each of the six cases of the engine's turn. -/
theorem test_witness_EngineTurn :
    ready.flags.phase = .idle ∧
    (decoding.br.bitCnt.toNat < decoding.lzw.codeWidth.toNat ∧ { decoding with inq := [4] }.inq ≠ []) ∧
    (decoding.inq = [] ∧ { decoding.flags with eod := true }.eod = true ∧ decoding.flags.eod = false) ∧
    decoding.lzw.codeWidth.toNat ≤ { decoding.br with bitCnt := 3 }.bitCnt.toNat ∧
    rendering.frame.renRow.toNat < rendering.frame.decH.toNat ∧
    ready.held = none ∧ decoding.held = none ∧ rendering.held = none ∧
    ready.resetPending = false ∧ decoding.resetPending = false ∧
    rendering.resetPending = false := by decide

theorem test_witness_Sink :
    Inv { rendering with snkTaken := 2, sched := [.sink] } ∧
    Inv { rendering with snkTaken := 3, sched := [.sink] } ∧ PaletteLoaded rendering ∧
    2 + 1 < chunkLen rendering ∧ 3 + 1 = chunkLen rendering ∧ rendering.resetPending = false :=
  ⟨test_inv_transfer 2 (by omega) false (fun h => by cases h) _ _,
    test_inv_transfer 3 (by omega) false (fun h => by cases h) _ _, test_palette_loaded,
    by decide, by decide, rfl⟩

/-- V13a: the byte 05, whose first code is END; the decode has stopped after three turns. -/
theorem test_witness_Schedule :
    Inv ready ∧ next (exec .startDecode ready) (fun s => s.flags.phase == .decoding &&
      next (Host.Core.run core 3
        { s with hostQ := pushStream [0x05], sched := [.host, .engine, .engine] })
        (fun t => t.flags.phase == .idle && t.flags.decCause == .end_)) = true ∧
    lzwDecode 2 [0x05] 16 = ([], .end_) :=
  ⟨test_inv_ready, by decide, by decide⟩

theorem test_witness_DecodeStops :
    Inv { decoding with flags := { decoding.flags with eod := true, errCode := .none } } ∧
    decoding.flags.phase = .decoding ∧ decoding.sched = [] :=
  ⟨⟨test_inv_decoding.endOfData, by unfold PortOk; decide⟩, rfl, rfl⟩

theorem test_inv_decoded : Inv decoded := by
  refine ⟨⟨by decide, ?_, .inr ?_, ?_, ?_, ?_, ?_, ?_, by decide, fun b hb => by cases hb⟩,
    by unfold PortOk; decide⟩
  · unfold BitsOk; decide
  · unfold LzwActive; decide
  · unfold DictOk; decide
  · unfold FrameOk; decide
  · unfold FlagsOk; decide
  · unfold RenderOk; decide
  · unfold MemOk; decide

/-- An accepted START_RENDER, and a run of its four-byte blits in which the sink takes its time. -/
theorem test_witness_Render :
    Inv decoded ∧ PaletteLoaded decoded ∧ decoded.cfg.palSize ≠ 0 ∧
    next (exec .startRender decoded) (fun s => s.flags.errCode == .none &&
      next (Host.Core.run core 6
        { s with hostQ := [], sched := [.sink, .host, .sink, .engine, .sink, .engine] })
        (fun t => t.flags.phase == .idle && t.sinkOut.length == 2)) = true :=
  ⟨test_inv_decoded, test_palette_loaded, by decide, by decide⟩

end Sys2Proof.Tests
end

section
/-! ## Proofs: the state of the block (10_state.md)

The registers as the host reads and writes them, the sink port, what each instruction can write,
and the reset state. -/

namespace Sys2Proof.Machine

/-! ### The registers as numbers (R18 to R30) -/

/-- Fields side by side, as a number. -/
theorem toNat_append_eq {m n : Nat} (x : BitVec m) (y : BitVec n) :
    (x ++ y).toNat = 2 ^ n * x.toNat + y.toNat := by
  rw [BitVec.toNat_append, Nat.shiftLeft_eq, Nat.mul_comm, Nat.two_pow_add_eq_or_of_lt y.isLt]

theorem pair_toNat (lo hi : BitVec 16) : (pair lo hi).toNat = lo.toNat + 65536 * hi.toNat :=
  (toNat_append_eq hi lo).trans (Nat.add_comm _ _)

theorem renCfgWord_toNat (il te : Bool) (ti ch : BitVec 8) :
    (renCfgWord il te ti ch).toNat =
      il.toNat + 2 * te.toNat + 256 * ti.toNat + 65536 * ch.toNat := by
  simp only [renCfgWord, toNat_append_eq, BitVec.toNat_ofBool, BitVec.toNat_ofNat]
  omega

theorem lzwStateWord_toNat (z : Lzw) : (lzwStateWord z).toNat =
    z.codeWidth.toNat + 16 * z.decMcs.toNat + 256 * z.nextCode.toNat := by
  simp only [lzwStateWord, toNat_append_eq, BitVec.toNat_ofNat]
  omega

theorem lzwPrevWord_toNat (z : Lzw) :
    (lzwPrevWord z).toNat = z.prevCode.toNat + 4096 * z.prevValid.toNat := by
  simp only [lzwPrevWord, toNat_append_eq, BitVec.toNat_ofBool, BitVec.toNat_ofNat]
  omega

theorem bitStateWord_toNat (b : BitReader) :
    (bitStateWord b).toNat = b.bitCnt.toNat + 256 * b.bitBuf.toNat := by
  simp only [bitStateWord, toNat_append_eq, BitVec.toNat_ofNat]
  omega

/-- The number of a phase (R18). -/
def Phase.number : Phase → Nat
  | .idle => 0
  | .decoding => 1
  | .rendering => 2

/-- The number of a stop cause (60_exceptions.md R166). -/
def Cause.number : Cause → Nat
  | .none => 0
  | .end_ => 1
  | .count => 2
  | .exhausted => 3
  | .badCode => 4
  | .dictFull => 5

/-- The number of a refusal (60_exceptions.md R167). -/
def Err.number : Err → Nat
  | .none => 0
  | .badPhase => 1
  | .badMcs => 2
  | .tooLarge => 3
  | .noFrame => 4
  | .badChunk => 5
  | .coordOvf => 6
  | .badCmd => 7

theorem Phase.bits_toNat (p : Phase) : p.bits.toNat = p.number := by cases p <;> rfl
theorem Cause.bits_toNat (c : Cause) : c.bits.toNat = c.number := by cases c <;> rfl
theorem Err.bits_toNat (e : Err) : e.bits.toNat = e.number := by cases e <;> rfl

theorem statusWord_toNat (f : Flags) : (statusWord f).toNat =
    f.phase.number + 4 * f.decDone.toNat + 8 * f.decCause.number + 64 * f.renDone.toNat +
      128 * f.renSkip.toNat + 256 * f.errCode.number + 2048 * f.eod.toNat := by
  simp only [statusWord, toNat_append_eq, BitVec.toNat_ofBool, BitVec.toNat_ofNat,
    Phase.bits_toNat, Cause.bits_toNat, Err.bits_toNat]
  omega

/-! ### A word written and read back (R16) -/

/-- A register that holds the low `n` bits reads back with the others 0. -/
theorem setWidth_field_low (v : Word) {n : Nat} (h : n < 32) :
    (field v 0 n).setWidth 32 = v &&& BitVec.ofNat 32 (2 ^ n - 1) := by
  have hp : 2 ^ n < 2 ^ 32 := Nat.pow_lt_pow_right (by omega) h
  have hm : v.toNat % 2 ^ n < 2 ^ n := Nat.mod_lt _ (Nat.two_pow_pos n)
  apply BitVec.eq_of_toNat_eq
  simp only [field, BitVec.toNat_setWidth, BitVec.extractLsb'_toNat, BitVec.toNat_and,
    BitVec.toNat_ofNat, Nat.shiftRight_zero]
  rw [Nat.mod_eq_of_lt (hm.trans hp), Nat.mod_eq_of_lt (by omega : 2 ^ n - 1 < 2 ^ 32),
    Nat.and_two_pow_sub_one_eq_mod]

theorem pair_fields (v : Word) : pair (field v 0 16) (field v 16 16) = v := by
  have := v.isLt
  apply BitVec.eq_of_toNat_eq
  simp only [pair_toNat, field, BitVec.extractLsb'_toNat, Nat.shiftRight_eq_div_pow]
  omega

theorem pair_fields_masked (v : Word) :
    pair (field v 0 16) (field v 16 16) = v &&& 0xFFFFFFFF#32 := by
  rw [pair_fields]
  exact (BitVec.and_allOnes).symm

/-- REN_CFG (R22), bit by bit. -/
theorem renCfgWord_fields (v : Word) :
    renCfgWord (v.getLsbD 0) (v.getLsbD 1) (field v 8 8) (field v 16 8) =
      v &&& 0x00FFFF03#32 := by
  refine BitVec.eq_of_getLsbD_eq fun i hi => ?_
  rw [renCfgWord, BitVec.getLsbD_and]
  interval_cases i <;> simp only [BitVec.getLsbD_append] <;> simp [field]

/-! ### Reads (43_host_commands.md R140) -/

/-- A read that answers sets the read port and nothing else. -/
theorem exec_rd {s : State} {a : RegAddr} {v : Word} (h : readReg s a = .ok v) :
    exec (.rd a) s = .next { s with rdata := v } := by
  simp only [exec, execRd, h]

section
variable (s : State)

theorem readReg_cmd : readReg s (regAt 0x000) = .ok 0 := rfl
theorem readReg_status : readReg s (regAt 0x004) = .ok (statusWord s.flags) := rfl
theorem readReg_lzwCfg : readReg s (regAt 0x008) = .ok (s.cfg.mcs.setWidth 32) := rfl
theorem readReg_framePos :
    readReg s (regAt 0x00C) = .ok (pair s.cfg.frameX s.cfg.frameY) := rfl
theorem readReg_frameSize : readReg s (regAt 0x010) = .ok (pair s.cfg.w s.cfg.h) := rfl
theorem readReg_renCfg : readReg s (regAt 0x014) =
    .ok (renCfgWord s.cfg.interlace s.cfg.transpEn s.cfg.transpIdx s.cfg.chunkH) := rfl
theorem readReg_palSize : readReg s (regAt 0x018) = .ok (s.cfg.palSize.setWidth 32) := rfl
theorem readReg_bgColor : readReg s (regAt 0x01C) = .ok (s.cfg.bg.setWidth 32) := rfl
theorem readReg_destPos : readReg s (regAt 0x020) = .ok (pair s.cfg.destX s.cfg.destY) := rfl
theorem readReg_dataIn : readReg s (regAt 0x024) = .ok 0 := rfl
theorem readReg_idxCount : readReg s (regAt 0x028) = .ok s.frame.idxCount := rfl
theorem readReg_expected : readReg s (regAt 0x02C) = .ok s.frame.expected := rfl
theorem readReg_decSize : readReg s (regAt 0x030) = .ok (pair s.frame.decW s.frame.decH) := rfl
theorem readReg_lzwState : readReg s (regAt 0x034) = .ok (lzwStateWord s.lzw) := rfl
theorem readReg_lzwPrev : readReg s (regAt 0x038) = .ok (lzwPrevWord s.lzw) := rfl
theorem readReg_bitState : readReg s (regAt 0x03C) = .ok (bitStateWord s.br) := rfl
theorem readReg_srcPos : readReg s (regAt 0x040) = .ok s.br.srcPos := rfl
theorem readReg_renRow : readReg s (regAt 0x044) = .ok (s.frame.renRow.setWidth 32) := rfl
theorem readReg_idxRaddr : readReg s (regAt 0x048) = .ok s.idxRaddr := rfl
theorem readReg_idxRdata : readReg s (regAt 0x04C) = idxRdata s := rfl

end

theorem ne_regAt {a : RegAddr} {k : Nat} (h : k / 4 < a.toNat) : a ≠ regAt k := by
  rintro rfl
  rw [BitVec.toNat_ofNat] at h
  exact absurd h (Nat.not_lt.2 (Nat.mod_le _ _))

/-- Past IDX_RDATA and outside the palette window there is no register (R16, R32). -/
theorem readReg_reserved (s : State) {a : RegAddr} (h : 0x4C / 4 < a.toNat)
    (hw : ¬(0x100 ≤ a.toNat ∧ a.toNat < 0x200)) : readReg s a = .ok 0 := by
  have hne : ∀ k ≤ 0x4C, a ≠ regAt k := fun k hk =>
    ne_regAt (lt_of_le_of_lt (Nat.div_le_div_right hk) h)
  simp (disch := decide) only [readReg, if_neg (hne _ _), if_neg hw]

theorem decodeWrite_reserved {a : RegAddr} (v : Word) (h : writable a = false) :
    decodeWrite a v = .wrReserved a v := by
  simp only [writable, Bool.or_eq_false_iff, beq_eq_false_iff_ne, Bool.and_eq_false_iff,
    decide_eq_false_iff_not] at h
  have hw : ¬(0x100 ≤ a.toNat ∧ a.toNat < 0x200) := by omega
  simp only [decodeWrite, h, hw, if_false]

/-- Below IDX_COUNT the window shows VALID and the byte (R30). -/
theorem idxRdata_below {s : State} {b : Byte} (h : s.idxRaddr.toNat < s.frame.idxCount.toNat)
    (hb : Mem.read s.idxmem s.idxRaddr.toNat = some b) :
    idxRdata s = .ok (BitVec.ofNat 32 (256 + b.toNat)) := by
  have hor : 0x100#32 ||| b.setWidth 32 = BitVec.ofNat 32 (256 + b.toNat) := by
    have hb := b.isLt
    apply BitVec.eq_of_toNat_eq
    simp only [BitVec.toNat_or, BitVec.toNat_setWidth, BitVec.toNat_ofNat]
    rw [Nat.mod_eq_of_lt (by omega : b.toNat < 2 ^ 32),
      Nat.mod_eq_of_lt (by omega : 256 + b.toNat < 2 ^ 32)]
    exact (Nat.two_pow_add_eq_or_of_lt hb 1).symm
  simp only [idxRdata, if_pos h, hb, hor]

/-- At and above IDX_COUNT it shows 0 (R30). -/
theorem idxRdata_above {s : State} (h : s.frame.idxCount.toNat ≤ s.idxRaddr.toNat) :
    idxRdata s = .ok 0 :=
  if_neg (Nat.not_lt.2 h)

/-! ### The obligations about reads -/

/-- Settles O20: outside the writable offsets only WR_RESERVED is decoded, and past IDX_RDATA and
outside the palette window no register answers. -/
theorem reservedOffsetsReadZeroIgnoreWrites : Obligations.ReservedOffsetsReadZeroIgnoreWrites := by
  intro s
  refine ⟨fun a v h => ⟨decodeWrite_reserved v h, rfl⟩, fun a hlo hout => ?_⟩
  exact exec_rd (readReg_reserved s (by omega) (by omega))

/-- Settles O21: the read answers `statusWord`, whose number is the sum of its fields. -/
theorem statusReadHasTheFieldLayout : Obligations.StatusReadHasTheFieldLayout := fun s =>
  ⟨statusWord s.flags, exec_rd (readReg_status s), statusWord_toNat s.flags⟩

/-- What a read of byte offset `k` answers, 0 where it faults. -/
def readValue (s : State) (k : Nat) : Word :=
  match readReg s (regAt k) with
  | .ok v => v
  | .error _ => 0

/-- A read that cannot fault answers its value. -/
theorem exec_rd_readValue {s : State} {k : Nat} {v : Word} (h : readReg s (regAt k) = .ok v) :
    exec (.rd (regAt k)) s = .next { s with rdata := readValue s k } := by
  rw [exec_rd h, readValue, h]

/-- Settles O22: each offset's equation of `readReg`, and the words as numbers. -/
theorem configurationReadsReturnTheFields : Obligations.ConfigurationReadsReturnTheFields := by
  intro s
  refine ⟨readValue s, ?_, rfl, ?_, ?_, ?_, ?_, ?_, ?_, ?_, rfl⟩
  · simp only [List.forall_mem_cons, List.not_mem_nil, false_imp_iff, implies_true, and_true]
    exact ⟨exec_rd_readValue (readReg_cmd s), exec_rd_readValue (readReg_lzwCfg s),
      exec_rd_readValue (readReg_framePos s), exec_rd_readValue (readReg_frameSize s),
      exec_rd_readValue (readReg_renCfg s), exec_rd_readValue (readReg_palSize s),
      exec_rd_readValue (readReg_bgColor s), exec_rd_readValue (readReg_destPos s),
      exec_rd_readValue (readReg_dataIn s)⟩
  · exact BitVec.toNat_setWidth_of_le (by decide)
  · exact pair_toNat _ _
  · exact pair_toNat _ _
  · exact renCfgWord_toNat _ _ _ _
  · exact BitVec.toNat_setWidth_of_le (by decide)
  · exact BitVec.toNat_setWidth_of_le (by decide)
  · exact pair_toNat _ _

/-- Settles O23: each offset's equation of `readReg`, and the words as numbers. -/
theorem workingRegisterReads : Obligations.WorkingRegisterReads := by
  intro s
  refine ⟨readValue s, ?_, rfl, rfl, pair_toNat _ _, lzwStateWord_toNat _, lzwPrevWord_toNat _,
    bitStateWord_toNat _, rfl, BitVec.toNat_setWidth_of_le (by decide), rfl⟩
  simp only [List.forall_mem_cons, List.not_mem_nil, false_imp_iff, implies_true, and_true]
  exact ⟨exec_rd_readValue (readReg_idxCount s), exec_rd_readValue (readReg_expected s),
    exec_rd_readValue (readReg_decSize s), exec_rd_readValue (readReg_lzwState s),
    exec_rd_readValue (readReg_lzwPrev s), exec_rd_readValue (readReg_bitState s),
    exec_rd_readValue (readReg_srcPos s), exec_rd_readValue (readReg_renRow s),
    exec_rd_readValue (readReg_idxRaddr s)⟩

/-- Settles O24: the window's answer below IDX_COUNT and at or above it. -/
theorem indexWindowRead : Obligations.IndexWindowRead := fun s =>
  ⟨fun _ hlt hb => exec_rd ((readReg_idxRdata s).trans (idxRdata_below hlt hb)),
    fun hle => exec_rd ((readReg_idxRdata s).trans (idxRdata_above hle))⟩

/-! ### A configuration write and its read-back (R16; 43_host_commands.md R141) -/

/-- What a configuration write makes of the configuration (R19 to R25). -/
def cfgUpdate : Instr → Option (Cfg → Cfg)
  | .wrLzwCfg mcs => some fun c => { c with mcs := mcs }
  | .wrFramePos x y => some fun c => { c with frameX := x, frameY := y }
  | .wrFrameSize w h => some fun c => { c with w := w, h := h }
  | .wrRenCfg il te ti ch =>
    some fun c => { c with interlace := il, transpEn := te, transpIdx := ti, chunkH := ch }
  | .wrPalSize n => some fun c => { c with palSize := n }
  | .wrBgColor bg => some fun c => { c with bg := bg }
  | .wrDestPos x y => some fun c => { c with destX := x, destY := y }
  | _ => none

theorem exec_cfgUpdate {i : Instr} {f : Cfg → Cfg} (h : cfgUpdate i = some f) (s : State) :
    exec i s = writeCfg f s := by
  cases i <;> cases h <;> rfl

/-- A configuration write takes effect only while PHASE = IDLE. -/
theorem writeCfg_cases {f : Cfg → Cfg} {s t : State} (h : writeCfg f s = .next t) :
    (s.flags.phase = .idle ∧ t = { s with cfg := f s.cfg }) ∨
    (s.flags.phase ≠ .idle ∧ t = s) := by
  unfold writeCfg at h
  split at h <;> injection h with h
  · next hp => exact .inl ⟨hp, h.symm⟩
  · next hp => exact .inr ⟨hp, h.symm⟩

/-- While PHASE = IDLE the configuration takes the written fields, and the read then shows them. -/
theorem cfgUpdate_readsBack {s : State} {i : Instr} {f : Cfg → Cfg} {a : RegAddr} {v : Word}
    (hp : s.flags.phase = .idle) (hi : cfgUpdate i = some f)
    (hr : readReg { s with cfg := f s.cfg } a = .ok v) :
    ∃ t, exec i s = .next t ∧ t = { s with cfg := t.cfg } ∧
      exec (.rd a) t = .next { t with rdata := v } :=
  ⟨{ s with cfg := f s.cfg }, (exec_cfgUpdate hi s).trans (if_pos hp), rfl, exec_rd hr⟩

/-- Settles O26: each offset decodes to its register's write, and the fields taken from the word make
up the word under the register's mask. -/
theorem writtenConfigurationReadsBackMasked : Obligations.WrittenConfigurationReadsBackMasked := by
  intro s v hp
  have low {n : Nat} (h : n < 32) := congrArg (Except.ok (ε := Fault)) (setWidth_field_low v h)
  have whole := congrArg (Except.ok (ε := Fault)) (pair_fields_masked v)
  have ren := congrArg (Except.ok (ε := Fault)) (renCfgWord_fields v)
  simp only [List.forall_mem_cons, List.not_mem_nil, false_imp_iff, implies_true, and_true]
  refine ⟨?lzwCfg, ?framePos, ?frameSize, ?renCfg, ?palSize, ?bgColor, ?destPos⟩
  case lzwCfg => exact cfgUpdate_readsBack hp rfl (low (by decide : 4 < 32))
  case palSize => exact cfgUpdate_readsBack hp rfl (low (by decide : 9 < 32))
  case bgColor => exact cfgUpdate_readsBack hp rfl (low (by decide : 16 < 32))
  case renCfg => exact cfgUpdate_readsBack hp rfl ren
  case framePos | frameSize | destPos => exact cfgUpdate_readsBack hp rfl whole

/-! ### The sink port (R37; 42_palette_mapper.md R127) -/

/-- With the palette loaded every payload byte has a value. -/
theorem chunkByte_ok {s : State} (h : FrameOk s) (hp : PaletteLoaded s) (k : Nat) :
    ∃ b, chunkByte s k = .ok b := by
  obtain ⟨c, hc⟩ := resolve_ok h hp (chunkAddr s (k / 2))
  exact ⟨_, by rw [chunkByte, hc]⟩

/-- While a chunk is on offer the port shows its next byte. -/
theorem snkOffer_some {s : State} {b : Byte} (he : chunkEnabled s = true)
    (hlt : s.snkTaken < chunkLen s) (hb : chunkByte s s.snkTaken = .ok b) :
    snkOffer s = .ok (some
      { data := b, sob := s.snkTaken == 0, eob := s.snkTaken + 1 == chunkLen s,
        x0 := chunkX0 s, y0 := chunkY0 s, x1 := chunkX1 s, y1 := chunkY1 s }) := by
  rw [snkOffer, if_pos ⟨he, hlt⟩, hb]

/-- A byte before the last is taken and counted. -/
theorem sinkTurn_before_last {s : State} {b : Byte} (he : chunkEnabled s = true)
    (hlt : s.snkTaken + 1 < chunkLen s) (hb : chunkByte s s.snkTaken = .ok b) :
    sinkTurn s = .next { s with snkTaken := s.snkTaken + 1 } := by
  rw [sinkTurn, if_pos he, if_pos hlt, hb]

/-- The last byte completes the CHUNK step. -/
theorem sinkTurn_last {s : State} (he : chunkEnabled s = true)
    (hlast : s.snkTaken + 1 = chunkLen s) : sinkTurn s = afterStep (exec .chunk s) := by
  rw [sinkTurn, if_pos he, if_neg (Nat.not_lt.2 (Nat.le_of_eq hlast.symm))]

/-- With nothing waiting at the port, an engine step is all of its turn. -/
theorem afterStep_engine {s : State} {i : Instr}
    (hi : i = .fill ∨ i = .exhaust ∨ i = .code ∨ i = .chunk) (hr : s.resetPending = false)
    (hh : s.held = none) : afterStep (exec i s) = exec i s :=
  afterStep_none fun _ ht =>
    have ⟨h1, h2, _⟩ := engine_port hi ht
    ⟨h2.trans hr, h1.trans hh⟩

/-- No DATA_IN write is held outside a decode (43_host_commands.md R149). -/
theorem PortOk.held_none {s : State} (h : PortOk s) (hp : s.flags.phase ≠ .decoding) :
    s.held = none :=
  by_contra fun hne => hp (h.1 hne).1

/-- Settles O47: the chunk is on offer because the render runs (R127), its next byte has a value
because the palette is loaded, and the turn is that byte's. -/
theorem sinkTakesOneByteATurn : Obligations.SinkTakesOneByteATurn := by
  intro s q hs hp hpl hq
  obtain ⟨b, hb⟩ := chunkByte_ok hs.frame hpl s.snkTaken
  have he : chunkEnabled s = true := chunkEnabled_of hs.render hp
  obtain ⟨-, -, -, -, -, -, htaken⟩ := hs.render.2.2 hp
  have hheld : s.held = none := hs.port.held_none (by rw [hp]; decide)
  have hstep : step s = sinkTurn { s with sched := q } := step_cons hq
  refine ⟨⟨_, snkOffer_some he htaken hb, hb, ?_, ?_⟩, fun hlt => ?_, fun hlast hr => ?_⟩
  · simp
  · simp
  · exact hstep.trans (sinkTurn_before_last (s := { s with sched := q }) he hlt hb)
  · exact hstep.trans ((sinkTurn_last (s := { s with sched := q }) he hlast).trans
      (afterStep_engine (.inr (.inr (.inr rfl))) hr hheld))

/-! ### What each instruction can do

One inversion lemma per instruction: the next states it can answer, with the conditions of each. -/

/-- SOFT_RESET waits for a blit that is being transferred, else resets (43_host_commands.md R144). -/
theorem exec_softReset_cases {s t : State} (h : exec .softReset s = .next t) :
    (transferring s = true ∧ t = { s with resetPending := true }) ∨
    (transferring s = false ∧ t = softReset s) := by
  change execSoftReset s = _ at h
  unfold execSoftReset at h
  split at h <;> injection h with h
  · next hx => exact .inl ⟨hx, h.symm⟩
  · next hx => exact .inr ⟨by simpa using hx, h.symm⟩

/-- START_DECODE is refused, or sets up the decode its checks allow (R145). -/
theorem exec_startDecode_cases {s t : State} (h : exec .startDecode s = .next t) :
    (∃ e, e ≠ .none ∧ t = refuse e s) ∨
    (s.flags.phase = .idle ∧ 2 ≤ s.cfg.mcs.toNat ∧ s.cfg.mcs.toNat ≤ 8 ∧
      s.cfg.w.toNat * s.cfg.h.toNat ≤ s.params.idxCap ∧ t = startDecode s) := by
  change execStartDecode s = _ at h
  unfold execStartDecode at h
  split at h
  · injection h with h; exact .inl ⟨_, by simp, h.symm⟩
  · next hp =>
    split at h
    · injection h with h; exact .inl ⟨_, by simp, h.symm⟩
    · next hm =>
      split at h <;> injection h with h
      · exact .inl ⟨_, by simp, h.symm⟩
      · next hc => exact .inr ⟨not_not.1 hp, by omega, by omega, by omega, h.symm⟩

/-- END_OF_DATA is refused outside a decode, else sets EOD (R146). -/
theorem exec_endOfData_cases {s t : State} (h : exec .endOfData s = .next t) :
    (s.flags.phase ≠ .decoding ∧ t = refuse .badPhase s) ∨
    (s.flags.phase = .decoding ∧
      t = { s with flags := { s.flags with eod := true, errCode := .none } }) := by
  change execEndOfData s = _ at h
  unfold execEndOfData at h
  split at h <;> injection h with h
  · next hp => exact .inl ⟨hp, h.symm⟩
  · next hp => exact .inr ⟨not_not.1 hp, h.symm⟩

/-- START_RENDER is refused, or does what its checks allow (R147). -/
theorem exec_startRender_cases {s t : State} (h : exec .startRender s = .next t) :
    (∃ e, e ≠ .none ∧ t = refuse e s) ∨
    (s.flags.phase = .idle ∧ s.flags.decDone = true ∧ s.cfg.chunkH.toNat ≠ 0 ∧
      coordOverflow s = false ∧ t = startRender s) := by
  change execStartRender s = _ at h
  unfold execStartRender at h
  split at h
  · injection h with h; exact .inl ⟨_, by simp, h.symm⟩
  · next hp =>
    split at h
    · injection h with h; exact .inl ⟨_, by simp, h.symm⟩
    · next hd =>
      split at h
      · injection h with h; exact .inl ⟨_, by simp, h.symm⟩
      · next hc =>
        split at h <;> injection h with h
        · exact .inl ⟨_, by simp, h.symm⟩
        · next ho =>
          exact .inr ⟨not_not.1 hp, by simpa using hd, hc, by simpa using ho, h.symm⟩

/-- FILL takes the oldest byte of INQ (40_bit_reader.md R81). -/
theorem exec_fill_next {s t : State} (h : exec .fill s = .next t) :
    fillEnabled s = true ∧ ∃ b rest, s.inq = b :: rest ∧
      t = { s with inq := rest, br := fillByte b s.br } := by
  change execFill s = _ at h
  unfold execFill at h
  split at h
  · next he =>
    split at h
    · cases h
    · next b rest hq => injection h with h; exact ⟨he, b, rest, hq, h.symm⟩
  · cases h

/-- EXHAUST is Stop(EXHAUSTED) (R83). -/
theorem exec_exhaust_next {s t : State} (h : exec .exhaust s = .next t) :
    exhaustEnabled s = true ∧ t = stop .exhausted s := by
  change execExhaust s = _ at h
  unfold execExhaust at h
  split at h
  · next he => injection h with h; exact ⟨he, h.symm⟩
  · cases h

/-- CHUNK sends the blit on offer (42_palette_mapper.md R127). -/
theorem exec_chunk_next {s t : State} (h : exec .chunk s = .next t) :
    chunkEnabled s = true ∧ ∃ b, chunkBlit s = .ok b ∧ t = chunkDone b s := by
  change execChunk s = _ at h
  unfold execChunk at h
  split at h
  · next he =>
    split at h
    · cases h
    · next b hb => injection h with h; exact ⟨he, b, hb, h.symm⟩
  · cases h

/-- CLEAR is DictReset (41_lzw_decompressor.md R95). -/
theorem exec_clear_next {s t : State} (h : exec .clear s = .next t) :
    classInForce .clear (BitVec.ofNat 12 s.codeCtx.clear) s = true ∧ t = dictReset s := by
  change execClear s = _ at h
  unfold execClear at h
  split at h
  · next hc => injection h with h; exact ⟨hc, h.symm⟩
  · cases h

/-- END is Stop(END) (R96). -/
theorem exec_endCode_next {s t : State} (h : exec .endCode s = .next t) :
    classInForce .endCode (BitVec.ofNat 12 s.codeCtx.endCode) s = true ∧ t = stop .end_ s := by
  change execEnd s = _ at h
  unfold execEnd at h
  split at h
  · next hc => injection h with h; exact ⟨hc, h.symm⟩
  · cases h

/-- INVALID is Stop(BAD_CODE) (R99). -/
theorem exec_invalid_next {s t : State} {c : Code} (h : exec (.invalid c) s = .next t) :
    classInForce .invalid c s = true ∧ t = stop .badCode s := by
  change execInvalid c s = _ at h
  unfold execInvalid at h
  split at h
  · next hc => injection h with h; exact ⟨hc, h.symm⟩
  · cases h

/-- A palette write takes effect only while PHASE = IDLE (R150). -/
theorem exec_wrPal_cases {i : BitVec 8} {c : Colour} {s t : State}
    (h : exec (.wrPal i c) s = .next t) :
    (s.flags.phase = .idle ∧ t = { s with pal := Mem.write s.pal i.toNat c }) ∨
    (s.flags.phase ≠ .idle ∧ t = s) := by
  change execWrPal i c s = _ at h
  unfold execWrPal at h
  split at h <;> injection h with h
  · next hp => exact .inl ⟨hp, h.symm⟩
  · next hp => exact .inr ⟨hp, h.symm⟩

/-- A read that completes sets the read port (R140). -/
theorem exec_rd_next {a : RegAddr} {s t : State} (h : exec (.rd a) s = .next t) :
    ∃ v, readReg s a = .ok v ∧ t = { s with rdata := v } := by
  change execRd a s = _ at h
  unfold execRd at h
  split at h
  · next v hv => injection h with h; exact ⟨v, hv, h.symm⟩
  · cases h

/-- START_RENDER does not write EOD. -/
theorem startRender_eod (s : State) : (startRender s).flags.eod = s.flags.eod := by
  unfold startRender
  dsimp only
  split
  · rfl
  · split <;> rfl

/-- Of the frame registers a finished CHUNK step writes REN_ROW alone (R129). -/
theorem chunkDone_frame (b : Blit) (s : State) : (chunkDone b s).frame =
    { s.frame with renRow := s.frame.renRow + BitVec.ofNat 16 (chunkRows s) } := rfl

/-- A finished CHUNK step does not write EOD. -/
theorem chunkDone_eod (b : Blit) (s : State) : (chunkDone b s).flags.eod = s.flags.eod := by
  unfold chunkDone
  dsimp only
  split <;> rfl

/-- No code class writes EOD. -/
theorem codeClass_eod {i : Instr} (hi : i.format = .code) {s t : State}
    (h : exec i s = .next t) : t.flags.eod = s.flags.eod := by
  obtain ⟨-, -, -, e | ⟨c, -, e⟩⟩ := codeClass_frame hi h <;> rw [e]
  rfl

/-- CODE writes what EXTRACT and the code classes write (R94). -/
theorem exec_code_frame {s t : State} (h : exec .code s = .next t) :
    t = { s with br := t.br, flags := t.flags,
                 frame := { s.frame with idxCount := t.frame.idxCount },
                 idxmem := t.idxmem, dict := t.dict, lzw := t.lzw } ∧
    t.flags.eod = s.flags.eod := by
  obtain ⟨-, i, hi, he⟩ := execCode_cases h
  obtain ⟨-, e, -, -⟩ := codeClass_frame hi he
  exact ⟨by rw [e]; rfl, codeClass_eod (s := extract s) hi he⟩

/-! ### Who writes what (R11, R34) -/

/-- Settles O51: instruction by instruction, what its outcomes leave as before. -/
theorem onlyTheNamedInstructionsWrite : Obligations.OnlyTheNamedInstructionsWrite := by
  intro i s t h
  cases i
  case nop | wrReserved | cmdReserved | wrIdxRaddr => injection h with h; subst h; simp
  case softReset => obtain ⟨-, rfl⟩ | ⟨-, rfl⟩ := exec_softReset_cases h <;> simp
  case startDecode =>
    obtain ⟨e, -, rfl⟩ | ⟨-, -, -, -, rfl⟩ := exec_startDecode_cases h <;> simp
  case endOfData => obtain ⟨-, rfl⟩ | ⟨-, rfl⟩ := exec_endOfData_cases h <;> simp
  case startRender =>
    obtain ⟨e, -, rfl⟩ | ⟨-, -, -, -, rfl⟩ := exec_startRender_cases h
    · simp
    · simp [startRender_eod]
  case clear => obtain ⟨-, rfl⟩ := exec_clear_next h; simp
  case endCode => obtain ⟨-, rfl⟩ := exec_endCode_next h; simp
  case invalid => obtain ⟨-, rfl⟩ := exec_invalid_next h; simp
  case exhaust => obtain ⟨-, rfl⟩ := exec_exhaust_next h; simp
  case known | kwkwk =>
    obtain ⟨-, e, -, -⟩ := codeClass_frame rfl h
    have heod := codeClass_eod rfl h
    rw [e]; simp [heod]
  case code =>
    obtain ⟨e, heod⟩ := exec_code_frame h
    rw [e]; simp [heod]
  case fill => obtain ⟨-, b, rest, -, rfl⟩ := exec_fill_next h; simp
  case chunk =>
    obtain ⟨-, b, -, rfl⟩ := exec_chunk_next h
    simp [chunkDone_frame, chunkDone_eod]
  case wrDataIn b =>
    injection h with h; subst h
    obtain ⟨-, e⟩ | ⟨-, -, -, e⟩ | ⟨-, -, -, e⟩ := offerByte_cases b s <;> simp [e]
  case wrPal => obtain ⟨-, rfl⟩ | ⟨-, rfl⟩ := exec_wrPal_cases h <;> simp
  case rd => obtain ⟨v, -, rfl⟩ := exec_rd_next h; simp
  case wrLzwCfg | wrFramePos | wrFrameSize | wrRenCfg | wrPalSize | wrBgColor | wrDestPos =>
    obtain ⟨-, rfl⟩ | ⟨-, rfl⟩ := writeCfg_cases ((exec_cfgUpdate rfl s).symm.trans h) <;> simp

/-! ### Reset (R36) -/

/-- Settles O5: the reset state as it is written, an empty memory holding no value. -/
theorem resetValuesAreAsStated : Obligations.ResetValuesAreAsStated :=
  ⟨rfl, rfl, rfl, rfl, rfl, rfl, rfl, fun _ => rfl, fun _ => rfl, fun _ => rfl, rfl, rfl⟩

/-- No memory lists anything at reset. -/
theorem memOk_reset : MemOk State.reset := by
  refine ⟨List.Pairwise.nil, ?_, List.Pairwise.nil, ?_, List.Pairwise.nil, ?_⟩ <;>
    exact fun e he => absurd he List.not_mem_nil

/-- IDX_COUNT, EXPECTED and the frame size are 0 at reset. -/
theorem frameOk_reset : FrameOk State.reset :=
  ⟨rfl, Nat.zero_le _, Nat.le_refl _, fun a ha => absurd ha (Nat.not_lt_zero a), fun _ => .inr rfl⟩

theorem flagsOk_reset : FlagsOk State.reset := by
  unfold FlagsOk; decide

theorem renderOk_reset : RenderOk State.reset :=
  ⟨Nat.le_refl _, fun _ => rfl, fun h => nomatch h⟩

/-- Settles O54: the parts of the invariant one by one at the reset state. -/
theorem resetMeetsTheInvariant : Obligations.ResetMeetsTheInvariant :=
  { params := params_ok
    bits := bitsOk_reset rfl
    lzw := .inl ⟨rfl, by decide⟩
    dict := fun c hc => absurd hc (Nat.not_lt_zero c)
    frame := frameOk_reset
    flags := flagsOk_reset
    render := renderOk_reset
    mem := memOk_reset
    queue := Nat.zero_le _
    blits := fun _ hb => absurd hb List.not_mem_nil
    port := .of_none rfl rfl }

end Sys2Proof.Machine
end

section
/-! ## Proofs: the memories and who may change them (20_memory.md)

What the port's accesses are, what a busy block keeps, that no step leaves a memory (R50), and that a
push commutes with the engine. -/

namespace Sys2Proof.Machine

/-! ### The accesses of the port (R51) -/

/-- An access of the register port: a command, a register write or a read (30_encoding.md R60). -/
def IsAccess (i : Instr) : Prop :=
  match i.format with
  | .cmd | .regWr | .regRd => True
  | .code | .engine => False

theorem decodeOp_isAccess (op : BitVec 8) : IsAccess (decodeOp op) := by
  unfold decodeOp
  iterate 5 refine iteInduction (fun _ => trivial) fun _ => ?_
  trivial

theorem decodeWrite_isAccess (a : RegAddr) (v : Word) : IsAccess (decodeWrite a v) := by
  unfold decodeWrite
  refine iteInduction (fun _ => decodeOp_isAccess _) fun _ => ?_
  iterate 10 refine iteInduction (fun _ => trivial) fun _ => ?_
  trivial

/-- What a request decodes to is an access: no code class and no engine step. -/
theorem decodeRequest_isAccess (r : PortReq) : IsAccess (decodeRequest r) :=
  iteInduction (fun _ => trivial) fun _ => decodeWrite_isAccess _ _

theorem natOfBytes_bytesOfNat (k n : Nat) : natOfBytes (bytesOfNat k n) = n % 256 ^ k := by
  induction k generalizing n with
  | zero => exact (Nat.mod_one n).symm
  | succ k ih =>
    rw [bytesOfNat, natOfBytes, ih, Nat.pow_succ', Nat.mod_mul, BitVec.toNat_ofNat]

theorem bytesOfNat_length (k n : Nat) : (bytesOfNat k n).length = k := by
  induction k generalizing n with
  | zero => rfl
  | succ k ih => rw [bytesOfNat, List.length_cons, ih]

/-- A number of six bytes is read back as the request with those bits, if its padding is 0 (log 10). -/
theorem decodeBytes_bytesOfNat {n : Nat} (h : n < 2 ^ 48) : decodeBytes (bytesOfNat 6 n) =
    if n < 2 ^ 43 then .ok (decodeRequest (PortReq.ofNat n), []) else .error .badPadding := by
  have hn : natOfBytes (bytesOfNat 6 n) = n :=
    (natOfBytes_bytesOfNat 6 n).trans (Nat.mod_eq_of_lt h)
  rw [decodeBytes, List.take_of_length_le (bytesOfNat_length 6 n).le,
    List.drop_of_length_le (bytesOfNat_length 6 n).le, bytesOfNat_length, if_neg (by decide), hn]

/-- What a table word is read as is what its bits ask of the port. -/
theorem decodeTableWord_eq_some {nbits w : Nat} {i : Instr} (h : decodeTableWord nbits w = some i) :
    decodeRequest (PortReq.ofNat (w % 2 ^ nbits)) = i := by
  unfold decodeTableWord at h
  split at h
  · cases h
  · next hlt =>
    rw [decodeBytes_bytesOfNat (Nat.lt_of_not_le hlt)] at h
    by_cases hpad : w % 2 ^ nbits < 2 ^ 43
    · rw [if_pos hpad] at h; exact Option.some.inj h
    · rw [if_neg hpad] at h; cases h

/-- With nothing waiting at the port, a step that is the host's runs its next access. -/
theorem step_host {s : State} {r : PortReq} {rest : List PortReq} {q : List Turn}
    (hq : s.sched = .host :: q) (hheld : s.held = none) (hpend : s.resetPending = false)
    (hreq : s.hostQ = r :: rest) :
    step s = exec (decodeRequest r) { s with hostQ := rest, sched := q } :=
  (step_cons hq).trans (hostTurn_cons hheld hreq hpend)

/-- A request presented at the port is run by the next step. -/
theorem step_presentRequest (r : PortReq) (s : State) : step (presentRequest r s) =
    exec (decodeRequest r) { s with held := none, resetPending := false } :=
  step_host (s := presentRequest r s) rfl rfl rfl rfl

/-- Settles O44: the bits of a table word are those of one request, and `withFetchWord` presents it. -/
theorem placedWordRunsNext : Obligations.PlacedWordRunsNext := by
  intro s nbits w i h
  rw [State.withFetchWord, step_presentRequest, decodeTableWord_eq_some h]

/-- SOFT_RESET while a blit is being transferred is left waiting (43_host_commands.md R144). -/
theorem exec_softReset_transferring {s : State} (h : transferring s = true) :
    exec .softReset s = .next { s with resetPending := true } :=
  if_pos h

/-- Settles O43: nothing waits at the port, so the turn is the access's; a SOFT_RESET finds the blit
being transferred. -/
theorem hostTurnRunsTheDecodedAccess : Obligations.HostTurnRunsTheDecodedAccess := by
  intro s r rest q hq hheld hpend hreq
  have hstep := step_host hq hheld hpend hreq
  refine ⟨hstep, fun hreset hphase hrow htaken => ?_⟩
  rw [hstep, hreset]
  exact exec_softReset_transferring (transferring_iff.2 ⟨hphase, hrow, htaken⟩)

/-! ### What a busy block keeps (R51 item 4; 70_reset_and_hazards.md R190) -/

/-- While the engine runs, SOFT_RESET alone changes the configuration, and nothing changes PAL. -/
theorem exec_busy_keeps {i : Instr} {s t : State} (h : exec i s = .next t)
    (hp : s.flags.phase ≠ .idle) : (i ≠ .softReset → t.cfg = s.cfg) ∧ t.pal = s.pal := by
  cases i
  case nop | wrReserved | cmdReserved | wrIdxRaddr => injection h with h; subst h; simp
  case softReset => obtain ⟨-, rfl⟩ | ⟨-, rfl⟩ := exec_softReset_cases h <;> simp
  case startDecode =>
    obtain ⟨e, -, rfl⟩ | ⟨-, -, -, -, rfl⟩ := exec_startDecode_cases h <;> simp
  case endOfData => obtain ⟨-, rfl⟩ | ⟨-, rfl⟩ := exec_endOfData_cases h <;> simp
  case startRender =>
    obtain ⟨e, -, rfl⟩ | ⟨-, -, -, -, rfl⟩ := exec_startRender_cases h <;> simp
  case clear | endCode | known | kwkwk | invalid =>
    obtain ⟨-, e, -, -⟩ := codeClass_frame rfl h
    rw [e]; simp
  case code => rw [(exec_code_frame h).1]; simp
  case fill => obtain ⟨-, b, rest, -, rfl⟩ := exec_fill_next h; simp
  case exhaust => obtain ⟨-, rfl⟩ := exec_exhaust_next h; simp
  case chunk => obtain ⟨-, b, -, rfl⟩ := exec_chunk_next h; simp
  case wrDataIn b =>
    injection h with h; subst h
    obtain ⟨-, e⟩ | ⟨-, -, -, e⟩ | ⟨-, -, -, e⟩ := offerByte_cases b s <;> simp [e]
  case rd => obtain ⟨v, -, rfl⟩ := exec_rd_next h; simp
  case wrPal =>
    obtain ⟨hidle, -⟩ | ⟨-, rfl⟩ := exec_wrPal_cases h
    · exact absurd hidle hp
    · simp
  case wrLzwCfg | wrFramePos | wrFrameSize | wrRenCfg | wrPalSize | wrBgColor | wrDestPos =>
    obtain ⟨hidle, -⟩ | ⟨-, rfl⟩ := writeCfg_cases ((exec_cfgUpdate rfl s).symm.trans h)
    · exact absurd hidle hp
    · simp

/-- Settles O49: the configuration and PAL as lists are kept, so every entry reads as before. -/
theorem busyBlockKeepsItsConfiguration : Obligations.BusyBlockKeepsItsConfiguration := by
  intro i s t h hp
  obtain ⟨hcfg, hpal⟩ := exec_busy_keeps h hp
  exact ⟨hcfg, fun a => by rw [hpal]⟩

/-- While a render runs, an access other than SOFT_RESET changes neither the frame registers nor
IDXMEM nor how much of the blit is taken. -/
theorem exec_access_keeps {i : Instr} (hi : IsAccess i) (hr : i ≠ .softReset) {s t : State}
    (hp : s.flags.phase = .rendering) (h : exec i s = .next t) :
    t.frame = s.frame ∧ t.idxmem = s.idxmem ∧ t.snkTaken = s.snkTaken := by
  cases i
  case clear | endCode | known | kwkwk | invalid | fill | exhaust | code | chunk => cases hi
  case softReset => exact absurd rfl hr
  case nop | wrReserved | cmdReserved | wrIdxRaddr =>
    injection h with h; subst h; exact ⟨rfl, rfl, rfl⟩
  case startDecode =>
    obtain ⟨e, -, rfl⟩ | ⟨hidle, -⟩ := exec_startDecode_cases h
    · exact ⟨rfl, rfl, rfl⟩
    · rw [hp] at hidle; cases hidle
  case startRender =>
    obtain ⟨e, -, rfl⟩ | ⟨hidle, -⟩ := exec_startRender_cases h
    · exact ⟨rfl, rfl, rfl⟩
    · rw [hp] at hidle; cases hidle
  case endOfData => obtain ⟨-, rfl⟩ | ⟨-, rfl⟩ := exec_endOfData_cases h <;> exact ⟨rfl, rfl, rfl⟩
  case wrDataIn b =>
    injection h with h; subst h
    obtain ⟨-, e⟩ | ⟨-, -, -, e⟩ | ⟨-, -, -, e⟩ := offerByte_cases b s <;> rw [e] <;>
      exact ⟨rfl, rfl, rfl⟩
  case rd => obtain ⟨v, -, rfl⟩ := exec_rd_next h; exact ⟨rfl, rfl, rfl⟩
  case wrPal => obtain ⟨-, rfl⟩ | ⟨-, rfl⟩ := exec_wrPal_cases h <;> exact ⟨rfl, rfl, rfl⟩
  case wrLzwCfg | wrFramePos | wrFrameSize | wrRenCfg | wrPalSize | wrBgColor | wrDestPos =>
    obtain ⟨-, rfl⟩ | ⟨-, rfl⟩ := writeCfg_cases ((exec_cfgUpdate rfl s).symm.trans h) <;>
      exact ⟨rfl, rfl, rfl⟩

/-- A payload byte depends on the configuration, the frame, IDXMEM and PAL only. -/
theorem chunkByte_congr {s t : State} (h1 : t.cfg = s.cfg) (h2 : t.frame = s.frame)
    (h3 : t.idxmem = s.idxmem) (h4 : t.pal = s.pal) (k : Nat) : chunkByte t k = chunkByte s k := by
  unfold chunkByte chunkAddr srcRow resolve readPal
  rw [h1, h2, h3, h4]

/-- Settles O50: what the blit and its bytes depend on is kept by a busy block (R190) and by every
access but SOFT_RESET. -/
theorem hostCannotChangeTheBlitOnOffer : Obligations.HostCannotChangeTheBlitOnOffer := by
  intro s t r hp hr h
  obtain ⟨hcfg, hpal⟩ := exec_busy_keeps h (by rw [hp]; decide)
  obtain ⟨hframe, hidx, htaken⟩ := exec_access_keeps (decodeRequest_isAccess r) hr hp h
  exact ⟨chunkBlit_congr (hcfg hr) hframe hidx hpal,
    chunkByte_congr (hcfg hr) hframe hidx hpal, htaken⟩

/-! ### No step leaves a memory (R50) -/

/-- A CHUNK step that is enabled completes, or faults on an entry below PAL_SIZE that was never
written (R42; 42_palette_mapper.md R127). -/
theorem exec_chunk_cases {s : State} (h : FrameOk s) (he : chunkEnabled s = true) :
    (∃ b, exec .chunk s = .next (chunkDone b s)) ∨
    (∃ i, exec .chunk s = .fault (.palUnwritten i) ∧ i < s.cfg.palSize.toNat ∧
      Mem.read s.pal i = none) := by
  change (∃ b, execChunk s = _) ∨ (∃ i, execChunk s = _ ∧ _)
  rw [execChunk, if_pos he]
  rcases chunkBlit_cases h with ⟨b, hb⟩ | ⟨i, hi, hsize, -, hpal⟩
  · exact .inl ⟨b, by rw [hb]⟩
  · exact .inr ⟨i, by rw [hi], hsize, hpal⟩

/-- Settles O42: while a render runs CHUNK is enabled, and its pixels have a colour or an unwritten
entry. -/
theorem chunkFaultsOnlyOnAnUnwrittenEntry : Obligations.ChunkFaultsOnlyOnAnUnwrittenEntry := by
  intro s hs hp
  exact (exec_chunk_cases hs.frame (chunkEnabled_of hs.render hp)).imp_left
    fun ⟨b, hb⟩ => ⟨chunkDone b s, hb⟩

theorem exec_chunk_safe {s : State} (h : FrameOk s) (he : chunkEnabled s = true) :
    SafeAnswer (exec .chunk s) := by
  rcases exec_chunk_cases h he with ⟨b, hb⟩ | ⟨i, hi, -, -⟩
  · rw [hb]; trivial
  · rw [hi]; trivial

/-- In a decode the common sub-steps of a data code complete (41_lzw_decompressor.md R100 to R105). -/
theorem dataCode_completes {s : State} (h : BlockInv s) (hp : s.flags.phase = .decoding)
    (first : Byte) (rest : List Byte) (cur : Code) : ∃ t, dataCode first rest cur s = .next t := by
  have ha := h.active hp
  by_cases hv : s.lzw.prevValid = true
  · obtain ⟨p, ps, hprev⟩ := prev_str ha h.dict hv
    obtain ⟨t, ht, -⟩ := dataCode_spec (first := first) (rest := rest) (cur := cur) h.room ha
      fun _ => hprev
    exact ⟨t, ht⟩
  · obtain ⟨t, ht, -⟩ := dataCode_spec (first := first) (rest := rest) (cur := cur) (p := 0)
      (ps := []) h.room ha fun hv' => absurd hv' hv
    exact ⟨t, ht⟩

/-- In a decode whatever code comes is executed to the end (41_lzw_decompressor.md R94 to R99). -/
theorem exec_decodeCode_completes {s : State} (h : BlockInv s) (hp : s.flags.phase = .decoding)
    (c : Code) : ∃ t, exec (decodeCode s.codeCtx c) s = .next t := by
  have ha := h.active hp
  have hclass := classify_cases s c
  unfold decodeCode
  cases hc : classify s.codeCtx c <;> rw [hc] at hclass
  case clear => exact ⟨_, execClear_next hp ha⟩
  case endCode => exact ⟨_, execEnd_next hp ha⟩
  case invalid => exact ⟨_, execInvalid_next hp ha hclass⟩
  case known =>
    obtain ⟨hlt, hclear, hend⟩ := hclass
    obtain ⟨b, bs, hb, -⟩ := h.dict.str hlt hclear hend
    exact (dataCode_completes h hp b bs c).imp fun t ht =>
      (execKnown_eq hp hlt hclear hend hb).trans ht
  case kwkwk =>
    obtain ⟨heq, hv⟩ := hclass
    obtain ⟨p, ps, hprev⟩ := prev_str ha h.dict hv
    exact (dataCode_completes h hp p (ps ++ [p]) _).imp fun t ht =>
      (execKwkwk_eq hp ha hv (heq ▸ c.isLt) hprev).trans ht

theorem decodeCode_format (x : CodeCtx) (c : Code) : (decodeCode x c).format = .code := by
  unfold decodeCode
  cases classify x c <;> rfl

/-- CODE runs what the extracted code decodes to in the state after EXTRACT (R94). -/
theorem exec_code_eq {s : State} (h : codeEnabled s = true) :
    exec .code s = exec (decodeCode s.codeCtx (extractedCode s)) (extract s) := by
  change execCode s = _
  rw [execCode, if_pos h, decodeCode]
  cases classify s.codeCtx (extractedCode s) <;> rfl

/-- An enabled CODE step completes. -/
theorem exec_code_completes {s : State} (h : BlockInv s) (he : codeEnabled s = true) :
    ∃ t, exec .code s = .next t := by
  obtain ⟨hp, hw⟩ : s.flags.phase = .decoding ∧ s.lzw.codeWidth.toNat ≤ s.br.bitCnt.toNat := by
    simpa [codeEnabled] using he
  rw [exec_code_eq he]
  exact exec_decodeCode_completes (h.extract hw) hp (extractedCode s)

/-- FILL takes the oldest byte (40_bit_reader.md R81). -/
theorem exec_fill_eq {s : State} {b : Byte} {rest : List Byte} (he : fillEnabled s = true)
    (hq : s.inq = b :: rest) :
    exec .fill s = .next { s with inq := rest, br := fillByte b s.br } := by
  change execFill s = _
  rw [execFill, if_pos he, hq]

/-- An enabled FILL step completes: INQ has a byte. -/
theorem exec_fill_completes {s : State} (he : fillEnabled s = true) :
    ∃ t, exec .fill s = .next t := by
  cases hq : s.inq with
  | nil => simp [fillEnabled, hq] at he
  | cons b rest => exact ⟨_, exec_fill_eq he hq⟩

/-- The selected step is one that is enabled (30_encoding.md R75). -/
theorem engineSelect_enabled {s : State} {i : Instr} (h : engineSelect s = some i) :
    (i = .fill ∧ fillEnabled s = true) ∨ (i = .exhaust ∧ exhaustEnabled s = true) ∨
    (i = .code ∧ codeEnabled s = true) ∨ (i = .chunk ∧ chunkEnabled s = true) := by
  unfold engineSelect at h
  split_ifs at h with hfill hexhaust hcode hchunk <;> cases h
  · exact .inl ⟨rfl, hfill⟩
  · exact .inr (.inl ⟨rfl, hexhaust⟩)
  · exact .inr (.inr (.inl ⟨rfl, hcode⟩))
  · exact .inr (.inr (.inr ⟨rfl, hchunk⟩))

theorem safeAnswer_of_next {r : Result} (h : ∃ t, r = .next t) : SafeAnswer r := by
  obtain ⟨t, rfl⟩ := h
  trivial

/-- The step the state selects is safe. -/
theorem exec_engine_safe {s : State} {i : Instr} (h : BlockInv s) (hi : engineSelect s = some i) :
    SafeAnswer (exec i s) := by
  obtain ⟨rfl, he⟩ | ⟨rfl, he⟩ | ⟨rfl, he⟩ | ⟨rfl, he⟩ := engineSelect_enabled hi
  · exact safeAnswer_of_next (exec_fill_completes he)
  · exact safeAnswer_of_next ⟨stop .exhausted s, if_pos he⟩
  · exact safeAnswer_of_next (exec_code_completes h he)
  · exact exec_chunk_safe h.frame he

/-- What a read answers is safe: a value, or the fault of a palette entry never written. -/
def SafeRead {α : Type} : Except Fault α → Prop
  | .ok _ => True
  | .error f => SafeAnswer (.fault f)

theorem readPal_safe (s : State) (i : Nat) : SafeRead (readPal s i) := by
  unfold readPal
  cases Mem.read s.pal i <;> trivial

/-- Below IDX_COUNT every byte of IDXMEM has a value (R41). -/
theorem idxRdata_safe {s : State} (h : FrameOk s) : SafeRead (idxRdata s) := by
  obtain ⟨-, -, -, hsome, -⟩ := h
  by_cases hlt : s.idxRaddr.toNat < s.frame.idxCount.toNat
  · obtain ⟨b, hb⟩ := Option.isSome_iff_exists.1 (hsome _ hlt)
    rw [idxRdata_below hlt hb]; trivial
  · rw [idxRdata_above (Nat.le_of_not_lt hlt)]; trivial

theorem readReg_safe {s : State} (h : FrameOk s) (a : RegAddr) : SafeRead (readReg s a) := by
  unfold readReg
  iterate 19 refine iteInduction (fun _ => trivial) fun _ => ?_
  refine iteInduction (fun _ => idxRdata_safe h) fun _ => ?_
  refine iteInduction (fun _ => ?_) fun _ => trivial
  have hpal := readPal_safe s (a.toNat - 0x100)
  cases hc : readPal s (a.toNat - 0x100) <;> rw [hc] at hpal <;> exact hpal

theorem chunkByte_safe {s : State} (h : FrameOk s) (k : Nat) : SafeRead (chunkByte s k) := by
  unfold chunkByte
  rcases resolve_cases h (chunkAddr s (k / 2)) with ⟨c, hc⟩ | ⟨i, hi, -⟩
  · rw [hc]; trivial
  · rw [hi]; trivial

/-- Every access is safe: only a read can stop. -/
theorem exec_access_safe {i : Instr} (hi : IsAccess i) {s : State} (h : FrameOk s) :
    SafeAnswer (exec i s) := by
  cases i
  case clear | endCode | known | kwkwk | invalid | fill | exhaust | code | chunk => cases hi
  case rd a =>
    change SafeAnswer (execRd a s)
    have hread := readReg_safe h a
    unfold execRd
    cases hv : readReg s a <;> rw [hv] at hread <;> exact hread
  case nop | wrReserved | cmdReserved | wrIdxRaddr | wrDataIn => trivial
  case softReset | endOfData | wrPal | wrLzwCfg | wrFramePos | wrFrameSize | wrRenCfg | wrPalSize |
      wrBgColor | wrDestPos =>
    exact iteInduction (fun _ => trivial) fun _ => trivial
  case startDecode =>
    iterate 3 refine iteInduction (fun _ => trivial) fun _ => ?_
    trivial
  case startRender =>
    iterate 4 refine iteInduction (fun _ => trivial) fun _ => ?_
    trivial

theorem afterStep_safe {r : Result} (h : SafeAnswer r) : SafeAnswer (afterStep r) := by
  cases r
  case next => trivial
  case fault => exact h
  case refused => exact h

theorem engineTurn_safe {s : State} (h : BlockInv s) : SafeAnswer (engineTurn s) := by
  unfold engineTurn
  cases hi : engineSelect s with
  | none => trivial
  | some i => exact afterStep_safe (exec_engine_safe h hi)

theorem sinkTurn_safe {s : State} (h : BlockInv s) : SafeAnswer (sinkTurn s) := by
  unfold sinkTurn
  split_ifs with he hlt
  · have hbyte := chunkByte_safe h.frame s.snkTaken
    cases hb : chunkByte s s.snkTaken <;> rw [hb] at hbyte <;> exact hbyte
  · exact afterStep_safe (exec_chunk_safe h.frame he)
  · trivial

/-- What waits at the port keeps the block's own invariant when it is done. -/
theorem BlockInv.settle {s : State} (h : BlockInv s) : BlockInv (settle s) := by
  unfold Machine.settle
  split_ifs
  · exact h.softReset
  · cases s.held with
    | none => exact h
    | some b => exact h.offerByte b

theorem BlockInv.engineTurn {s t : State} (h : BlockInv s) (ht : engineTurn s = .next t) :
    BlockInv t := by
  obtain ⟨i, u, -, hu, rfl⟩ | ⟨-, rfl⟩ := engineTurn_cases ht
  · exact (h.exec hu).settle
  · exact h

/-- The state the host's next access sees meets the block's invariant (43_host_commands.md R144). -/
theorem BlockInv.beforeAccess {s t : State} (h : BlockInv s) (ht : beforeAccess s = .next t) :
    BlockInv t := by
  unfold Machine.beforeAccess at ht
  split_ifs at ht
  · exact h.engineTurn ht
  · cases ht; exact h

theorem beforeAccess_safe {s : State} (h : BlockInv s) : SafeAnswer (beforeAccess s) := by
  unfold beforeAccess
  split_ifs
  · exact engineTurn_safe h
  · trivial

theorem hostTurn_safe {s : State} (h : BlockInv s) : SafeAnswer (hostTurn s) := by
  have hbefore := beforeAccess_safe h
  unfold hostTurn
  cases s.held with
  | some b => trivial
  | none =>
    cases s.hostQ with
    | nil => trivial
    | cons r rest =>
      cases ht : beforeAccess s <;> rw [ht] at hbefore
      case next t =>
        have hframe : FrameOk { t with hostQ := rest } := (h.beforeAccess ht).frame
        exact exec_access_safe (decodeRequest_isAccess r) hframe
      case fault => exact hbefore
      case refused => exact hbefore

/-- Settles O56: whoever moves, the turn is safe from the block's own invariant, which does not look at
the schedule. -/
theorem stepStopsOnlyOnAnUnwrittenPaletteEntry :
    Obligations.StepStopsOnlyOnAnUnwrittenPaletteEntry := by
  intro s hs
  have h : BlockInv (dropTurn s) :=
    hs.env s.held s.resetPending s.rdata s.idxRaddr s.hostQ s.sched.tail
  unfold step takeTurn
  cases nextTurn s with
  | host => exact hostTurn_safe h
  | engine => exact engineTurn_safe h
  | sink => exact sinkTurn_safe h
  | reset => trivial

/-! ### A push commutes with the engine (R51, R52) -/

/-- `s` with another INQ and another write held at the port. Of the engine's steps only FILL and
EXHAUST look at the one and none at the other (R51; 30_encoding.md R75). -/
def requeued (q : List Byte) (held : Option Byte) (s : State) : State :=
  { s with inq := q, held := held }

section
variable (q : List Byte) (held : Option Byte)

@[simp] theorem requeued_lzw (s : State) : (requeued q held s).lzw = s.lzw := rfl

@[simp] theorem readDict_requeued (s : State) (c : Code) :
    readDict (requeued q held s) c = readDict s c := rfl

theorem emitByte_requeued {b : Byte} {s t : State} (h : emitByte b s = .ok t) :
    emitByte b (requeued q held s) = .ok (requeued q held t) := by
  unfold emitByte at h
  split_ifs at h with hlt hcap <;> cases h
  · exact (if_pos hlt).trans (if_pos hcap)
  · exact if_neg hlt

theorem emit_requeued {bs : List Byte} {s t : State} (h : emit bs s = .ok t) :
    emit bs (requeued q held s) = .ok (requeued q held t) := by
  induction bs generalizing s with
  | nil => cases h; rfl
  | cons b bs ih =>
    unfold emit at h
    cases hb : emitByte b s <;> rw [hb] at h
    case error => cases h
    case ok u =>
      rw [emit, emitByte_requeued q held hb]
      exact ih h

theorem append_requeued {p : Byte} {ps : List Byte} {s t : State} (h : append p ps s = .ok t) :
    append p ps (requeued q held s) = .ok (requeued q held t) := by
  unfold append at h
  split_ifs at h with hlt
  cases h
  exact if_pos hlt

theorem countCutoff_requeued (s : State) :
    countCutoff (requeued q held s) = requeued q held (countCutoff s) := by
  rw [countCutoff_eq, countCutoff_eq]; rfl

theorem dataCode_requeued {first : Byte} {rest : List Byte} {cur : Code} {s t : State}
    (h : dataCode first rest cur s = .next t) :
    dataCode first rest cur (requeued q held s) = .next (requeued q held t) := by
  unfold dataCode at h ⊢
  cases hu : emit (first :: rest) s <;> rw [hu] at h
  case error => cases h
  case ok u =>
    rw [emit_requeued q held hu]
    dsimp only at h ⊢
    by_cases hv : u.lzw.prevValid = true
    · rw [if_pos hv] at h
      refine Eq.trans (if_pos hv) ?_
      by_cases hfull : u.lzw.nextCode.toNat = Config.dictSize
      · rw [if_pos hfull] at h
        cases h
        exact if_pos hfull
      · rw [if_neg hfull] at h
        refine Eq.trans (if_neg hfull) ?_
        cases hr : readDict u u.lzw.prevCode <;> rw [hr] at h
        case none => cases h
        case some e =>
          dsimp only at h
          cases ha : append e.1 (e.2 ++ [first]) u <;> rw [ha] at h <;> cases h
          case ok.refl v =>
            rw [requeued_lzw, readDict_requeued, hr]
            dsimp only
            rw [append_requeued q held ha]
            exact congrArg _ (countCutoff_requeued q held (setPrev cur v))
    · rw [if_neg hv] at h
      cases h
      refine Eq.trans (if_neg hv) ?_
      exact congrArg _ (countCutoff_requeued q held (setPrev cur u))

/-- A code class that completes does so whatever INQ and the port hold, and leaves them. -/
theorem codeClass_requeued {i : Instr} (hi : i.format = .code) {s t : State}
    (h : exec i s = .next t) : exec i (requeued q held s) = .next (requeued q held t) := by
  cases i
  case clear => obtain ⟨hc, rfl⟩ := exec_clear_next h; exact if_pos hc
  case endCode => obtain ⟨hc, rfl⟩ := exec_endCode_next h; exact if_pos hc
  case invalid c => obtain ⟨hc, rfl⟩ := exec_invalid_next h; exact if_pos hc
  case known c =>
    change execKnown c s = _ at h
    unfold execKnown at h
    split_ifs at h with hc
    refine Eq.trans (if_pos hc) ?_
    cases hr : readDict s c <;> rw [hr] at h
    case none => cases h
    case some e =>
      rw [readDict_requeued, hr]
      exact dataCode_requeued q held h
  case kwkwk =>
    change execKwkwk s = _ at h
    unfold execKwkwk at h
    split_ifs at h with hc
    refine Eq.trans (if_pos hc) ?_
    cases hr : readDict s s.lzw.prevCode <;> rw [hr] at h
    case none => cases h
    case some e =>
      rw [requeued_lzw, readDict_requeued, hr]
      exact dataCode_requeued q held h
  all_goals cases hi

theorem code_requeued {s t : State} (h : exec .code s = .next t) :
    exec .code (requeued q held s) = .next (requeued q held t) := by
  have he := (execCode_cases h).1
  have he' : codeEnabled (requeued q held s) = true := he
  rw [exec_code_eq he] at h
  rw [exec_code_eq he']
  exact codeClass_requeued q held (decodeCode_format _ _) h
end

/-- A byte that INQ has room for is pushed (43_host_commands.md R149). -/
theorem exec_wrDataIn_push {s : State} (b : Byte) (hp : s.flags.phase = .decoding)
    (heod : s.flags.eod = false) (hroom : s.inq.length < s.params.inqDepth) :
    exec (.wrDataIn b) s = .next (requeued (s.inq ++ [b]) none s) := by
  obtain ⟨hdrop, -⟩ | ⟨-, -, -, e⟩ | ⟨-, -, hfull, -⟩ := offerByte_cases b s
  · simp [hp, heod] at hdrop
  · exact congrArg _ e
  · omega

/-- Before END_OF_DATA a push leaves the selected step selected: a queue with a byte keeps one, and
CODE does not look at it (30_encoding.md R75). -/
theorem engineSelect_push {s : State} {i : Instr} (b : Byte) (hp : s.flags.phase = .decoding)
    (heod : s.flags.eod = false) (hi : engineSelect s = some i) :
    (i = .code ∨ i = .fill) ∧ engineSelect (requeued (s.inq ++ [b]) none s) = some i := by
  rw [engineSelect_eq] at hi ⊢
  simp only [requeued, hp, heod] at hi ⊢
  by_cases hcode : s.lzw.codeWidth.toNat ≤ s.br.bitCnt.toNat
  · rw [if_pos hcode] at hi ⊢
    cases hi
    exact ⟨.inl rfl, rfl⟩
  · rw [if_neg hcode] at hi ⊢
    by_cases hq : s.inq ≠ []
    · rw [if_pos hq] at hi
      cases hi
      exact ⟨.inr rfl, if_pos (List.append_ne_nil_of_left_ne_nil hq _)⟩
    · rw [if_neg hq, if_neg Bool.false_ne_true] at hi
      cases hi

/-- Settles O53: FILL takes the oldest byte and the push comes behind every other; CODE does not look
at INQ. -/
theorem pushCommutesWithTheEngine : Obligations.PushCommutesWithTheEngine := by
  intro s t b i hp heod hroom hi h htp
  obtain ⟨hcf, hsel⟩ := engineSelect_push b hp heod hi
  rcases hcf with rfl | rfl
  case inl =>
    obtain ⟨e, hteod⟩ := exec_code_frame h
    have hinq : t.inq = s.inq := by rw [e]
    have hparams : t.params = s.params := by rw [e]
    refine ⟨_, _, exec_wrDataIn_push b hp heod hroom, hsel, code_requeued _ _ h, ?_⟩
    rw [← hinq]
    exact exec_wrDataIn_push b htp (hteod.trans heod) (by rwa [hinq, hparams])
  case inr =>
    obtain ⟨he, c, rest, hq, rfl⟩ := exec_fill_next h
    have he' : fillEnabled (requeued (s.inq ++ [b]) none s) = true := by
      simpa [fillEnabled, requeued, hq] using he
    have hlen : rest.length < s.params.inqDepth := by
      rw [hq, List.length_cons] at hroom; omega
    refine ⟨_, _, exec_wrDataIn_push b hp heod hroom, hsel, ?_, exec_wrDataIn_push b htp heod hlen⟩
    exact exec_fill_eq he' (congrArg (· ++ [b]) hq)

end Sys2Proof.Machine
end

section
/-! ## Proofs: the encodings (30_encoding.md)

The fields of a register word, the classes of a code, what decoding an encoding gives, and the
engine step that has no encoding because the state selects it. -/

namespace Sys2Proof.Machine

/-! ### The fields of a word (10_state.md R16 to R31) -/

/-- A field kept in the low bits of a word, the others 0, is read back. -/
theorem field_setWidth {n : Nat} (x : BitVec n) (h : n ≤ 32) : field (x.setWidth 32) 0 n = x :=
  (BitVec.extractLsb'_setWidth_of_le (by omega)).trans BitVec.extractLsb'_eq_self

theorem field_pair_low (lo hi : BitVec 16) : field (pair lo hi) 0 16 = lo :=
  BitVec.extractLsb'_append_eq_right

theorem field_pair_high (lo hi : BitVec 16) : field (pair lo hi) 16 16 = hi :=
  BitVec.extractLsb'_append_eq_left

section
variable (interlace transpEn : Bool) (transpIdx chunkH : BitVec 8)

theorem renCfgWord_interlace :
    (renCfgWord interlace transpEn transpIdx chunkH).getLsbD 0 = interlace := by
  simp only [renCfgWord, BitVec.getLsbD_append]
  simp

theorem renCfgWord_transpEn :
    (renCfgWord interlace transpEn transpIdx chunkH).getLsbD 1 = transpEn := by
  simp only [renCfgWord, BitVec.getLsbD_append]
  simp

theorem renCfgWord_transpIdx :
    field (renCfgWord interlace transpEn transpIdx chunkH) 8 8 = transpIdx := by
  simp only [renCfgWord, field]
  iterate 3 rw [BitVec.extractLsb'_append_eq_of_le (by decide)]
  exact BitVec.extractLsb'_append_eq_right

theorem renCfgWord_chunkH :
    field (renCfgWord interlace transpEn transpIdx chunkH) 16 8 = chunkH := by
  simp only [renCfgWord, field]
  iterate 4 rw [BitVec.extractLsb'_append_eq_of_le (by decide)]
  exact BitVec.extractLsb'_append_eq_right

end

/-- A field that starts at bit 0 depends on the bits below its width alone. -/
theorem field_congr {v w : Word} {n : Nat} (h : v.toNat % 2 ^ n = w.toNat % 2 ^ n) :
    field v 0 n = field w 0 n := by
  apply BitVec.eq_of_toNat_eq
  simp only [BitVec.extractLsb'_toNat, Nat.shiftRight_zero, h]

/-- Settles O3: a write of either offset decodes its low byte, a field that is the same in both. -/
theorem ignoredBitsDoNotMatter : Obligations.IgnoredBitsDoNotMatter := by
  intro v w h
  have hbyte : field v 0 8 = field w 0 8 := field_congr h
  exact ⟨congrArg decodeOp hbyte, congrArg Instr.wrDataIn hbyte⟩

/-! ### Writes (R65 to R67) -/

/-- An OP above the five commands is the reserved command (R66). -/
theorem decodeOp_reserved {op : BitVec 8} (h : 5 ≤ op.toNat) : decodeOp op = .cmdReserved op := by
  have hne (k : BitVec 8) (hk : k.toNat < 5) : op ≠ k := by rintro rfl; omega
  simp (disch := decide) only [decodeOp, if_neg (hne _ _)]

/-- A write of REN_CFG takes its four fields (10_state.md R22). -/
theorem decodeWrite_renCfg (v : Word) : decodeWrite (regAt 0x014) v =
    .wrRenCfg (v.getLsbD 0) (v.getLsbD 1) (field v 8 8) (field v 16 8) := rfl

/-- A write into the palette window is the write of its entry (10_state.md R31). -/
theorem decodeWrite_palette {a : RegAddr} (v : Word) (hlo : 0x100 ≤ a.toNat)
    (hhi : a.toNat < 0x200) : decodeWrite a v = .wrPal (a.extractLsb' 0 8) (field v 0 16) := by
  have hne : ∀ k ≤ 0x48, a ≠ regAt k := fun k hk => ne_regAt (by omega)
  simp (disch := decide) only [decodeWrite, if_neg (hne _ _)]
  exact if_pos ⟨hlo, hhi⟩

/-- The word index of palette entry `i`. -/
theorem regAt_palette_toNat (i : BitVec 8) :
    (regAt (0x400 + 4 * i.toNat)).toNat = 0x100 + i.toNat := by
  have := i.isLt
  rw [BitVec.toNat_ofNat]
  omega

/-- A palette write at entry `i`'s offset names entry `i`. -/
theorem decodeWrite_regAt_palette (i : BitVec 8) (c : Colour) :
    decodeWrite (regAt (0x400 + 4 * i.toNat)) (c.setWidth 32) = .wrPal i c := by
  have haddr := regAt_palette_toNat i
  have hi := i.isLt
  have hentry : (regAt (0x400 + 4 * i.toNat)).extractLsb' 0 8 = i := by
    apply BitVec.eq_of_toNat_eq
    rw [BitVec.extractLsb'_toNat, haddr, Nat.shiftRight_zero]
    omega
  rw [decodeWrite_palette _ (by omega) (by omega), hentry, field_setWidth c (by decide)]

/-! ### Codes of the stream (R63) -/

/-- The state of a decode that reads its next code in context `x`, with the code width NEXT_CODE has
(41_lzw_decompressor.md R93 item 3): a class does not depend on the width. -/
def decodingIn (x : CodeCtx) : State :=
  { State.reset with
    lzw :=
      { decMcs := x.decMcs
        codeWidth := BitVec.ofNat 4
          (min 12 (max (x.decMcs.toNat + 1) (1 + Nat.log2 x.nextCode.toNat)))
        nextCode := x.nextCode
        prevValid := x.prevValid
        prevCode := 0#12 } }

theorem classify_eq_decodingIn (x : CodeCtx) (c : Code) :
    classify x c = classify (decodingIn x).codeCtx c := rfl

/-- In a legal context the LZW registers are those of a decode. -/
theorem lzwActive_decodingIn {x : CodeCtx} (h : x.ok = true) : LzwActive (decodingIn x).lzw := by
  simp only [CodeCtx.ok, Bool.and_eq_true, decide_eq_true_eq] at h
  obtain ⟨⟨⟨⟨⟨⟨hlo, hhi⟩, hclear⟩, hnext⟩, -⟩, -⟩, -⟩ := h
  change 2 ^ x.decMcs.toNat + 2 ≤ x.nextCode.toNat at hclear
  have hpow : 1 < 2 ^ x.decMcs.toNat := Nat.one_lt_two_pow (by omega)
  refine ⟨hlo, hhi, hclear, hnext, ?width, fun _ => ⟨?_, ?_, ?_⟩⟩
  case width => exact (BitVec.toNat_ofNat _ _).trans (Nat.mod_eq_of_lt (by omega))
  all_goals simp only [decodingIn, BitVec.toNat_ofNat]; omega

/-- Settles O4: a class says its condition of the code, and a code that meets the condition has the
class. -/
theorem classesAreTheConditionsOfTheTable : Obligations.ClassesAreTheConditionsOfTheTable := by
  intro x c h
  have hact := lzwActive_decodingIn h
  rw [classify_eq_decodingIn x c]
  have hcond {k : CodeClass} (hk : classify (decodingIn x).codeCtx c = k) :=
    hk ▸ classify_cases (decodingIn x) c
  have hcode {n : Nat} (hn : c.toNat = n) : BitVec.ofNat 12 n = c := by
    rw [← hn, BitVec.ofNat_toNat, BitVec.setWidth_eq]
  refine ⟨⟨hcond, fun hc => ?_⟩, ⟨hcond, fun hc => ?_⟩, ⟨hcond, fun ⟨hlt, hclear, hend⟩ => ?_⟩,
    ⟨hcond, fun ⟨heq, hprev⟩ => ?_⟩, ⟨hcond, fun hc => ?_⟩⟩
  · exact hcode hc ▸ classify_clear hact
  · exact hcode hc ▸ classify_endCode hact
  · exact classify_known hlt hclear hend
  · exact classify_kwkwk hact heq hprev
  · exact classify_invalid hact hc

/-! ### Encodings as a whole (R60) -/

/-- Settles O1: each word is decoded. -/
theorem wordsOfTheTablesDecode : Obligations.WordsOfTheTablesDecode := by
  unfold Obligations.WordsOfTheTablesDecode
  decide

/-- A code class is encoded as the code that has it (R63). -/
theorem decode_encode_code {x : CodeCtx} {i : Instr} (hok : x.ok = true) (hwf : i.wfIn x = true)
    (hi : i.format = .code) : decode x (encode x i) = .ok i := by
  have hact := lzwActive_decodingIn hok
  cases i
  case clear =>
    have h : classify x (BitVec.ofNat 12 x.clear) = .clear :=
      (classify_eq_decodingIn x _).trans (classify_clear hact)
    rw [encode, decode, decodeCode, h]
  case endCode =>
    have h : classify x (BitVec.ofNat 12 x.endCode) = .endCode :=
      (classify_eq_decodingIn x _).trans (classify_endCode hact)
    rw [encode, decode, decodeCode, h]
  case known c =>
    simp only [Instr.wfIn, Bool.and_eq_true, decide_eq_true_eq, bne_iff_ne] at hwf
    obtain ⟨⟨⟨hlt, hclear⟩, hend⟩, -⟩ := hwf
    have h : classify x c = .known :=
      (classify_eq_decodingIn x c).trans (classify_known hlt hclear hend)
    rw [encode, decode, decodeCode, h]
  case kwkwk =>
    simp only [Instr.wfIn, Bool.and_eq_true, decide_eq_true_eq] at hwf
    obtain ⟨hprev, hlt⟩ := hwf
    have heq : (x.nextCode.setWidth 12).toNat = x.nextCode.toNat :=
      (BitVec.toNat_setWidth _ _).trans (Nat.mod_eq_of_lt hlt)
    have h : classify x (x.nextCode.setWidth 12) = .kwkwk :=
      (classify_eq_decodingIn x _).trans (classify_kwkwk hact heq hprev)
    rw [encode, decode, decodeCode, h]
  case invalid c =>
    simp only [Instr.wfIn, Bool.and_eq_true, Bool.or_eq_true, decide_eq_true_eq, beq_iff_eq,
      Bool.not_eq_true'] at hwf
    obtain ⟨hcond, -⟩ := hwf
    have h : classify x c = .invalid :=
      (classify_eq_decodingIn x c).trans (classify_invalid hact hcond)
    rw [encode, decode, decodeCode, h]
  all_goals cases hi

/-- Settles O2: an access is decoded from its offset and the fields of its word, a code from its
class. -/
theorem decodeOfEncodeIsTheInstruction : Obligations.DecodeOfEncodeIsTheInstruction := by
  intro x i hok hwf henc
  cases i
  case fill | exhaust | code | chunk => exact absurd rfl henc
  case clear | endCode | known | kwkwk | invalid => exact decode_encode_code hok hwf rfl
  case nop | softReset | startDecode | endOfData | startRender | wrIdxRaddr | rd => rfl
  all_goals apply congrArg Except.ok
  case cmdReserved op =>
    have hop : 5 ≤ op.toNat := of_decide_eq_true hwf
    exact (congrArg decodeOp (field_setWidth op (by decide))).trans (decodeOp_reserved hop)
  case wrLzwCfg mcs => exact congrArg Instr.wrLzwCfg (field_setWidth mcs (by decide))
  case wrPalSize n => exact congrArg Instr.wrPalSize (field_setWidth n (by decide))
  case wrBgColor bg => exact congrArg Instr.wrBgColor (field_setWidth bg (by decide))
  case wrDataIn b => exact congrArg Instr.wrDataIn (field_setWidth b (by decide))
  case wrFramePos a b => exact congrArg₂ Instr.wrFramePos (field_pair_low a b) (field_pair_high a b)
  case wrFrameSize w h => exact congrArg₂ Instr.wrFrameSize (field_pair_low w h) (field_pair_high w h)
  case wrDestPos a b => exact congrArg₂ Instr.wrDestPos (field_pair_low a b) (field_pair_high a b)
  case wrRenCfg il te ti ch =>
    change decodeWrite (regAt 0x014) (renCfgWord il te ti ch) = _
    rw [decodeWrite_renCfg, renCfgWord_interlace, renCfgWord_transpEn, renCfgWord_transpIdx,
      renCfgWord_chunkH]
  case wrPal i c => exact decodeWrite_regAt_palette i c
  case wrReserved a v => exact decodeWrite_reserved v (Bool.not_eq_true' _ ▸ hwf)

/-! ### The step the state selects (R75) -/

section
variable {s : State} {q : List Turn} (hq : s.sched = .engine :: q)
include hq

/-- An engine turn with nothing waiting at the port is the selected step. -/
theorem step_engine_some {i : Instr} (hheld : s.held = none) (hpend : s.resetPending = false)
    (hi : engineSelect s = some i) : step s = exec i { s with sched := q } :=
  (step_cons hq).trans (engineTurn_some (s := { s with sched := q }) hi hpend hheld)

/-- An engine turn with no step to take is used up (log 2). -/
theorem step_engine_none (hi : engineSelect s = none) : step s = .next { s with sched := q } := by
  have hi' : engineSelect { s with sched := q } = none := hi
  rw [step_cons hq, takeTurn, engineTurn, hi']

end

/-- Settles O45: each case's conditions pick its row of the selection. -/
theorem engineTurnRunsTheSelectedStep : Obligations.EngineTurnRunsTheSelectedStep := by
  intro s q hq hheld hpend
  have hsome {i : Instr} (hi : engineSelect s = some i) := step_engine_some hq hheld hpend hi
  have hnone (hi : engineSelect s = none) := step_engine_none hq hi
  rw [engineSelect_eq] at hsome hnone
  refine ⟨fun hp => hnone ?idle, fun hp hlt hinq => hsome ?fill,
    fun hp hlt hinq heod => hsome ?exhaust, fun hp hlt hinq heod => hnone ?hold,
    fun hp hle => hsome ?code, fun hp hrow => hsome ?chunk⟩
  case idle => rw [hp]
  case fill => simp [hp, hlt, hinq]
  case exhaust => simp [hp, hlt, hinq, heod]
  case hold => simp [hp, hlt, hinq, heod]
  case code => simp [hp, hle]
  case chunk => simp [hp, hrow]

end Sys2Proof.Machine
end

section
/-! ## Proofs: the Bit Reader (40_bit_reader.md)

What `natOfBits` reads off the stream, FILL and EXTRACT on a reader that holds it, `read_bits` from
both; the two Bit Reader steps of the engine; and, turn by turn, that every step keeps the
invariant. -/

namespace Sys2Proof.Machine

/-! ### Numbers by their bits (30_encoding.md R61) -/

theorem natOfBits_lt (f : Nat → Bool) (n : Nat) : natOfBits f n < 2 ^ n := by
  induction n with
  | zero => exact Nat.one_pos
  | succ n ih => rw [natOfBits, Nat.pow_succ]; split <;> omega

theorem natOfBits_congr {f g : Nat → Bool} {n : Nat} (h : ∀ i < n, f i = g i) :
    natOfBits f n = natOfBits g n := by
  induction n with
  | zero => rfl
  | succ n ih =>
    rw [natOfBits, natOfBits, h n (Nat.lt_succ_self n), ih fun i hi => h i (Nat.lt_succ_of_lt hi)]

/-- The low bits of a number, one by one. -/
theorem natOfBits_testBit (x n : Nat) : natOfBits x.testBit n = x % 2 ^ n := by
  induction n with
  | zero => exact (Nat.mod_one x).symm
  | succ n ih =>
    rw [natOfBits, ih, Nat.mod_pow_succ, Nat.testBit_eq_decide_div_mod_eq]
    rcases Nat.mod_two_eq_zero_or_one (x / 2 ^ n) with h | h <;> simp [h]

/-- `m` bits and the `n` bits above them. -/
theorem natOfBits_add (f : Nat → Bool) (m n : Nat) :
    natOfBits f (m + n) = natOfBits f m + 2 ^ m * natOfBits (fun i => f (m + i)) n := by
  induction n with
  | zero => rfl
  | succ n ih =>
    rw [← Nat.add_assoc, natOfBits, ih, natOfBits, Nat.mul_add, Nat.add_assoc, Nat.pow_add]
    split <;> rfl

theorem natOfBits_mod (f : Nat → Bool) {m n : Nat} (h : m ≤ n) :
    natOfBits f n % 2 ^ m = natOfBits f m := by
  obtain ⟨k, rfl⟩ := Nat.exists_eq_add_of_le h
  rw [natOfBits_add, Nat.add_mul_mod_self_left, Nat.mod_eq_of_lt (natOfBits_lt f m)]

theorem natOfBits_div (f : Nat → Bool) {m n : Nat} (h : m ≤ n) :
    natOfBits f n / 2 ^ m = natOfBits (fun i => f (m + i)) (n - m) := by
  obtain ⟨k, rfl⟩ := Nat.exists_eq_add_of_le h
  rw [natOfBits_add, Nat.add_mul_div_left _ _ (Nat.two_pow_pos m),
    Nat.div_eq_of_lt (natOfBits_lt f m), Nat.zero_add, Nat.add_sub_cancel_left]

/-- The eight bits of the stream from bit `8 * k` on are byte `k`. -/
theorem natOfBits_streamBit_byte {data : List Byte} {k : Nat} {b : Byte} (hb : data[k]? = some b) :
    natOfBits (fun i => streamBit data (8 * k + i)) 8 = b.toNat := by
  have hbit : ∀ i < 8, streamBit data (8 * k + i) = b.toNat.testBit i := by
    intro i hi
    have hdiv : (8 * k + i) / 8 = k := by omega
    have hmod : (8 * k + i) % 8 = i := by omega
    rw [streamBit, hdiv, hmod, hb]; rfl
  rw [natOfBits_congr hbit, natOfBits_testBit, Nat.mod_eq_of_lt b.isLt]

/-! ### read_bits over the stream (R87) -/

/-- What `read_bits(n)` leaves once it has taken its `n` bits: EXTRACT (R82). -/
def dropBits (n : Nat) (r : BitReader) : BitReader :=
  { r with bitBuf := r.bitBuf >>> n, bitCnt := r.bitCnt - BitVec.ofNat 5 n }

/-- `read_bits(n)` where the bytes have run out. -/
theorem readBits_short {n : Nat} {bytes : List Byte} {r : BitReader}
    (h : (pullBytes n bytes r).2.bitCnt.toNat < n) :
    readBits n bytes r = (none, pullBytes n bytes r) :=
  if_pos h

/-- `read_bits(n)` where the bytes it pulls are enough. -/
theorem readBits_enough {n : Nat} {bytes : List Byte} {r : BitReader}
    (h : n ≤ (pullBytes n bytes r).2.bitCnt.toNat) :
    readBits n bytes r = (some ((pullBytes n bytes r).2.bitBuf.toNat % 2 ^ n),
      (pullBytes n bytes r).1, dropBits n (pullBytes n bytes r).2) :=
  if_neg (Nat.not_lt.2 h)

theorem dropBits_bitCnt {n : Nat} {r : BitReader} (h : n ≤ r.bitCnt.toNat) :
    (dropBits n r).bitCnt.toNat = r.bitCnt.toNat - n := by
  have h5 := r.bitCnt.isLt
  rw [dropBits, BitVec.toNat_sub, BitVec.toNat_ofNat]
  omega

theorem dropBits_bitBuf (n : Nat) (r : BitReader) :
    (dropBits n r).bitBuf.toNat = r.bitBuf.toNat / 2 ^ n := by
  rw [dropBits, BitVec.toNat_ushiftRight, Nat.shiftRight_eq_div_pow]

section
variable {data : List Byte} {k : Nat} {r : BitReader} (h : HoldsStream data k r)
include h

/-- Bits held are bits of the stream: the clean top (R85). -/
theorem HoldsStream.clean : r.bitBuf.toNat < 2 ^ r.bitCnt.toNat := by
  obtain ⟨-, -, -, hbuf⟩ := h
  rw [hbuf]; exact natOfBits_lt _ _

/-- The low `n` bits held are the `n`-bit field of the stream at the reader's position. -/
theorem HoldsStream.bitBuf_mod {n : Nat} (hn : n ≤ r.bitCnt.toNat) :
    some (r.bitBuf.toNat % 2 ^ n) = streamCode data (8 * k - r.bitCnt.toNat) n := by
  obtain ⟨hk, hpos, -, hbuf⟩ := h
  rw [streamCode, if_pos (by omega), hbuf, natOfBits_mod _ hn]

/-- FILL with the next byte of the stream (R81): the position stays, the byte's bits come on top. -/
theorem holdsStream_fillByte {b : Byte} (hc : r.bitCnt.toNat ≤ 11) (hb : data[k]? = some b) :
    HoldsStream data (k + 1) (fillByte b r) := by
  have hclean := h.clean
  obtain ⟨-, hpos, -, hbuf⟩ := h
  have hk : k < data.length := (List.getElem?_eq_some_iff.1 hb).1
  have hcnt := fillByte_bitCnt b hc
  refine ⟨hk, by omega, by omega, ?_⟩
  have hstart : 8 * (k + 1) - (r.bitCnt.toNat + 8) = 8 * k - r.bitCnt.toNat := by omega
  have hbyte : ∀ i, 8 * k - r.bitCnt.toNat + (r.bitCnt.toNat + i) = 8 * k + i := by omega
  rw [fillByte_bitBuf b hc hclean, hcnt, hstart, natOfBits_add, ← hbuf]
  simp only [hbyte]
  rw [natOfBits_streamBit_byte hb, Nat.mul_comm]

/-- EXTRACT (R82): the position goes up by the bits taken. -/
theorem holdsStream_dropBits {n : Nat} (hn : n ≤ r.bitCnt.toNat) :
    HoldsStream data k (dropBits n r) ∧
      8 * k - (dropBits n r).bitCnt.toNat = 8 * k - r.bitCnt.toNat + n := by
  obtain ⟨hk, hpos, hmax, hbuf⟩ := h
  have hcnt := dropBits_bitCnt hn
  have hstart : 8 * k - (r.bitCnt.toNat - n) = 8 * k - r.bitCnt.toNat + n := by omega
  refine ⟨⟨hk, by omega, by omega, ?_⟩, by omega⟩
  rw [dropBits_bitBuf, hbuf, natOfBits_div _ hn, hcnt, hstart]
  simp only [Nat.add_assoc]

end

/-- The bytes `read_bits(n)` merges leave the position where it was, and end with `n` bits held or
with the stream used up. -/
theorem pullBytes_holdsStream {data bytes : List Byte} {k n : Nat} {r : BitReader} (hn : n ≤ 12)
    (hdrop : data.drop k = bytes) (h : HoldsStream data k r) :
    ∃ k', (pullBytes n bytes r).1 = data.drop k' ∧
      HoldsStream data k' (pullBytes n bytes r).2 ∧
      8 * k' - (pullBytes n bytes r).2.bitCnt.toNat = 8 * k - r.bitCnt.toNat ∧
      (n ≤ (pullBytes n bytes r).2.bitCnt.toNat ∨ k' = data.length) := by
  induction bytes generalizing k r with
  | nil =>
    exact ⟨k, hdrop.symm, h, rfl, .inr (Nat.le_antisymm h.1 (List.drop_eq_nil_iff.1 hdrop))⟩
  | cons b bs ih =>
    rw [pullBytes]
    split
    · next hlt =>
      have hb : data[k]? = some b := by
        rw [← List.head?_drop, hdrop, List.head?_cons]
      have hrest : data.drop (k + 1) = bs := by
        rw [← List.tail_drop, hdrop, List.tail_cons]
      obtain ⟨k', hbytes, hholds, hpos, hend⟩ :=
        ih hrest (holdsStream_fillByte h (by omega) hb)
      have hcnt := fillByte_bitCnt (r := r) b (by omega)
      exact ⟨k', hbytes, hholds, by omega, hend⟩
    · next hge => exact ⟨k, hdrop.symm, h, rfl, .inl (Nat.le_of_not_lt hge)⟩

/-- Settles O29: the bytes merged keep the position; then `n` bits are there, and EXTRACT takes the
field, or the stream has ended short of them. -/
theorem readBitsReturnsTheStreamField : Obligations.ReadBitsReturnsTheStreamField := by
  intro data k n r h _ hn
  obtain ⟨k', hbytes, hholds, hpos, hend⟩ := pullBytes_holdsStream hn rfl h
  rcases Nat.lt_or_ge (pullBytes n (data.drop k) r).2.bitCnt.toNat n with hlt | hge
  · have hk : k' = data.length := hend.resolve_left (Nat.not_le.2 hlt)
    have habsent : ¬ 8 * k - r.bitCnt.toNat + n ≤ 8 * data.length := by
      obtain ⟨-, hle, -⟩ := hholds
      omega
    rw [readBits_short hlt, streamCode, if_neg habsent]
    exact ⟨rfl, k', hbytes, hholds, hpos⟩
  · obtain ⟨hdrop, hnext⟩ := holdsStream_dropBits hholds hge
    rw [readBits_enough hge, ← hpos]
    exact ⟨hholds.bitBuf_mod hge, k', hbytes, hdrop, hnext⟩

/-! ### The steps of the Bit Reader (R81, R83) -/

/-- Settles O27: in a decode FILL finds at most 11 bits held, so nothing of the byte is lost. -/
theorem fillTakesTheOldestByte : Obligations.FillTakesTheOldestByte := by
  intro s b rest hs hp hlt hq
  have he : fillEnabled s = true := by simp [fillEnabled, hp, hlt, hq]
  have hwidth := (hs.active hp).width
  have h11 : s.br.bitCnt.toNat ≤ 11 := by omega
  exact ⟨_, exec_fill_eq he hq, rfl, fillByte_bitBuf b h11 hs.bits.2, fillByte_bitCnt b h11, rfl⟩

/-- Settles O28: EXHAUST is enabled, and Stop writes the flags alone. -/
theorem exhaustStopsTheDecode : Obligations.ExhaustStopsTheDecode := by
  intro s hp hlt hq heod
  have he : exhaustEnabled s = true := by simp [exhaustEnabled, hp, hlt, hq, heod]
  exact if_pos he

/-! ### Every step keeps the invariant -/

/-- While a SOFT_RESET waits nothing is held: the one is of a render, the other of a decode. -/
theorem PortOk.held_none_of_pending {s : State} (h : PortOk s) (hw : s.resetPending = true) :
    s.held = none :=
  h.held_none (by rw [(h.2 hw).1]; decide)

/-- The schedule and the accesses still to come are no part of the invariant. -/
theorem Inv.dropTurn {s : State} (h : Inv s) : Inv (dropTurn s) :=
  { h.env s.held s.resetPending s.rdata s.idxRaddr s.hostQ s.sched.tail with port := h.port }

/-- An engine step that completes, with what waited at the port done after it. -/
theorem afterStep_next {r : Result} {t : State} (h : afterStep r = .next t) :
    ∃ u, r = .next u ∧ t = settle u := by
  cases r with
  | next u => injection h with h; exact ⟨u, rfl, h.symm⟩
  | fault => cases h
  | refused => cases h

/-- An engine step with what waits at the port done after it keeps the invariant. -/
theorem Inv.afterStep {i : Instr} {s t : State} (h : Inv s)
    (hi : i = .fill ∨ i = .exhaust ∨ i = .code ∨ i = .chunk)
    (ht : afterStep (exec i s) = .next t) : Inv t := by
  obtain ⟨u, hu, rfl⟩ := afterStep_next ht
  obtain ⟨hheld, hpend, -, -⟩ := engine_port hi hu
  exact { (h.exec hu).settle with
    port := .settle fun hw => hheld.trans (h.port.held_none_of_pending (hpend.symm.trans hw)) }

theorem Inv.engineTurn {s t : State} (h : Inv s) (ht : engineTurn s = .next t) : Inv t := by
  unfold Machine.engineTurn at ht
  cases hi : engineSelect s <;> rw [hi] at ht
  case none => cases ht; exact h
  case some i => exact h.afterStep (engineSelect_format hi) ht

/-- A byte of the blit taken, and not the last (42_palette_mapper.md R127). -/
theorem Inv.snkTaken_succ {s : State} (h : Inv s) (hp : s.flags.phase = .rendering)
    (hlt : s.snkTaken + 1 < chunkLen s) : Inv { s with snkTaken := s.snkTaken + 1 } := by
  obtain ⟨hrow, -, hrun⟩ := h.render
  obtain ⟨hw, hrow', hch, hpal, hx, hy, -⟩ := hrun hp
  exact { h with
    render := ⟨hrow, fun hne => absurd hp hne, fun _ => ⟨hw, hrow', hch, hpal, hx, hy, hlt⟩⟩
    port := ⟨h.port.1, fun _ => ⟨hp, Nat.succ_ne_zero _⟩⟩ }

theorem Inv.sinkTurn {s t : State} (h : Inv s) (ht : sinkTurn s = .next t) : Inv t := by
  unfold Machine.sinkTurn at ht
  split_ifs at ht with he hlt
  · cases hb : chunkByte s s.snkTaken <;> rw [hb] at ht <;> cases ht
    exact h.snkTaken_succ (chunkEnabled_iff.1 he).1 hlt
  · exact h.afterStep (.inr (.inr (.inr rfl))) ht
  · cases ht; exact h

/-- While PHASE = RENDERING the selected step is CHUNK (30_encoding.md R75). -/
theorem engineSelect_rendering {s : State} (h : RenderOk s) (hp : s.flags.phase = .rendering) :
    engineSelect s = some .chunk := by
  rw [engineSelect_eq, hp]
  exact if_pos (chunkEnabled_iff.1 (chunkEnabled_of h hp)).2

/-- Nothing waits at the port that the host's next access finds: a SOFT_RESET that waited has found
its blit finished (43_host_commands.md R144). -/
theorem beforeAccess_port {s t : State} (h : Inv s) (hheld : s.held = none)
    (ht : beforeAccess s = .next t) : t.held = none ∧ t.resetPending = false := by
  unfold beforeAccess at ht
  split_ifs at ht with hw
  · obtain ⟨i, u, hi, hu, rfl⟩ | ⟨hi, -⟩ := engineTurn_cases ht
    · obtain ⟨hheld', hpend, -, -⟩ := engine_port (engineSelect_format hi) hu
      rw [settle_pending (hpend.trans hw)]
      exact ⟨hheld'.trans hheld, rfl⟩
    · rw [engineSelect_rendering h.render (h.port.2 hw).1] at hi; cases hi
  · cases ht; exact ⟨hheld, by simpa using hw⟩

/-- The host's turn: its access is executed with nothing waiting before it. -/
theorem Inv.hostTurn {s t : State} (h : Inv s) (ht : hostTurn s = .next t) : Inv t := by
  unfold Machine.hostTurn at ht
  cases hheld : s.held <;> rw [hheld] at ht
  case some => cases ht; exact h
  case none =>
    cases hq : s.hostQ <;> rw [hq] at ht
    case nil => cases ht; exact h
    case cons r rest =>
      dsimp only at ht
      cases hu : beforeAccess s <;> rw [hu] at ht
      case fault => cases ht
      case refused => cases ht
      case next u =>
        obtain ⟨hheld', hpend⟩ := beforeAccess_port h hheld hu
        have hblock : BlockInv { u with hostQ := rest } :=
          (h.beforeAccess hu).env u.held u.resetPending u.rdata u.idxRaddr rest u.sched
        exact { hblock.exec ht with
          port := .exec (s := { u with hostQ := rest }) hheld' hpend ht }

/-- Hardware reset, from any state that meets the invariant (70_reset_and_hazards.md R185). -/
theorem Inv.hardwareReset {s : State} (h : Inv s) : Inv (hardwareReset s) :=
  { h.toBlockInv.hardwareReset with port := .of_none rfl rfl }

/-- Settles O55: the turn is used up, then whoever moves keeps the invariant. -/
theorem stepKeepsTheInvariant : Obligations.StepKeepsTheInvariant := by
  intro s t hs ht
  unfold step takeTurn at ht
  cases hturn : nextTurn s <;> rw [hturn] at ht
  case host => exact hs.dropTurn.hostTurn ht
  case engine => exact hs.dropTurn.engineTurn ht
  case sink => exact hs.dropTurn.sinkTurn ht
  case reset => cases ht; exact hs.dropTurn.hardwareReset

end Sys2Proof.Machine
end

section
/-! ## Proofs: the LZW Decompressor (41_lzw_decompressor.md)

CODE and its classes one by one. -/

namespace Sys2Proof.Machine

/-! ### The classes that are no data code (R95, R96, R99) -/

/-- What DictReset leaves is the initial dictionary (R92). -/
theorem initialDictionary_of {t : State} (hlo : 2 ≤ t.lzw.decMcs.toNat)
    (hhi : t.lzw.decMcs.toNat ≤ 8)
    (hnext : t.lzw.nextCode = BitVec.ofNat 13 (2 ^ t.lzw.decMcs.toNat + 2))
    (hwidth : t.lzw.codeWidth = t.lzw.decMcs + 1) (hvalid : t.lzw.prevValid = false)
    (hprev : t.lzw.prevCode = 0) (hdict : t.dict = initDict t.lzw.decMcs.toNat) :
    InitialDictionary t := by
  obtain ⟨-, hn, hw⟩ := lzwActive_initial hlo hhi hnext hwidth hvalid
  refine ⟨hn, hw, hvalid, hprev, fun c hc => ?literal, ?clear, ?endCode, fun c hc => ?above⟩ <;>
    rw [hdict, read_initDict]
  case literal => exact if_pos hc
  case clear => rw [if_neg (by omega), if_pos (by omega)]
  case endCode => rw [if_neg (by omega), if_pos (by omega)]
  case above => rw [if_neg (by omega), if_neg (by omega)]

theorem initialDictionary_dictReset {s : State} (h : LzwActive s.lzw) :
    InitialDictionary (dictReset s) := by
  obtain ⟨hlo, hhi, -⟩ := h
  exact initialDictionary_of hlo hhi rfl rfl rfl rfl rfl

/-- Settles O32: CLEAR is DictReset. -/
theorem clearResetsTheDictionary : Obligations.ClearResetsTheDictionary :=
  fun s hp ha => ⟨dictReset s, execClear_next hp ha, initialDictionary_dictReset ha, rfl, rfl⟩

/-- Settles O33: END is Stop, which writes the flags alone. -/
theorem endStopsNormally : Obligations.EndStopsNormally :=
  fun _ hp ha => execEnd_next hp ha

/-- Settles O34: INVALID is Stop, which writes the flags alone. -/
theorem invalidCodeStopsTheDecode : Obligations.InvalidCodeStopsTheDecode :=
  fun _ _ hp ha hc => execInvalid_next hp ha hc

/-! ### The data codes (R97, R98, R100 to R105) -/

/-- KNOWN runs the common sub-steps on the entry it reads (R97). -/
theorem exec_known_next {s t : State} {c : Code} (h : exec (.known c) s = .next t) :
    ∃ b bs, readDict s c = some (b, bs) ∧ dataCode b bs c s = .next t := by
  change execKnown c s = _ at h
  unfold execKnown at h
  split_ifs at h
  cases hr : readDict s c <;> rw [hr] at h
  case none => cases h
  case some e => exact ⟨e.1, e.2, rfl, h⟩

/-- KWKWK runs them on the previous entry and its first byte (R98). -/
theorem exec_kwkwk_next {s t : State} (h : exec .kwkwk s = .next t) :
    ∃ p ps, readDict s s.lzw.prevCode = some (p, ps) ∧
      dataCode p (ps ++ [p]) (s.lzw.nextCode.setWidth 12) s = .next t := by
  change execKwkwk s = _ at h
  unfold execKwkwk at h
  split_ifs at h
  cases hr : readDict s s.lzw.prevCode <;> rw [hr] at h
  case none => cases h
  case some e => exact ⟨e.1, e.2, rfl, h⟩

/-- Settles O35: the entry is a byte string, so is the previous entry where there is one, and the
common sub-steps are run on them. -/
theorem knownCodeEmitsAndAppends : Obligations.KnownCodeEmitsAndAppends := by
  intro s c hs hp hlt hclear hend
  have ha := hs.active hp
  obtain ⟨b, bs, hb, -⟩ := hs.dict.str hlt hclear hend
  have hexec : exec (.known c) s = dataCode b bs c s := execKnown_eq hp hlt hclear hend hb
  rcases hv : s.lzw.prevValid with _ | _
  · obtain ⟨t, ht, heff⟩ := dataCode_spec (first := b) (rest := bs) (cur := c) (p := b) (ps := bs)
      hs.room ha (by simp [hv])
    exact ⟨b, bs, t, hb, hexec.trans ht, fun _ => heff, nofun⟩
  · obtain ⟨p, ps, hprev⟩ := prev_str ha hs.dict hv
    obtain ⟨t, ht, heff⟩ := dataCode_spec (first := b) (rest := bs) (cur := c) hs.room ha
      fun _ => hprev
    exact ⟨b, bs, t, hb, hexec.trans ht, nofun, fun _ => ⟨p, ps, hprev, heff⟩⟩

/-- Where a data code appends, the new entry is at the NEXT_CODE it found (R101). -/
theorem DataCodeEffect.appended {first : Byte} {rest : List Byte} {cur : Code} {p : Byte}
    {ps : List Byte} {s t : State} (h : DataCodeEffect first rest cur p ps s t)
    (hv : s.lzw.prevValid = true) (hn : s.lzw.nextCode.toNat < 4096) :
    t.lzw.prevCode = cur ∧
      Mem.read t.dict s.lzw.nextCode.toNat = some (.str p (ps ++ [first])) := by
  obtain ⟨-, -, -, heff⟩ := h
  rw [if_neg (by omega)] at heff
  obtain ⟨-, -, hcur, hdict, -⟩ := heff
  rw [if_pos hv] at hdict
  exact ⟨hcur, hdict.1⟩

/-- Settles O36: the code is NEXT_CODE in 12 bits, and there the common sub-steps append what they
have emitted. -/
theorem kwkwkEmitsThePreviousEntryAndItsFirstByte :
    Obligations.KwkwkEmitsThePreviousEntryAndItsFirstByte := by
  intro s hs hp hv hn
  have ha := hs.active hp
  obtain ⟨p, ps, hprev⟩ := prev_str ha hs.dict hv
  obtain ⟨t, ht, heff⟩ := dataCode_spec (first := p) (rest := ps ++ [p])
    (cur := s.lzw.nextCode.setWidth 12) hs.room ha fun _ => hprev
  obtain ⟨hcur, hentry⟩ := heff.appended hv hn
  have hnext : s.lzw.nextCode.setWidth 12 = BitVec.ofNat 12 s.lzw.nextCode.toNat :=
    (BitVec.ofNat_toNat _ _).symm
  refine ⟨p, ps, t, hprev, (execKwkwk_eq hp ha hv hn hprev).trans ht, hnext ▸ heff, ?_⟩
  rw [hcur, nextCode_setWidth hn, hentry]

/-! ### CODE (R94) -/

theorem codeEnabled_iff {s : State} : codeEnabled s = true ↔
    s.flags.phase = .decoding ∧ s.lzw.codeWidth.toNat ≤ s.br.bitCnt.toNat := by
  simp [codeEnabled]

/-- EXTRACT as numbers (40_bit_reader.md R82). -/
theorem extract_eq {s : State} (h : s.lzw.codeWidth.toNat ≤ s.br.bitCnt.toNat) :
    extract s = { s with br := { s.br with
      bitBuf := BitVec.ofNat 19 (s.br.bitBuf.toNat / 2 ^ s.lzw.codeWidth.toNat)
      bitCnt := BitVec.ofNat 5 (s.br.bitCnt.toNat - s.lzw.codeWidth.toNat) } } := by
  rw [← extract_bitBuf, ← extract_bitCnt h, BitVec.ofNat_toNat, BitVec.ofNat_toNat,
    BitVec.setWidth_eq, BitVec.setWidth_eq]
  rfl

/-- Settles O30: CODE is enabled, and EXTRACT as numbers is the state its class is run in. -/
theorem codeExtractsThenRunsItsClass : Obligations.CodeExtractsThenRunsItsClass := by
  intro s _ hp hle
  rw [exec_code_eq (codeEnabled_iff.2 ⟨hp, hle⟩), extract_eq hle]
  rfl

/-- A code class goes on, or stops with one of the causes of a CODE step (60_exceptions.md R166). -/
theorem codeClass_flags {i : Instr} (hi : i.format = .code) {s t : State}
    (h : exec i s = .next t) :
    t.flags = s.flags ∨
      ∃ cause, (cause = .end_ ∨ cause = .count ∨ cause = .badCode ∨ cause = .dictFull) ∧
        t.flags = StoppedFlags cause s.flags := by
  have hdata {first : Byte} {rest : List Byte} {cur : Code}
      (hd : dataCode first rest cur s = .next t) : t.flags = s.flags ∨
      ∃ cause, (cause = .end_ ∨ cause = .count ∨ cause = .badCode ∨ cause = .dictFull) ∧
        t.flags = StoppedFlags cause s.flags := by
    obtain ⟨-, -, hgo | hcount | hfull⟩ := dataCode_frame hd
    · exact .inl hgo
    · exact .inr ⟨.count, by simp, hcount⟩
    · exact .inr ⟨.dictFull, by simp, hfull⟩
  cases i
  case clear => obtain ⟨-, rfl⟩ := exec_clear_next h; exact .inl rfl
  case endCode => obtain ⟨-, rfl⟩ := exec_endCode_next h; exact .inr ⟨.end_, by simp, rfl⟩
  case invalid c => obtain ⟨-, rfl⟩ := exec_invalid_next h; exact .inr ⟨.badCode, by simp, rfl⟩
  case known c => obtain ⟨_, _, -, hd⟩ := exec_known_next h; exact hdata hd
  case kwkwk => obtain ⟨_, _, -, hd⟩ := exec_kwkwk_next h; exact hdata hd
  all_goals cases hi

/-- Settles O31: CODE completes; EXTRACT takes CODE_WIDTH bits, at least 3 of them, and the class
touches neither the reader nor, but for a Stop, the flags. -/
theorem codeAlwaysCompletes : Obligations.CodeAlwaysCompletes := by
  intro s hs hp hle
  have he := codeEnabled_iff.2 ⟨hp, hle⟩
  obtain ⟨t, ht⟩ := exec_code_completes hs.toBlockInv he
  obtain ⟨-, i, hi, hclass⟩ := execCode_cases ht
  obtain ⟨-, hframe, -⟩ := codeClass_frame hi hclass
  have hbr : t.br = (extract s).br := by rw [hframe]
  have hwidth := (hs.active hp).width
  refine ⟨t, ht, ?_, codeClass_flags (s := extract s) hi hclass⟩
  rw [hbr, extract_bitCnt hle]
  omega

end Sys2Proof.Machine
end

section
/-! ## Proofs: a decode as the function `lzw_decode` (41_lzw_decompressor.md R107)

One turn of its loop; the state of a decode read as its decoder; each engine step of a decode as such
a turn, or the part of one that pulls a byte; and from that every schedule. -/

namespace Sys2Proof.Machine

/-! ### One turn of the loop of `lzw_decode` (R107) -/

/-- Bits enough are held: no byte is pulled. -/
theorem readBits_held {n : Nat} {r : BitReader} (bytes : List Byte) (h : n ≤ r.bitCnt.toNat) :
    readBits n bytes r = (some (r.bitBuf.toNat % 2 ^ n), bytes, dropBits n r) := by
  have hpull : pullBytes n bytes r = (bytes, r) := by
    cases bytes with
    | nil => rfl
    | cons b bs => exact if_neg (Nat.not_lt.2 h)
  rw [readBits_enough (by rwa [hpull]), hpull]

/-- Too few bits held: the first byte is pulled, as FILL does. -/
theorem readBits_cons {n : Nat} {r : BitReader} {b : Byte} {bs : List Byte}
    (h : r.bitCnt.toNat < n) : readBits n (b :: bs) r = readBits n bs (fillByte b r) := by
  have hpull : pullBytes n (b :: bs) r = pullBytes n bs (fillByte b r) := if_pos h
  rw [readBits, readBits, hpull]

/-- The decoder after a data code with this entry, from then on known by `cur` (R101 to R104). -/
def Decoder.next (d : Decoder) (entry : List Byte) (cur : Nat) : Decoder :=
  match d.prev with
  | some p => { d.append p entry with prev := some cur }
  | none => { d with prev := some cur }

section
variable {m expected k : Nat} {d : Decoder} {r : BitReader} {out : List Byte}

/-- A byte pulled ahead of the turn, as FILL does, is pulled by nothing in it. -/
theorem lzwLoop_fill {b : Byte} {bs : List Byte} (h : r.bitCnt.toNat < d.width) :
    lzwLoop m expected k d (b :: bs) r out = lzwLoop m expected k d bs (fillByte b r) out := by
  cases k with
  | zero => rfl
  | succ k => rw [lzwLoop, lzwLoop, readBits_cons h]

theorem lzwLoop_exhausted (h : r.bitCnt.toNat < d.width) :
    lzwLoop m expected (k + 1) d [] r out = (out, .exhausted) := by
  rw [lzwLoop, readBits_short h]

variable {c : Nat} {bytes : List Byte} (hle : d.width ≤ r.bitCnt.toNat)
  (hc : r.bitBuf.toNat % 2 ^ d.width = c)
include hle hc

theorem lzwLoop_clear (h : c = 2 ^ m) : lzwLoop m expected (k + 1) d bytes r out =
    lzwLoop m expected k (.reset m) bytes (dropBits d.width r) out := by
  rw [lzwLoop, readBits_held bytes hle, hc]
  exact if_pos h

theorem lzwLoop_end (h : c = 2 ^ m + 1) :
    lzwLoop m expected (k + 1) d bytes r out = (out, .end_) := by
  rw [lzwLoop, readBits_held bytes hle, hc]
  exact (if_neg (by omega)).trans (if_pos h)

variable (hclear : c ≠ 2 ^ m) (hend : c ≠ 2 ^ m + 1)
include hclear hend

theorem lzwLoop_badCode (h : d.entry c = none) :
    lzwLoop m expected (k + 1) d bytes r out = (out, .badCode) := by
  rw [lzwLoop, readBits_held bytes hle, hc]
  dsimp only
  rw [if_neg hclear, if_neg hend, h]

/-- A data code: DICT_FULL, COUNT or the next turn (R103 to R105). -/
theorem lzwLoop_data {entry out' : List Byte} {cur : Nat} (h : d.entry c = some (entry, cur))
    (hout : out' = out ++ entry.take (expected - out.length)) :
    lzwLoop m expected (k + 1) d bytes r out =
      if d.prev.isSome = true ∧ d.dict.length = 4096 then (out', .dictFull)
      else if expected ≤ out'.length then (out', .count)
      else lzwLoop m expected k (d.next entry cur) bytes (dropBits d.width r) out' := by
  rw [lzwLoop, readBits_held bytes hle, hc]
  dsimp only
  rw [if_neg hclear, if_neg hend, h, Decoder.next]
  cases hp : d.prev <;> simp [hout]

end

/-! ### A state read as the decoder (10_state.md R12) -/

/-- The previous entry's code is below NEXT_CODE (R93 item 4). -/
theorem LzwActive.prevCode_lt {z : Lzw} (h : LzwActive z) (hv : z.prevValid = true) :
    z.prevCode.toNat < z.nextCode.toNat := by
  obtain ⟨-, -, -, -, -, hprev⟩ := h
  exact (hprev hv).1

/-- The byte string at code `c`, empty where there is none. -/
def entryBytes (dict : Mem DictEntry) (c : Nat) : List Byte :=
  match Mem.read dict c with
  | some (.str b bs) => b :: bs
  | some .empty => []
  | none => []

/-- The decoder state that DICT and the LZW registers hold. -/
def decoderOf (s : State) : Decoder :=
  { dict := (List.range s.lzw.nextCode.toNat).map (entryBytes s.dict)
    width := s.lzw.codeWidth.toNat
    prev := if s.lzw.prevValid then some s.lzw.prevCode.toNat else none }

/-- The bytes of IDXMEM below IDX_COUNT: the indices decoded so far. -/
def emitted (s : State) : List Byte :=
  (List.range s.frame.idxCount.toNat).map fun a => (Mem.read s.idxmem a).getD 0#8

theorem entryBytes_of_read {dict : Mem DictEntry} {c : Nat} {b : Byte} {bs : List Byte}
    (h : Mem.read dict c = some (.str b bs)) : entryBytes dict c = b :: bs := by
  rw [entryBytes, h]

theorem decoderOf_dict_length (s : State) :
    (decoderOf s).dict.length = s.lzw.nextCode.toNat := by simp [decoderOf]

/-- A defined data entry in the decoder's dictionary. -/
theorem decoderOf_getD {s : State} {c : Nat} {b : Byte} {bs : List Byte}
    (hlt : c < s.lzw.nextCode.toNat) (h : Mem.read s.dict c = some (.str b bs)) :
    ((decoderOf s).dict[c]?).getD [] = b :: bs := by
  simp [decoderOf, hlt, entryBytes_of_read h]

theorem decoderOf_prev_some {s : State} (hv : s.lzw.prevValid = true) :
    (decoderOf s).prev = some s.lzw.prevCode.toNat := if_pos hv

theorem decoderOf_prev_none {s : State} (hv : s.lzw.prevValid = false) :
    (decoderOf s).prev = none := if_neg (by simp [hv])

theorem decoderOf_prev_isSome (s : State) : (decoderOf s).prev.isSome = s.lzw.prevValid := by
  cases hv : s.lzw.prevValid
  · rw [decoderOf_prev_none hv]; rfl
  · rw [decoderOf_prev_some hv]; rfl

theorem emitted_length (s : State) : (emitted s).length = s.frame.idxCount.toNat := by
  simp [emitted]

/-- Below IDX_COUNT every byte has a value (20_memory.md R41). -/
theorem indices_eq {s : State} (h : FrameOk s) : indices s = (emitted s).map some := by
  obtain ⟨-, -, -, hsome, -⟩ := h
  rw [indices, emitted, List.map_map]
  refine List.map_congr_left fun a ha => ?_
  obtain ⟨b, hb⟩ := Option.isSome_iff_exists.1 (hsome a (List.mem_range.1 ha))
  simp [hb]

/-- Emit appends the bytes that fit (R100). -/
theorem Emitted.emitted_eq {entry : List Byte} {s t : State} (h : Emitted entry s t)
    (hle : s.frame.idxCount.toNat ≤ s.frame.expected.toNat) :
    emitted t = emitted s ++ entry.take (s.frame.expected.toNat - (emitted s).length) := by
  obtain ⟨hcount, hnew, hold⟩ := h
  rw [emitted_length]
  apply List.ext_getElem
  · simp only [emitted_length, List.length_append, List.length_take]; omega
  · intro a hat _
    rw [emitted_length] at hat
    by_cases ha : a < s.frame.idxCount.toNat
    · rw [List.getElem_append_left (by rwa [emitted_length])]
      simp [emitted, hold a (.inl ha)]
    · rw [List.getElem_append_right (by rw [emitted_length]; omega)]
      obtain ⟨i, rfl⟩ := Nat.exists_eq_add_of_le (Nat.le_of_not_lt ha)
      have hi : i < entry.length := by omega
      simp [emitted, hnew i _ (List.getElem?_eq_getElem hi) (by omega)]

/-- The initial dictionary is the decoder's (R92). -/
theorem decoderOf_initial {s : State} (h : InitialDictionary s) :
    decoderOf s = .reset s.lzw.decMcs.toNat := by
  obtain ⟨hnext, hwidth, hvalid, -, hlit, hclear, hend, -⟩ := h
  have hlits : (List.range (2 ^ s.lzw.decMcs.toNat)).map (entryBytes s.dict) =
      (List.range (2 ^ s.lzw.decMcs.toNat)).map fun c => [BitVec.ofNat 8 c] :=
    List.map_congr_left fun c hc => entryBytes_of_read (hlit c (List.mem_range.1 hc))
  simp [decoderOf, Decoder.reset, hnext, hwidth, hvalid, List.range_succ, hlits, entryBytes, hclear,
    hend]

/-- A data code does to the state what `Decoder.next` does to the decoder (R101 to R104). -/
theorem DataCodeEffect.decoderOf_eq {first : Byte} {rest : List Byte} {cur : Code} {p : Byte}
    {ps : List Byte} {s t : State} (h : DataCodeEffect first rest cur p ps s t)
    (hnot : ¬(s.lzw.prevValid = true ∧ s.lzw.nextCode.toNat = 4096))
    (hprev : s.lzw.prevValid = true → s.lzw.prevCode.toNat < s.lzw.nextCode.toNat ∧
      Mem.read s.dict s.lzw.prevCode.toNat = some (.str p ps)) :
    decoderOf t = (decoderOf s).next (first :: rest) cur.toNat := by
  obtain ⟨-, -, -, heff⟩ := h
  rw [if_neg hnot] at heff
  obtain ⟨-, hvalid, hcur, hdict, -⟩ := heff
  cases hv : s.lzw.prevValid with
  | false =>
    rw [if_neg (by simp [hv])] at hdict
    obtain ⟨hd, hn, hw⟩ := hdict
    rw [Decoder.next, decoderOf_prev_none hv]
    simp [decoderOf, hd, hn, hw, hvalid, hcur]
  | true =>
    rw [if_pos hv] at hdict
    obtain ⟨hnew, hold, hn, hw⟩ := hdict
    obtain ⟨hlt, hread⟩ := hprev hv
    have hkept : (List.range s.lzw.nextCode.toNat).map (entryBytes t.dict) =
        (List.range s.lzw.nextCode.toNat).map (entryBytes s.dict) := by
      refine List.map_congr_left fun c hc => ?_
      rw [entryBytes, hold c (List.mem_range.1 hc).ne]; rfl
    have hlen := decoderOf_dict_length s
    have hgetD := decoderOf_getD hlt hread
    rw [Decoder.next, decoderOf_prev_some hv]
    simp only [Decoder.append, List.length_append, hlen, hgetD]
    simp [decoderOf, hn, hw, hvalid, hcur, List.range_succ, hkept, entryBytes_of_read hnew]

/-! ### An engine step as a turn of the loop (R94, R107) -/

/-- What `lzw_decode` still answers from the state `s`, `bytes` to come and at most `k` codes. -/
def decodeRest (k : Nat) (bytes : List Byte) (s : State) : List Byte × Cause :=
  lzwLoop s.lzw.decMcs.toNat s.frame.expected.toNat k (decoderOf s) bytes s.br (emitted s)

/-- `t` has stopped with the answer, or what `lzw_decode` answers from it is the answer. -/
def Answers (answer : List Byte × Cause) (k : Nat) (bytes : List Byte) (t : State) : Prop :=
  (t.flags.phase = .decoding ∧ decodeRest k bytes t = answer) ∨
  (t.flags.phase = .idle ∧ (emitted t, t.flags.decCause) = answer)

/-- EXTRACT is what `read_bits` does (40_bit_reader.md R82, R87). -/
theorem extract_br (s : State) : (extract s).br = dropBits s.lzw.codeWidth.toNat s.br := by
  rw [dropBits, BitVec.ofNat_toNat]; rfl

/-- The end of a turn on a data code, as the common sub-steps leave it (R103 to R105). -/
theorem DataCodeEffect.answers {first : Byte} {rest : List Byte} {cur : Code} {p : Byte}
    {ps : List Byte} {s t : State} (h : DataCodeEffect first rest cur p ps s t)
    (hp : s.flags.phase = .decoding)
    (hprev : s.lzw.prevValid = true → s.lzw.prevCode.toNat < s.lzw.nextCode.toNat ∧
      Mem.read s.dict s.lzw.prevCode.toNat = some (.str p ps)) (k : Nat) (bytes : List Byte) :
    Answers
      (if s.lzw.prevValid = true ∧ s.lzw.nextCode.toNat = 4096 then (emitted t, .dictFull)
      else if s.frame.expected.toNat ≤ t.frame.idxCount.toNat then (emitted t, .count)
      else lzwLoop s.lzw.decMcs.toNat s.frame.expected.toNat k
        ((decoderOf s).next (first :: rest) cur.toNat) bytes s.br (emitted t)) k bytes t := by
  have hdec := h.decoderOf_eq
  obtain ⟨-, hframe, hrest, hflags⟩ := h
  have hbr : t.br = s.br := by rw [hrest]
  have hexp : t.frame.expected = s.frame.expected := by rw [hframe]
  by_cases hfull : s.lzw.prevValid = true ∧ s.lzw.nextCode.toNat = 4096
  · rw [if_pos hfull] at hflags ⊢
    obtain ⟨-, -, hf⟩ := hflags
    rw [Answers, hf]
    exact .inr ⟨rfl, rfl⟩
  · rw [if_neg hfull] at hflags ⊢
    obtain ⟨hmcs, -, -, -, hf⟩ := hflags
    by_cases hcount : s.frame.expected.toNat ≤ t.frame.idxCount.toNat
    · rw [if_pos hcount] at hf ⊢
      rw [Answers, hf]
      exact .inr ⟨rfl, rfl⟩
    · rw [if_neg hcount] at hf ⊢
      exact .inl ⟨hf ▸ hp, by rw [decodeRest, hdec hfull hprev, hmcs, hexp, hbr]⟩

section
variable {s t : State} {k : Nat} {bytes : List Byte} (hs : BlockInv s)
  (hp : s.flags.phase = .decoding) (hle : s.lzw.codeWidth.toNat ≤ s.br.bitCnt.toNat)
include hs hp hle

/-- The common sub-steps of a data code are a turn of the loop on its entry (R100 to R105). -/
theorem dataCode_answers {c : Nat} {first : Byte} {rest : List Byte} {cur : Code}
    (hc : s.br.bitBuf.toNat % 2 ^ s.lzw.codeWidth.toNat = c)
    (hclear : c ≠ 2 ^ s.lzw.decMcs.toNat) (hend : c ≠ 2 ^ s.lzw.decMcs.toNat + 1)
    (hentry : (decoderOf s).entry c = some (first :: rest, cur.toNat))
    (h : dataCode first rest cur (extract s) = .next t) :
    Answers (decodeRest (k + 1) bytes s) k bytes t := by
  have ha := hs.active hp
  obtain ⟨p, ps, hprev⟩ : ∃ p ps, s.lzw.prevValid = true →
      Mem.read s.dict s.lzw.prevCode.toNat = some (.str p ps) := by
    cases hv : s.lzw.prevValid with
    | false => exact ⟨0, [], nofun⟩
    | true => exact (prev_str ha hs.dict hv).imp fun p ⟨ps, e⟩ => ⟨ps, fun _ => e⟩
  obtain ⟨t', ht', heff⟩ := dataCode_spec (first := first) (rest := rest) (cur := cur)
    (s := extract s) hs.room ha hprev
  obtain rfl : t' = t := Host.Outcome.next.inj (ht'.symm.trans h)
  have hout : emitted t' =
      emitted s ++ (first :: rest).take (s.frame.expected.toNat - (emitted s).length) :=
    heff.1.emitted_eq hs.room.1
  have hbr : dropBits (decoderOf s).width s.br = (extract s).br := (extract_br s).symm
  rw [decodeRest, lzwLoop_data hle hc hclear hend hentry hout, decoderOf_prev_isSome,
    decoderOf_dict_length, emitted_length, hbr]
  exact heff.answers hp (fun hv => ⟨ha.prevCode_lt hv, hprev hv⟩) k bytes

/-- A CODE step is a turn of the loop. -/
theorem exec_code_answers (h : exec .code s = .next t) :
    Answers (decodeRest (k + 1) bytes s) k bytes t := by
  have ha := hs.active hp
  have hc : s.br.bitBuf.toNat % 2 ^ s.lzw.codeWidth.toNat = (extractedCode s).toNat :=
    (extractedCode_toNat ha.width.2).symm
  have hclass := classify_cases s (extractedCode s)
  rw [exec_code_eq (codeEnabled_iff.2 ⟨hp, hle⟩)] at h
  unfold decodeCode at h
  cases hk : classify s.codeCtx (extractedCode s) <;> rw [hk] at h hclass <;> dsimp only at h hclass
  case clear =>
    obtain ⟨-, rfl⟩ := exec_clear_next h
    refine .inl ⟨hp, ?_⟩
    rw [decodeRest, decodeRest, lzwLoop_clear hle hc hclass,
      decoderOf_initial (initialDictionary_dictReset (s := extract s) ha), dictReset_br, extract_br]
    rfl
  case endCode =>
    obtain ⟨-, rfl⟩ := exec_endCode_next h
    refine .inr ⟨rfl, ?_⟩
    rw [decodeRest, lzwLoop_end hle hc hclass]
    rfl
  case invalid =>
    obtain ⟨-, rfl⟩ := exec_invalid_next h
    have hbd := ha.bounds
    have hnone : (decoderOf s).entry (extractedCode s).toNat = none := by
      rw [Decoder.entry, decoderOf_dict_length, if_neg (by omega)]
      rcases hclass with hgt | ⟨-, hv⟩
      · cases (decoderOf s).prev with
        | none => rfl
        | some p => exact if_neg hgt.ne'
      · rw [decoderOf_prev_none hv]
    refine .inr ⟨rfl, ?_⟩
    rw [decodeRest, lzwLoop_badCode hle hc (by omega) (by omega) hnone]
    rfl
  case known =>
    obtain ⟨hlt, hclear, hend⟩ := hclass
    obtain ⟨b, bs, hread, hdata⟩ := exec_known_next h
    have hentry : (decoderOf s).entry (extractedCode s).toNat =
        some (b :: bs, (extractedCode s).toNat) := by
      rw [Decoder.entry, decoderOf_dict_length, if_pos hlt,
        decoderOf_getD hlt (read_of_readDict hread).2]
    exact dataCode_answers hs hp hle hc hclear hend hentry hdata
  case kwkwk =>
    obtain ⟨heq, hv⟩ := hclass
    obtain ⟨p, ps, hread, hdata⟩ := exec_kwkwk_next h
    obtain ⟨hlt, hprev⟩ := read_of_readDict hread
    have hgetD : ((decoderOf s).dict[s.lzw.prevCode.toNat]?).getD [] = p :: ps :=
      decoderOf_getD hlt hprev
    have hbd := ha.bounds
    have hn : s.lzw.nextCode.toNat < 4096 := heq ▸ (extractedCode s).isLt
    have hentry : (decoderOf s).entry (extractedCode s).toNat =
        some (p :: (ps ++ [p]), (s.lzw.nextCode.setWidth 12).toNat) := by
      rw [Decoder.entry, decoderOf_dict_length, heq, if_neg (Nat.lt_irrefl _),
        decoderOf_prev_some hv, nextCode_setWidth hn]
      dsimp only
      rw [if_pos rfl, hgetD]
      rfl
    exact dataCode_answers hs hp hle hc (by omega) (by omega) hentry hdata

end

/-! ### What selects an engine step (30_encoding.md R75) -/

theorem fillEnabled_iff {s : State} : fillEnabled s = true ↔
    s.flags.phase = .decoding ∧ s.br.bitCnt.toNat < s.lzw.codeWidth.toNat ∧ s.inq ≠ [] := by
  simp [fillEnabled, and_assoc]

theorem exhaustEnabled_iff {s : State} : exhaustEnabled s = true ↔
    s.flags.phase = .decoding ∧ s.br.bitCnt.toNat < s.lzw.codeWidth.toNat ∧ s.inq = [] ∧
      s.flags.eod = true := by
  simp [exhaustEnabled, and_assoc]

/-! ### The schedule is used up turn by turn (20_memory.md R51; log 2) -/

/-- No instruction touches the schedule. -/
theorem exec_sched {i : Instr} {s t : State} (h : exec i s = .next t) : t.sched = s.sched := by
  cases i
  case nop | wrReserved | cmdReserved | wrIdxRaddr => injection h with h; subst h; rfl
  case softReset => obtain ⟨-, rfl⟩ | ⟨-, rfl⟩ := exec_softReset_cases h <;> rfl
  case startDecode => obtain ⟨e, -, rfl⟩ | ⟨-, -, -, -, rfl⟩ := exec_startDecode_cases h <;> rfl
  case endOfData => obtain ⟨-, rfl⟩ | ⟨-, rfl⟩ := exec_endOfData_cases h <;> rfl
  case startRender => obtain ⟨e, -, rfl⟩ | ⟨-, -, -, -, rfl⟩ := exec_startRender_cases h <;> rfl
  case clear | endCode | known | kwkwk | invalid =>
    obtain ⟨-, e, -⟩ := codeClass_frame rfl h
    rw [e]
  case fill | exhaust | code | chunk =>
    obtain ⟨-, -, -, e⟩ := engine_port (by simp) h
    exact e
  case wrDataIn b =>
    injection h with h; subst h
    obtain ⟨-, e⟩ | ⟨-, -, -, e⟩ | ⟨-, -, -, e⟩ := offerByte_cases b s <;> rw [e]
  case rd => obtain ⟨v, -, rfl⟩ := exec_rd_next h; rfl
  case wrPal => obtain ⟨-, rfl⟩ | ⟨-, rfl⟩ := exec_wrPal_cases h <;> rfl
  case wrLzwCfg | wrFramePos | wrFrameSize | wrRenCfg | wrPalSize | wrBgColor | wrDestPos =>
    obtain ⟨-, rfl⟩ | ⟨-, rfl⟩ := writeCfg_cases ((exec_cfgUpdate rfl s).symm.trans h) <;> rfl

theorem settle_sched (s : State) : (settle s).sched = s.sched := by
  unfold settle
  split_ifs
  · rfl
  · cases s.held with
    | none => rfl
    | some b => exact exec_sched (i := .wrDataIn b) rfl

theorem engineTurn_sched {s t : State} (h : engineTurn s = .next t) : t.sched = s.sched := by
  obtain ⟨i, u, -, hu, rfl⟩ | ⟨-, rfl⟩ := engineTurn_cases h
  · rw [settle_sched, exec_sched hu]
  · rfl

theorem sinkTurn_sched {s t : State} (h : sinkTurn s = .next t) : t.sched = s.sched := by
  unfold sinkTurn at h
  split_ifs at h
  · cases hb : chunkByte s s.snkTaken <;> rw [hb] at h <;> cases h
    rfl
  · obtain ⟨u, hu, rfl⟩ := afterStep_next h
    rw [settle_sched, exec_sched hu]
  · cases h; rfl

theorem hostTurn_sched {s t : State} (h : hostTurn s = .next t) : t.sched = s.sched := by
  unfold hostTurn at h
  cases hheld : s.held <;> rw [hheld] at h
  case some => cases h; rfl
  case none =>
    cases hq : s.hostQ <;> rw [hq] at h
    case nil => cases h; rfl
    case cons r rest =>
      dsimp only at h
      cases hu : beforeAccess s <;> rw [hu] at h
      case fault => cases h
      case refused => cases h
      case next u =>
        refine (exec_sched h).trans (?_ : u.sched = s.sched)
        unfold beforeAccess at hu
        split_ifs at hu
        · exact engineTurn_sched hu
        · cases hu; rfl

/-- A step uses up one turn of the schedule. -/
theorem step_sched {s t : State} (h : step s = .next t) : t.sched = s.sched.tail := by
  unfold step takeTurn at h
  cases hturn : nextTurn s <;> rw [hturn] at h
  case host => exact hostTurn_sched h
  case engine => exact engineTurn_sched h
  case sink => exact sinkTurn_sched h
  case reset => cases h; rfl

/-- Hardware reset is asserted only where the schedule says so (log 19). -/
theorem mem_sched_of_nextTurn_reset {s : State} (h : nextTurn s = .reset) :
    Turn.reset ∈ s.sched := by
  unfold nextTurn at h
  cases hq : s.sched with
  | nil => rw [hq] at h; dsimp only at h; split_ifs at h
  | cons turn q => rw [hq] at h; exact h ▸ List.mem_cons_self

/-! ### Every schedule (R107; 20_memory.md R51, R52) -/

/-- The host has sent all but `pending` of its stream, END_OF_DATA last. -/
def HostSends (pending : List Byte) (s : State) : Prop :=
  (s.flags.eod = false ∧ s.hostQ = pushStream pending) ∨
  (s.flags.eod = true ∧ s.hostQ = [] ∧ s.held = none ∧ pending = [])

/-- The bytes still to come to the Bit Reader: those of INQ, the write that is held, `pending`. -/
def unread (pending : List Byte) (s : State) : List Byte :=
  s.inq ++ (s.held.toList ++ pending)

/-- The decode comes to `answer`: it still runs, and that is what `lzw_decode` answers from here, with
turns enough, a code being at least one of the bits to come; or it has stopped with it. -/
inductive ComesTo (answer : List Byte × Cause) (s : State) : Prop
  | running (pending : List Byte) (k : Nat) (hphase : s.flags.phase = .decoding)
      (hhost : HostSends pending s)
      (hturns : 8 * (unread pending s).length + s.br.bitCnt.toNat < k)
      (hanswer : decodeRest k (unread pending s) s = answer)
  | stopped (hphase : s.flags.phase = .idle)
      (hhost : s.hostQ = [] ∨ ∃ pending, s.hostQ = pushStream pending)
      (hanswer : (emitted s, s.flags.decCause) = answer)

/-- The host's turn where the next of its accesses is a byte (43_host_commands.md R149). -/
theorem hostTurn_push {s : State} {b : Byte} {pending : List Byte} (hheld : s.held = none)
    (hpend : s.resetPending = false) (hq : s.hostQ = pushStream (b :: pending)) :
    hostTurn s = .next (offerByte b { s with hostQ := pushStream pending }) := by
  have hdecode : decodeRequest (writeAt 0x024 (b.setWidth 32)) = .wrDataIn b :=
    congrArg Instr.wrDataIn (field_setWidth b (by decide))
  rw [hostTurn_cons hheld hq hpend, hdecode]
  rfl

/-- The host's turn where END_OF_DATA is left. -/
theorem hostTurn_endOfData {s : State} (hheld : s.held = none) (hpend : s.resetPending = false)
    (hq : s.hostQ = pushStream []) : hostTurn s = exec .endOfData { s with hostQ := [] } :=
  hostTurn_cons hheld hq hpend

theorem pushStream_injective : Function.Injective pushStream := by
  intro xs ys h
  refine List.map_injective_iff.2 (fun a b hab => ?_) (List.append_cancel_right h)
  have hfield : field (a.setWidth 32) 0 8 = field (b.setWidth 32) 0 8 :=
    congrArg (fun r => field r.wdata 0 8) hab
  rwa [field_setWidth a (by decide), field_setWidth b (by decide)] at hfield

/-- What the host still sends, told from its queue. -/
theorem HostSends.of_hostQ {pending rest : List Byte} {s : State} (h : HostSends pending s)
    (hq : s.hostQ = pushStream rest) : s.flags.eod = false ∧ pending = rest := by
  obtain ⟨heod, hq'⟩ | ⟨-, hq', -⟩ := h
  · exact ⟨heod, pushStream_injective (hq'.symm.trans hq)⟩
  · simp [hq', pushStream] at hq

theorem HostSends.hostQ {pending : List Byte} {s : State} (h : HostSends pending s) :
    s.hostQ = [] ∨ ∃ pending, s.hostQ = pushStream pending := by
  obtain ⟨-, hq⟩ | ⟨-, hq, -⟩ := h
  · exact .inr ⟨pending, hq⟩
  · exact .inl hq

section
variable {answer : List Byte × Cause} {s t : State}

/-- The schedule is no part of it. -/
theorem ComesTo.dropTurn (h : ComesTo answer s) : ComesTo answer (dropTurn s) := by
  cases h with
  | running pending k hphase hhost hturns hanswer =>
    exact .running pending k hphase hhost hturns hanswer
  | stopped hphase hhost hanswer => exact .stopped hphase hhost hanswer

theorem ComesTo.not_rendering (h : ComesTo answer s) : s.flags.phase ≠ .rendering := by
  cases h with
  | running _ _ hphase => simp [hphase]
  | stopped hphase => simp [hphase]

/-- No SOFT_RESET waits: that is of a render (43_host_commands.md R144). -/
theorem ComesTo.resetPending (h : ComesTo answer s) (hs : Inv s) : s.resetPending = false := by
  by_contra hpend
  exact h.not_rendering (hs.port.2 (by simpa using hpend)).1

/-- While the decode runs there is a turn left, for the code to come or for its absence. -/
theorem ComesTo.turn_left (h : ComesTo answer s) (hp : s.flags.phase = .decoding) :
    ∃ pending k, HostSends pending s ∧
      8 * (unread pending s).length + s.br.bitCnt.toNat < k + 1 ∧
      decodeRest (k + 1) (unread pending s) s = answer := by
  cases h with
  | stopped hphase => simp [hphase] at hp
  | running pending k _ hhost hturns hanswer =>
    obtain ⟨k, rfl⟩ : ∃ k', k = k' + 1 := Nat.exists_eq_add_one.2 (by omega)
    exact ⟨pending, k, hhost, hturns, hanswer⟩

theorem ComesTo.hostQ (h : ComesTo answer s) :
    s.hostQ = [] ∨ ∃ pending, s.hostQ = pushStream pending := by
  cases h with
  | running _ _ _ hhost => exact hhost.hostQ
  | stopped _ hhost => exact hhost

/-- The host's next byte, now at the port. -/
theorem ComesTo.present {b : Byte} {rest : List Byte} (h : ComesTo answer s) (hheld : s.held = none)
    (hq : s.hostQ = pushStream (b :: rest)) :
    ComesTo answer { s with hostQ := pushStream rest, held := some b } := by
  cases h with
  | running pending k hphase hhost hturns hanswer =>
    obtain ⟨heod, rfl⟩ := hhost.of_hostQ hq
    have hunread : unread rest { s with hostQ := pushStream rest, held := some b } =
        unread (b :: rest) s := by simp [unread, hheld]
    exact .running rest k hphase (.inl ⟨heod, rfl⟩) (hunread ▸ hturns) (hunread ▸ hanswer)
  | stopped hphase _ hanswer => exact .stopped hphase (.inr ⟨rest, rfl⟩) hanswer

/-- END_OF_DATA, which a stopped decode refuses (43_host_commands.md R146). -/
theorem ComesTo.endOfData (h : ComesTo answer s) (hheld : s.held = none)
    (hq : s.hostQ = pushStream []) (ht : exec .endOfData { s with hostQ := [] } = .next t) :
    ComesTo answer t := by
  cases h with
  | running pending k hphase hhost hturns hanswer =>
    obtain ⟨-, rfl⟩ := hhost.of_hostQ hq
    obtain ⟨hne, -⟩ | ⟨-, rfl⟩ := exec_endOfData_cases ht
    · exact absurd hphase hne
    · exact .running [] k hphase (.inr ⟨rfl, rfl, hheld, rfl⟩) hturns hanswer
  | stopped hphase _ hanswer =>
    obtain ⟨-, rfl⟩ | ⟨hp, -⟩ := exec_endOfData_cases ht
    · exact .stopped hphase (.inl rfl) hanswer
    · rw [hphase] at hp; cases hp

/-- A byte waiting at the port may be offered: pushed or still held it is the next after INQ, and a
stopped decode drops it (43_host_commands.md R149). -/
theorem ComesTo.offerByte {b : Byte} (h : ComesTo answer { s with held := some b }) :
    ComesTo answer (offerByte b s) := by
  cases h with
  | running pending k hphase hhost hturns hanswer =>
    obtain ⟨heod, hq⟩ | ⟨-, -, hheld, -⟩ := hhost
    case inr => cases hheld
    obtain ⟨hdrop, -⟩ | ⟨-, -, -, e⟩ | ⟨-, -, -, e⟩ := offerByte_cases b s
    · exact absurd hdrop (by simp_all)
    · have hunread : unread pending { s with inq := s.inq ++ [b], held := none } =
          unread pending { s with held := some b } := by simp [unread]
      rw [e]
      exact .running pending k hphase (.inl ⟨heod, hq⟩) (hunread ▸ hturns) (hunread ▸ hanswer)
    · rw [e]
      exact .running pending k hphase (.inl ⟨heod, hq⟩) hturns hanswer
  | stopped hphase hhost hanswer =>
    have hp : s.flags.phase = .idle := hphase
    obtain ⟨-, e⟩ | ⟨hp', -⟩ | ⟨hp', -⟩ := offerByte_cases b s
    · rw [e]; exact .stopped hphase hhost hanswer
    · simp [hp] at hp'
    · simp [hp] at hp'

theorem ComesTo.settle (h : ComesTo answer s) (hpend : s.resetPending = false) :
    ComesTo answer (settle s) := by
  cases hheld : s.held with
  | none => rwa [settle_none hpend hheld]
  | some b =>
    have hs : s = { s with held := some b } := by rw [← hheld]
    rw [settle_held hpend hheld]
    exact .offerByte (hs ▸ h)

end

section
variable {answer : List Byte × Cause} {s t : State} (h : ComesTo answer s)
include h

/-- FILL pulls the next byte of the stream for the turn to come (40_bit_reader.md R81, R87). -/
theorem ComesTo.fill (hs : Inv s) (ht : exec .fill s = .next t) : ComesTo answer t := by
  obtain ⟨he, b, rest, hq, rfl⟩ := exec_fill_next ht
  obtain ⟨hp, hlt, -⟩ := fillEnabled_iff.1 he
  obtain ⟨pending, k, hhost, hturns, hanswer⟩ := h.turn_left hp
  have hwidth := (hs.active hp).width
  have hcnt := fillByte_bitCnt (r := s.br) b (by omega)
  have hunread : unread pending s =
      b :: unread pending { s with inq := rest, br := fillByte b s.br } := by simp [unread, hq]
  rw [hunread] at hturns hanswer
  refine .running pending (k + 1) hp hhost ?_ ((lzwLoop_fill hlt).symm.trans hanswer)
  rw [List.length_cons] at hturns
  change _ + (fillByte b s.br).bitCnt.toNat < _
  omega

/-- EXHAUST is the turn for which the stream has no code (40_bit_reader.md R83). -/
theorem ComesTo.exhaust (ht : exec .exhaust s = .next t) : ComesTo answer t := by
  obtain ⟨he, rfl⟩ := exec_exhaust_next ht
  obtain ⟨hp, hlt, hq, heod⟩ := exhaustEnabled_iff.1 he
  obtain ⟨pending, k, hhost, -, hanswer⟩ := h.turn_left hp
  obtain ⟨hno, -⟩ | ⟨-, hhostQ, hheld, rfl⟩ := hhost
  · simp [heod] at hno
  · have hunread : unread [] s = [] := by simp [unread, hq, hheld]
    rw [hunread] at hanswer
    exact .stopped rfl (.inl hhostQ) ((lzwLoop_exhausted hlt).symm.trans hanswer)

/-- CODE is a turn, and takes at least the one bit counted for it (R94). -/
theorem ComesTo.code (hs : Inv s) (ht : exec .code s = .next t) : ComesTo answer t := by
  obtain ⟨hp, hle⟩ := codeEnabled_iff.1 (execCode_cases ht).1
  obtain ⟨pending, k, hhost, hturns, hanswer⟩ := h.turn_left hp
  obtain ⟨t', ht', hbits, -⟩ := codeAlwaysCompletes s hs hp hle
  obtain rfl : t' = t := Host.Outcome.next.inj (ht'.symm.trans ht)
  obtain ⟨hframe, heod⟩ := exec_code_frame ht
  obtain ⟨hheld, -, hhostQ, -⟩ := engine_port (.inr (.inr (.inl rfl))) ht
  have hinq : t'.inq = s.inq := by rw [hframe]
  have hunread : unread pending t' = unread pending s := by rw [unread, hinq, hheld]; rfl
  have hhost' : HostSends pending t' := by rwa [HostSends, heod, hhostQ, hheld]
  obtain ⟨hp', hrest⟩ | ⟨hp', hstop⟩ :=
    exec_code_answers (k := k) (bytes := unread pending s) hs.toBlockInv hp hle ht
  · exact .running pending k hp' hhost' (by rw [hunread]; omega)
      (by rw [hunread, hrest, hanswer])
  · exact .stopped hp' hhost'.hostQ (hstop.trans hanswer)

theorem ComesTo.engineStep {i : Instr} (hs : Inv s) (hi : engineSelect s = some i)
    (ht : exec i s = .next t) : ComesTo answer t := by
  obtain ⟨rfl, -⟩ | ⟨rfl, -⟩ | ⟨rfl, -⟩ | ⟨rfl, he⟩ := engineSelect_enabled hi
  · exact h.fill hs ht
  · exact h.exhaust ht
  · exact h.code hs ht
  · exact absurd (chunkEnabled_iff.1 he).1 h.not_rendering

theorem ComesTo.engineTurn (hs : Inv s) (ht : engineTurn s = .next t) : ComesTo answer t := by
  obtain ⟨i, u, hi, hu, rfl⟩ | ⟨-, rfl⟩ := engineTurn_cases ht
  · obtain ⟨-, hpend, -⟩ := engine_port (engineSelect_format hi) hu
    exact (h.engineStep hs hi hu).settle (hpend.trans (h.resetPending hs))
  · exact h

theorem ComesTo.sinkTurn (ht : sinkTurn s = .next t) : ComesTo answer t := by
  have he : chunkEnabled s ≠ true := fun he => h.not_rendering (chunkEnabled_iff.1 he).1
  rw [Machine.sinkTurn, if_neg he] at ht
  cases ht
  exact h

/-- The host's turn: its next access, if it has one to make, is the next byte or END_OF_DATA. -/
theorem ComesTo.hostTurn (hs : Inv s) (ht : hostTurn s = .next t) : ComesTo answer t := by
  cases hheld : s.held with
  | some b => rw [hostTurn_held hheld] at ht; cases ht; exact h
  | none =>
    have hpend := h.resetPending hs
    obtain hq | ⟨_ | ⟨b, pending⟩, hq⟩ := h.hostQ
    · rw [hostTurn_nil hq] at ht; cases ht; exact h
    · rw [hostTurn_endOfData hheld hpend hq] at ht
      exact h.endOfData hheld hq ht
    · rw [hostTurn_push hheld hpend hq] at ht
      cases ht
      exact (h.present hheld hq).offerByte

/-- A step whoever moves, hardware reset excepted. -/
theorem ComesTo.step (hs : Inv s) (hreset : Turn.reset ∉ s.sched) (ht : step s = .next t) :
    ComesTo answer t := by
  unfold Machine.step takeTurn at ht
  cases hturn : nextTurn s <;> rw [hturn] at ht
  case host => exact h.dropTurn.hostTurn hs.dropTurn ht
  case engine => exact h.dropTurn.engineTurn hs.dropTurn ht
  case sink => exact h.dropTurn.sinkTurn ht
  case reset => exact absurd (mem_sched_of_nextTurn_reset hturn) hreset

end

/-- A run whose schedule has no hardware reset comes to the answer it was to come to. -/
theorem ComesTo.run {answer : List Byte × Cause} {k : Nat} {s t : State} (hs : Inv s)
    (h : ComesTo answer s) (hreset : Turn.reset ∉ s.sched)
    (ht : Host.Core.run Sys2Proof.core k s = .next t) : Inv t ∧ ComesTo answer t := by
  induction k generalizing s with
  | zero => cases ht; exact ⟨hs, h⟩
  | succ k ih =>
    obtain ⟨u, hu, hrun⟩ := run_succ_inv ht
    have hreset' : Turn.reset ∉ u.sched := by
      rw [step_sched hu]; exact fun hm => hreset (List.mem_of_mem_tail hm)
    exact ih (stepKeepsTheInvariant s u hs hu) (h.step hs hreset hu) hreset' hrun

/-- An accepted START_DECODE is where `lzw_decode` starts (43_host_commands.md R145). -/
theorem startDecode_comesTo {s : State} (hs : Inv s) (hp : s.flags.phase = .idle)
    (hlo : 2 ≤ s.cfg.mcs.toNat) (hhi : s.cfg.mcs.toNat ≤ 8)
    (hcap : s.cfg.w.toNat * s.cfg.h.toNat ≤ s.params.idxCap) (data : List Byte)
    (sched : List Turn) :
    Inv { startDecode s with hostQ := pushStream data, sched := sched } ∧
    ComesTo (lzwDecode s.cfg.mcs.toNat data (s.cfg.w.toNat * s.cfg.h.toNat))
      { startDecode s with hostQ := pushStream data, sched := sched } := by
  have hblock := hs.startDecode hp hlo hhi hcap
  have hheld : s.held = none := hs.port.held_none (by simp [hp])
  have hpend : s.resetPending = false := by
    by_contra hpend
    have hren := (hs.port.2 (by simpa using hpend)).1
    rw [hp] at hren; cases hren
  have hexp : (startDecode s).frame.expected.toNat = s.cfg.w.toNat * s.cfg.h.toNat :=
    hblock.frame.1
  have hdec : decoderOf (startDecode s) = .reset s.cfg.mcs.toNat :=
    decoderOf_initial (initialDictionary_of hlo hhi rfl rfl rfl rfl rfl)
  have hunread : unread data { startDecode s with hostQ := pushStream data, sched := sched } =
      data := by simp [unread, hheld]
  refine ⟨{ hblock.env s.held s.resetPending s.rdata s.idxRaddr (pushStream data) sched with
    port := .of_none hheld hpend }, .running data (8 * data.length + 1) rfl (.inl ⟨rfl, rfl⟩) ?_ ?_⟩
  · rw [hunread]; exact Nat.lt_succ_self _
  · rw [hunread, lzwDecode, ← hexp, ← hdec]; rfl

/-- Settles O57: the decode starts as `lzw_decode` does, every step keeps what it comes to, and a
state that is IDLE again has come to it. -/
theorem everyScheduleDecodesLikeTheFunction : Obligations.EveryScheduleDecodesLikeTheFunction := by
  intro s₀ s₁ t data sched k hs hstart hdec hidle hreset hrun htp
  obtain ⟨e, -, rfl⟩ | ⟨-, hlo, hhi, hcap, rfl⟩ := exec_startDecode_cases hstart
  · rw [refuse_flags, hidle] at hdec; cases hdec
  · obtain ⟨hinv, hcomes⟩ := startDecode_comesTo hs hidle hlo hhi hcap data sched
    obtain ⟨ht, hcome⟩ := hcomes.run hinv hreset hrun
    cases hcome with
    | running _ _ hphase => rw [htp] at hphase; cases hphase
    | stopped _ _ hanswer => rw [indices_eq ht.frame, ← hanswer]; exact ⟨rfl, rfl⟩

end Sys2Proof.Machine
end

section
/-! ## Proofs: the palette mapper (42_palette_mapper.md)

The interlace order, a pixel, a chunk, and a render as the CHUNK steps that make it up. -/

namespace Sys2Proof.Machine

/-! ### The interlace order (R122, R123) -/

section
variable {f : Nat → Nat} {n i : Nat} (l : List Nat)

/-- An element of a pass that has `n` rows. -/
theorem getElem?_pass (h : i < n) : ((List.range n).map f ++ l)[i]? = some (f i) := by
  rw [List.getElem?_append_left (by simpa using h)]
  simp [h]

/-- An element of what comes after it. -/
theorem getElem?_after_pass (h : n ≤ i) : ((List.range n).map f ++ l)[i]? = l[i - n]? := by
  rw [List.getElem?_append_right (by simpa using h), List.length_map, List.length_range]

end

/-- Settles O37: the row is in the first of the four passes that has not ended before it. -/
theorem interlaceClosedFormIsTheList : Obligations.InterlaceClosedFormIsTheList := by
  intro h i hi
  have hlen := pass_lengths h
  rw [ilaceList_eq, ilace_eq, List.append_assoc, List.append_assoc,
    ← List.append_nil (List.map _ (List.range (h / 2)))]
  split_ifs with h1 h2 h3
  · exact getElem?_pass _ h1
  · rw [getElem?_after_pass _ (by omega), getElem?_pass _ (by omega)]
  · rw [getElem?_after_pass _ (by omega), getElem?_after_pass _ (by omega),
      getElem?_pass _ (by omega)]
  · rw [getElem?_after_pass _ (by omega), getElem?_after_pass _ (by omega),
      getElem?_after_pass _ (by omega), getElem?_pass _ (by omega)]

/-- The numbers of one residue are those of its two residues at twice the modulus. -/
theorem filter_residue_perm (l : List Nat) {m a : Nat} (ha : a < m) :
    (l.filter (fun r => r % (m * 2) = a) ++ l.filter (fun r => r % (m * 2) = m + a)).Perm
      (l.filter (fun r => r % m = a)) := by
  have hmod (r : Nat) : r % (m * 2) = r % m + m * (r / m % 2) := Nat.mod_mul
  have hfirst (r : Nat) : r % (m * 2) = a ↔ r / m % 2 = 0 ∧ r % m = a := by
    rcases Nat.mod_two_eq_zero_or_one (r / m) with e | e <;> rw [hmod, e] <;> omega
  have hsecond (r : Nat) : r % (m * 2) = m + a ↔ ¬ r / m % 2 = 0 ∧ r % m = a := by
    have := Nat.mod_lt r (by omega : 0 < m)
    rcases Nat.mod_two_eq_zero_or_one (r / m) with e | e <;> rw [hmod, e] <;> omega
  simpa only [hfirst, hsecond, List.filter_filter, Bool.decide_and, decide_not] using
    List.filter_append_perm (fun r => r / m % 2 = 0) (l.filter (fun r => r % m = a))

/-- The passes join two by two, each pair to the rows of half the step. -/
theorem ilaceList_perm (h : Nat) : (ilaceList h).Perm (List.range h) := by
  have hall : (List.range h).filter (fun r => r % 1 = 0) = List.range h := by simp [Nat.mod_one]
  have join {m : Nat} (hm : 0 < m) := filter_residue_perm (List.range h) hm
  calc ilaceList h
    _ |>.Perm _ := ((join (by decide : 0 < 4)).append_right _).append_right _
    _ |>.Perm _ := (join (by decide : 0 < 2)).append_right _
    _ |>.Perm _ := join (by decide : 0 < 1)
    _ = List.range h := hall

/-- Settles O38: the passes are the definition's own, and their joining is a permutation. -/
theorem interlaceOrderIsFourPassesAndAPermutation :
    Obligations.InterlaceOrderIsFourPassesAndAPermutation :=
  ⟨fun _ => rfl, ilaceList_perm, by decide⟩

/-! ### One pixel (R125, R126) -/

/-- At and above IDX_COUNT the background shows. -/
theorem resolve_above {s : State} {p : Nat} (h : s.frame.idxCount.toNat ≤ p) :
    resolve s p = .ok s.cfg.bg :=
  if_pos h

/-- Below IDX_COUNT the index decides. -/
theorem resolve_below {s : State} {p : Nat} {idx : Byte} (h : p < s.frame.idxCount.toNat)
    (hidx : Mem.read s.idxmem p = some idx) : resolve s p =
      if s.cfg.transpEn = true ∧ idx = s.cfg.transpIdx then .ok s.cfg.bg
      else if idx.toNat < s.cfg.palSize.toNat then readPal s idx.toNat
      else .ok s.cfg.bg := by
  rw [resolve, if_neg (Nat.not_le.2 h), hidx]

/-- Settles O39: above IDX_COUNT, transparent, in the palette, or past it. -/
theorem resolveFollowsItsFourLines : Obligations.ResolveFollowsItsFourLines := by
  intro s p
  refine ⟨resolve_above, fun idx hp hidx => ?_⟩
  rw [resolve_below hp hidx]
  refine ⟨fun hen heq => ?_, fun hno hlt c hc => ?_, fun hge => ?_⟩
  · exact if_pos ⟨hen, heq⟩
  · rw [if_neg hno, if_pos hlt, readPal, hc]
  · rw [if_neg (Nat.not_lt.2 hge), ite_self]

/-- The high byte of a colour as a number (20_memory.md R45). -/
theorem colour_high (c : Colour) : c.extractLsb' 8 8 = BitVec.ofNat 8 (c.toNat / 256) :=
  congrArg (BitVec.ofNat 8) (Nat.shiftRight_eq_div_pow c.toNat 8)

/-- The low byte. -/
theorem colour_low (c : Colour) : c.extractLsb' 0 8 = BitVec.ofNat 8 c.toNat := rfl

/-! ### One chunk (R127 to R129) -/

/-- The payload of a blit is its chunk's pixels, packed (R127). -/
theorem chunkBlit_bytes {s : State} {b : Blit} (h : chunkBlit s = .ok b) :
    packAll s (chunkAddrs s) = .ok b.bytes := by
  unfold chunkBlit at h
  split at h
  · cases h
  · next hpack => cases h; exact hpack

/-- The two payload bytes of pixel `q` (R127, R72). -/
theorem chunkBlit_pixel {s : State} {b : Blit} (h : chunkBlit s = .ok b) {q : Nat}
    (hq : q < chunkRows s * s.frame.decW.toNat) : ∃ c, resolve s (chunkAddr s q) = .ok c ∧
      b.bytes[2 * q]? = some (c.extractLsb' 8 8) ∧
      b.bytes[2 * q + 1]? = some (c.extractLsb' 0 8) :=
  packAll_getElem? (chunkBlit_bytes h) (chunkAddrs_getElem? hq)

/-- Pixel `(j, x)` of a chunk is in its row `j`, column `x` (R127). -/
theorem chunkAddr_row {s : State} {x : Nat} (j : Nat) (hx : x < s.frame.decW.toNat) :
    chunkAddr s (j * s.frame.decW.toNat + x) =
      srcRow s (s.frame.renRow.toNat + j) * s.frame.decW.toNat + x := by
  have hw : 0 < s.frame.decW.toNat := by omega
  rw [chunkAddr, Nat.mul_comm j, Nat.mul_add_div hw, Nat.mul_add_mod, Nat.div_eq_of_lt hx,
    Nat.mod_eq_of_lt hx, Nat.add_zero]

/-- Payload byte `k` of a blit is the one the sink port offers as its `k`-th (R72). -/
theorem chunkBlit_byte {s : State} {b : Blit} (h : chunkBlit s = .ok b) {k : Nat} {d : Byte}
    (hd : chunkByte s k = .ok d) (hk : k < chunkLen s) : b.bytes[k]? = some d := by
  have hq : k / 2 < chunkRows s * s.frame.decW.toNat := by unfold chunkLen at hk; omega
  obtain ⟨c, hc, hhigh, hlow⟩ := chunkBlit_pixel h hq
  rw [chunkByte, hc] at hd
  cases hd
  split_ifs with heven
  · rwa [show 2 * (k / 2) = k by omega] at hhigh
  · rwa [show 2 * (k / 2) + 1 = k by omega] at hlow

/-- Settles O40: the step completes because the palette is loaded, and its blit has the chunk's
rectangle and payload. -/
theorem chunkBlitsWholeRows : Obligations.ChunkBlitsWholeRows := by
  intro s hs hp hpl
  obtain ⟨b, hb, hexec⟩ := execChunk_next hs.toBlockInv hp hpl
  obtain ⟨-, hx0, hy0, hx1, hy1, hbytes⟩ := chunkBlit_ok hs.render hp hb
  obtain ⟨ex0, ey0, ex1, ey1⟩ := chunk_rect hs.render hp
  have hlen : b.bytes.length = 2 * s.frame.decW.toNat * chunkRows s := by
    rw [packAll_length hbytes, chunkAddrs_length, Nat.mul_assoc, Nat.mul_comm (chunkRows s)]
  refine ⟨chunkDone b s, b, hexec, rfl, ?_, ?_, ?_, ?_, hlen, renRow_add_chunkRows s hs.render.1,
    rfl, rfl⟩
  · rw [hx0, ex0]
  · rw [hy0, ey0]
  · rw [hx1, ex1, hx0, ex0]
  · rw [hy1, ey1, hy0, ey0]; rfl

/-- Settles O41: the blit is that of the chunk on offer, pixel by pixel and byte by byte. -/
theorem chunkPayloadIsTheResolvedPixels : Obligations.ChunkPayloadIsTheResolvedPixels := by
  intro s t h
  obtain ⟨-, b, hb, rfl⟩ := exec_chunk_next h
  refine ⟨b, rfl, fun j x hj hx => ?_, fun k d hd hk => chunkBlit_byte hb hd hk⟩
  have hq : j * s.frame.decW.toNat + x < chunkRows s * s.frame.decW.toNat :=
    Nat.lt_of_lt_of_le (by rw [Nat.succ_mul]; omega) (Nat.mul_le_mul_right _ (Nat.succ_le_of_lt hj))
  obtain ⟨c, hc, hhigh, hlow⟩ := chunkBlit_pixel hb hq
  rw [chunkAddr_row j hx] at hc
  exact ⟨c, hc, colour_high c ▸ hhigh, colour_low c ▸ hlow⟩

/-! ### A render as its CHUNK steps (R127, R129, R132) -/

/-- From `s` the CHUNK steps of a render give these blits one after another, and then the block is
IDLE with REN_DONE set. -/
inductive RenderSteps : State → List Blit → Prop
  | done {s : State} (hrow : s.frame.renRow.toNat = s.frame.decH.toNat)
      (hphase : s.flags.phase = .idle) (hdone : s.flags.renDone = true) : RenderSteps s []
  | chunk {s : State} {b : Blit} {bs : List Blit} (he : chunkEnabled s = true)
      (hb : chunkBlit s = .ok b) (hrest : RenderSteps (chunkDone b s) bs) : RenderSteps s (b :: bs)

/-- With the palette loaded a render in progress has its CHUNK steps to the end: each takes at least
one row. -/
theorem exists_renderSteps {n : Nat} {s : State} (hs : BlockInv s)
    (hp : s.flags.phase = .rendering) (hpl : PaletteLoaded s)
    (hn : s.frame.decH.toNat - s.frame.renRow.toNat ≤ n) : ∃ bs, RenderSteps s bs := by
  induction n generalizing s with
  | zero => have := (chunkEnabled_iff.1 (chunkEnabled_of hs.render hp)).2; omega
  | succ n ih =>
    obtain ⟨b, hb, -⟩ := execChunk_next hs hp hpl
    have he := chunkEnabled_of hs.render hp
    have hpos := chunkRows_pos hs.render hp
    obtain ⟨hrow, hflags⟩ := chunkDone_flags b hs.render.1
    split_ifs at hflags with hlast
    · exact ⟨[b], .chunk he hb (.done (hrow.trans hlast) (by rw [hflags]) (by rw [hflags]))⟩
    · have hp' : (chunkDone b s).flags.phase = .rendering := by rw [hflags, hp]
      have hn' : (chunkDone b s).frame.decH.toNat - (chunkDone b s).frame.renRow.toNat ≤ n := by
        change s.frame.decH.toNat - _ ≤ n; omega
      obtain ⟨bs, hbs⟩ := ih (hs.chunkDone hp hb) hp' hpl hn'
      exact ⟨b :: bs, .chunk he hb hbs⟩

/-- One chunk of `min c n` rows less. -/
theorem ceilDiv_sub_min {n c : Nat} (hn : 0 < n) (hc : 1 ≤ c) :
    (n - min c n + c - 1) / c + 1 = (n + c - 1) / c := by
  rcases Nat.le_total n c with hle | hle
  · rw [Nat.min_eq_right hle, Nat.sub_self, Nat.zero_add,
      Nat.div_eq_of_lt (Nat.sub_lt hc Nat.one_pos)]
    exact (div_eq_of_rest (r := n - 1) (by omega) (by omega)).symm
  · rw [Nat.min_eq_left hle, Nat.sub_add_cancel hle, Nat.sub_add_comm hn,
      Nat.add_div_right _ hc]

/-- The bytes of some rows depend on the configuration, the frame without its cursor, IDXMEM and
PAL. -/
theorem packAll_rowAddrs_congr {s t : State} (hcfg : t.cfg = s.cfg)
    (hframe : t.frame = { s.frame with renRow := t.frame.renRow }) (hidx : t.idxmem = s.idxmem)
    (hpal : t.pal = s.pal) (a n : Nat) :
    packAll t (rowAddrs t a n) = packAll s (rowAddrs s a n) := by
  rw [packAll_congr hcfg hidx hpal (by rw [hframe]),
    rowAddrs_congr hcfg (by rw [hframe]) (by rw [hframe])]

section
variable {s : State} {bs : List Blit} (h : RenderSteps s bs)
include h

/-- The steps do not depend on how much of a blit is taken, on who moves, or on the accesses to
come. -/
theorem RenderSteps.env (taken : Nat) (hostQ : List PortReq) (sched : List Turn) :
    RenderSteps { s with snkTaken := taken, hostQ := hostQ, sched := sched } bs := by
  induction h generalizing taken with
  | done hrow hphase hdone => exact .done hrow hphase hdone
  | @chunk s b bs he hb _ ih =>
    refine .chunk he ?_ (ih 0)
    rw [← hb]
    exact chunkBlit_congr rfl rfl rfl rfl

/-- They are the loop of `render()`, with a round for every row (R132). -/
theorem RenderSteps.renderFrom_eq (hc : 1 ≤ s.cfg.chunkH.toNat) {k : Nat}
    (hk : s.frame.decH.toNat ≤ s.frame.renRow.toNat + k) : renderFrom k s = .ok bs := by
  induction h generalizing k with
  | done hrow => exact renderFrom_done k hrow.ge
  | @chunk s b bs he hb _ ih =>
    have hlt := (chunkEnabled_iff.1 he).2
    obtain ⟨k, rfl⟩ : ∃ k', k = k' + 1 := Nat.exists_eq_add_one.2 (by omega)
    obtain ⟨hrow, -⟩ := chunkDone_flags b hlt.le
    refine renderFrom_chunk k hlt hb (ih hc ?_)
    rw [hrow]
    change s.frame.decH.toNat ≤ _
    unfold chunkRows
    omega

/-- The rows still to show take their number by CHUNK_H steps, rounded up. -/
theorem RenderSteps.length_eq (hc : 1 ≤ s.cfg.chunkH.toNat) : bs.length =
    (s.frame.decH.toNat - s.frame.renRow.toNat + s.cfg.chunkH.toNat - 1) /
      s.cfg.chunkH.toNat := by
  induction h with
  | done hrow =>
    rw [hrow, Nat.sub_self, Nat.zero_add]
    exact (Nat.div_eq_of_lt (Nat.sub_lt hc Nat.one_pos)).symm
  | @chunk s b bs he hb _ ih =>
    have hlt := (chunkEnabled_iff.1 he).2
    obtain ⟨hrow, -⟩ := chunkDone_flags b hlt.le
    have ih := ih hc
    rw [hrow, ← Nat.sub_sub] at ih
    rw [List.length_cons, ih]
    exact ceilDiv_sub_min (Nat.sub_pos_of_lt hlt) hc

/-- Their payloads joined are the pixels of the rows still to show. -/
theorem RenderSteps.bytes_eq :
    packAll s (rowAddrs s s.frame.renRow.toNat (s.frame.decH.toNat - s.frame.renRow.toNat)) =
      .ok (bs.flatMap Blit.bytes) := by
  induction h with
  | done hrow => rw [hrow, Nat.sub_self]; rfl
  | @chunk s b bs he hb _ ih =>
    have hlt := (chunkEnabled_iff.1 he).2
    obtain ⟨hrow, -⟩ := chunkDone_flags b hlt.le
    have hle := chunkRows_le s
    rw [packAll_rowAddrs_congr (s := s) (t := chunkDone b s) rfl rfl rfl rfl, hrow] at ih
    rw [show s.frame.decH.toNat - s.frame.renRow.toNat = chunkRows s +
      (s.frame.decH.toNat - (s.frame.renRow.toNat + chunkRows s)) by omega, rowAddrs_add]
    exact packAll_append (chunkBlit_bytes hb) ih

/-- With nothing waiting at the port and the schedule leaving it to the engine, they are the next
steps of the block (70_reset_and_hazards.md R199). -/
theorem RenderSteps.run (hsched : s.sched = []) (hpend : s.resetPending = false)
    (hheld : s.held = none) :
    ∃ t, Host.Core.run Sys2Proof.core bs.length s = .next t ∧ t.flags.phase = .idle := by
  induction h with
  | done _ hphase => exact ⟨_, rfl, hphase⟩
  | @chunk s b bs he hb _ ih =>
    obtain ⟨hp, hlt⟩ := chunkEnabled_iff.1 he
    have hstep : step s = .next (chunkDone b s) := by
      rw [step_rendering hsched hp hlt hpend hheld]
      change execChunk s = _
      rw [execChunk, if_pos he, hb]
    rw [List.length_cons, run_succ hstep]
    exact ih hsched hpend hheld

end

/-! ### Every schedule (R129; 20_memory.md R51, R52) -/

/-- The render comes to `out` at the sink: it has CHUNK steps left for what is missing, with no
access to come and nothing waiting at the port; or nothing was to be shown (R130, R131). -/
inductive RendersTo (out : List Blit) (s : State) : Prop
  | steps {rest : List Blit} (hsteps : RenderSteps s rest) (hhost : s.hostQ = [])
      (hpend : s.resetPending = false) (hheld : s.held = none) (hout : s.sinkOut ++ rest = out)
  | nothing (hphase : s.flags.phase = .idle) (hdone : s.flags.renDone = true)
      (hhost : s.hostQ = []) (hout : s.sinkOut = out)

section
variable {out : List Blit} {s t : State} (h : RendersTo out s)
include h

theorem RendersTo.not_decoding : s.flags.phase ≠ .decoding := by
  cases h with
  | steps hsteps =>
    cases hsteps with
    | done _ hphase => simp [hphase]
    | chunk he => simp [(chunkEnabled_iff.1 he).1]
  | nothing hphase => simp [hphase]

theorem RendersTo.hostQ_nil : s.hostQ = [] := by
  cases h <;> assumption

/-- Once IDLE, REN_DONE is set and the sink has had everything. -/
theorem RendersTo.of_idle (hp : s.flags.phase = .idle) :
    s.flags.renDone = true ∧ s.sinkOut = out := by
  cases h with
  | steps hsteps _ _ _ hout =>
    cases hsteps with
    | done _ _ hdone => exact ⟨hdone, by simpa using hout⟩
    | chunk he => simp [(chunkEnabled_iff.1 he).1] at hp
  | nothing _ hdone _ hout => exact ⟨hdone, hout⟩

/-- How much of a blit is taken and whose turn it is are no part of it. -/
theorem RendersTo.env (taken : Nat) (sched : List Turn) :
    RendersTo out { s with snkTaken := taken, sched := sched } := by
  cases h with
  | steps hsteps hhost hpend hheld hout =>
    exact .steps (hsteps.env taken s.hostQ sched) hhost hpend hheld hout
  | nothing hphase hdone hhost hout => exact .nothing hphase hdone hhost hout

/-- A CHUNK step is the next of the render's, and leaves nothing at the port. -/
theorem RendersTo.chunk (ht : exec .chunk s = .next t) : RendersTo out (settle t) := by
  obtain ⟨he, b, hb, rfl⟩ := exec_chunk_next ht
  have hp := (chunkEnabled_iff.1 he).1
  cases h with
  | steps hsteps hhost hpend hheld hout =>
    rw [settle_none (s := chunkDone b s) hpend hheld]
    cases hsteps with
    | done _ hphase => simp [hphase] at hp
    | chunk _ hb' hrest =>
      obtain rfl : _ = b := Except.ok.inj (hb'.symm.trans hb)
      exact .steps hrest hhost hpend hheld (by simpa using hout)
  | nothing hphase => simp [hphase] at hp

theorem RendersTo.engineTurn (ht : engineTurn s = .next t) : RendersTo out t := by
  obtain ⟨i, u, hi, hu, rfl⟩ | ⟨-, rfl⟩ := engineTurn_cases ht
  · obtain ⟨-, he⟩ | ⟨-, he⟩ | ⟨-, he⟩ | ⟨rfl, -⟩ := engineSelect_enabled hi
    · exact absurd (fillEnabled_iff.1 he).1 h.not_decoding
    · exact absurd (exhaustEnabled_iff.1 he).1 h.not_decoding
    · exact absurd (codeEnabled_iff.1 he).1 h.not_decoding
    · exact h.chunk hu
  · exact h

theorem RendersTo.sinkTurn (ht : sinkTurn s = .next t) : RendersTo out t := by
  unfold Machine.sinkTurn at ht
  split_ifs at ht
  · cases hb : chunkByte s s.snkTaken <;> rw [hb] at ht <;> cases ht
    exact h.env _ s.sched
  · obtain ⟨u, hu, rfl⟩ := afterStep_next ht
    exact h.chunk hu
  · cases ht; exact h

/-- A step whoever moves, hardware reset excepted: the host has nothing to ask. -/
theorem RendersTo.step (hreset : Turn.reset ∉ s.sched) (ht : step s = .next t) :
    RendersTo out t := by
  have hdrop : RendersTo out (dropTurn s) := h.env s.snkTaken s.sched.tail
  unfold Machine.step takeTurn at ht
  cases hturn : nextTurn s <;> rw [hturn] at ht
  case host => rw [hostTurn_nil hdrop.hostQ_nil] at ht; cases ht; exact hdrop
  case engine => exact hdrop.engineTurn ht
  case sink => exact hdrop.sinkTurn ht
  case reset => exact absurd (mem_sched_of_nextTurn_reset hturn) hreset

end

/-- A run whose schedule has no hardware reset keeps it. -/
theorem RendersTo.run {out : List Blit} {k : Nat} {s t : State} (h : RendersTo out s)
    (hreset : Turn.reset ∉ s.sched) (ht : Host.Core.run Sys2Proof.core k s = .next t) :
    RendersTo out t := by
  induction k generalizing s with
  | zero => cases ht; exact h
  | succ k ih =>
    obtain ⟨u, hu, hrun⟩ := run_succ_inv ht
    refine ih (h.step hreset hu) ?_ hrun
    rw [step_sched hu]; exact fun hm => hreset (List.mem_of_mem_tail hm)

/-! ### An accepted START_RENDER (43_host_commands.md R147) -/

/-- No SOFT_RESET waits while nothing is rendered (R144). -/
theorem PortOk.pending_false {s : State} (h : PortOk s) (hp : s.flags.phase ≠ .rendering) :
    s.resetPending = false := by
  by_contra hpend
  exact hp (h.2 (by simpa using hpend)).1

/-- A skip or an empty frame is done at once (R130, R131). -/
theorem startRender_nothing {s : State} (hp : s.flags.phase = .idle)
    (h : s.cfg.palSize = 0 ∨ s.frame.decW = 0 ∨ s.frame.decH = 0) :
    (startRender s).flags.phase = .idle ∧ (startRender s).flags.renDone = true := by
  simp only [BitVec.toNat_eq, BitVec.ofNat_eq_ofNat, BitVec.toNat_ofNat, Nat.zero_mod] at h
  simp only [startRender]
  split_ifs with hpal hsize
  · exact ⟨hp, rfl⟩
  · exact ⟨hp, rfl⟩
  · exact absurd h (not_or.2 ⟨hpal, hsize⟩)

/-- Anything else is rendered. -/
theorem startRender_rendering {s : State}
    (h : ¬(s.cfg.palSize = 0 ∨ s.frame.decW = 0 ∨ s.frame.decH = 0)) :
    (startRender s).flags.phase = .rendering := by
  simp only [BitVec.toNat_eq, BitVec.ofNat_eq_ofNat, BitVec.toNat_ofNat, Nat.zero_mod] at h
  obtain ⟨hpal, hsize⟩ := not_or.1 h
  simp only [startRender, if_neg hpal, if_neg hsize]

/-- A frame without pixels has an empty image. -/
theorem imageBytes_empty {s : State} (h : s.frame.decW = 0 ∨ s.frame.decH = 0) :
    imageBytes s = .ok [] := by
  obtain h | h := h
  · simp [imageBytes, h, List.flatMap_eq_nil_iff.2, packAll]
  · simp [imageBytes, h, packAll]

/-- The CHUNK steps from START_RENDER on are what `render()` gives (R132). -/
theorem RenderSteps.render_eq {s : State} {bs : List Blit} (h : RenderSteps (startRender s) bs)
    (hsome : ¬(s.cfg.palSize = 0 ∨ s.frame.decW = 0 ∨ s.frame.decH = 0))
    (hc : 1 ≤ s.cfg.chunkH.toNat) : render s = .ok bs := by
  rw [render, if_neg hsome, ← h.renderFrom_eq hc (Nat.le_add_left _ _)]
  exact renderFrom_congr _ _ _ rfl rfl rfl rfl

/-- Their payloads joined are the image. -/
theorem RenderSteps.imageBytes_eq {s : State} {bs : List Blit}
    (h : RenderSteps (startRender s) bs) : imageBytes s = .ok (bs.flatMap Blit.bytes) := by
  rw [Machine.imageBytes_eq,
    ← packAll_rowAddrs_congr (s := s) (t := startRender s) rfl rfl rfl rfl]
  exact h.bytes_eq

/-- Settles O59: a skip or an empty frame comes to no blits at once; any other render has its CHUNK
steps, which are the loop of `render()`, make up the image, and are what is left at every step. -/
theorem renderOutputsTheWholeImage : Obligations.RenderOutputsTheWholeImage := by
  intro s s₁ hs hpl hstart herr
  obtain ⟨e, hne, rfl⟩ | ⟨hp, hd, hc, ho, rfl⟩ := exec_startRender_cases hstart
  · exact absurd herr hne
  have hheld : s.held = none := hs.port.held_none (by simp [hp])
  have hpend : s.resetPending = false := hs.port.pending_false (by simp [hp])
  have hc : 1 ≤ s.cfg.chunkH.toNat := Nat.one_le_iff_ne_zero.2 hc
  by_cases hnone : s.cfg.palSize = 0 ∨ s.frame.decW = 0 ∨ s.frame.decH = 0
  · obtain ⟨hphase, hdone⟩ := startRender_nothing hp hnone
    have hto (sched : List Turn) :
        RendersTo (s.sinkOut ++ []) { startRender s with hostQ := [], sched := sched } :=
      .nothing hphase hdone rfl (List.append_nil _).symm
    refine ⟨[], if_pos hnone, ?_, fun hpal => imageBytes_empty (hnone.resolve_left hpal),
      fun sched k t hreset hrun => ((hto sched).run hreset hrun).of_idle, ⟨_, rfl, hphase⟩⟩
    split_ifs with hzero
    · rfl
    · obtain ⟨hpal, hw⟩ := not_or.1 hzero
      have hh : s.frame.decH.toNat = 0 := by simp [(hnone.resolve_left hpal).resolve_left hw]
      rw [hh, Nat.zero_add]
      exact (Nat.div_eq_of_lt (Nat.sub_lt hc Nat.one_pos)).symm
  · have hinv := hs.startRender hp hd (by omega) (by simp [ho])
    obtain ⟨bs, hsteps⟩ := exists_renderSteps hinv (startRender_rendering hnone) hpl le_rfl
    have hto (sched : List Turn) :
        RendersTo (s.sinkOut ++ bs) { startRender s with hostQ := [], sched := sched } :=
      .steps (hsteps.env s.snkTaken [] sched) rfl hpend hheld rfl
    exact ⟨bs, hsteps.render_eq hnone hc,
      (hsteps.length_eq hc).trans (if_neg fun h => hnone (h.imp_right .inl)).symm,
      fun _ => hsteps.imageBytes_eq,
      fun sched k t hreset hrun => ((hto sched).run hreset hrun).of_idle,
      (hsteps.env s.snkTaken s.hostQ []).run rfl hpend hheld⟩

end Sys2Proof.Machine
end

section
/-! ## Proofs: the host commands (43_host_commands.md)

The six commands, the register writes and the palette window; what each instruction makes of the
flags; and what waits at the port: a held DATA_IN write, a SOFT_RESET written during a blit. -/

namespace Sys2Proof.Machine

/-! ### What each instruction makes of the flags (R142, R152) -/

/-- A command, an engine step or a code class, or a register access (30_encoding.md R60). -/
theorem format_cases (i : Instr) : i.format = .cmd ∨ (i.format = .engine ∨ i.format = .code) ∨
    (i.format = .regWr ∨ i.format = .regRd) := by
  cases i.format <;> simp

/-- A register access leaves every flag as it is. -/
theorem regAccess_flags {i : Instr} (hi : i.format = .regWr ∨ i.format = .regRd) {s t : State}
    (h : exec i s = .next t) : t.flags = s.flags := by
  cases i
  case wrReserved | wrIdxRaddr => injection h with h; subst h; rfl
  case wrDataIn b =>
    injection h with h; subst h
    obtain ⟨-, e⟩ | ⟨-, -, -, e⟩ | ⟨-, -, -, e⟩ := offerByte_cases b s <;> rw [e]
  case wrPal => obtain ⟨-, rfl⟩ | ⟨-, rfl⟩ := exec_wrPal_cases h <;> rfl
  case rd => obtain ⟨v, -, rfl⟩ := exec_rd_next h; rfl
  case wrLzwCfg | wrFramePos | wrFrameSize | wrRenCfg | wrPalSize | wrBgColor | wrDestPos =>
    obtain ⟨-, rfl⟩ | ⟨-, rfl⟩ := writeCfg_cases ((exec_cfgUpdate rfl s).symm.trans h) <;> rfl
  all_goals simp [Instr.format] at hi

/-- An instruction that can stop a decode (R152): EXHAUST, CODE or a code class. -/
def MayStop (i : Instr) : Prop := i = .exhaust ∨ i = .code ∨ i.format = .code

/-- What an engine step or a code class makes of the flags: nothing, a Stop, or the end of a render. -/
inductive EngineFlags (i : Instr) (f : Flags) (t : State) : Prop
  | same (hflags : t.flags = f)
  | stop (cause : Cause) (hi : MayStop i) (hphase : f.phase = .decoding) (hcause : cause ≠ .none)
      (hflags : t.flags = StoppedFlags cause f)
  | renderDone (hi : i = .chunk) (hphase : f.phase = .rendering)
      (hrow : t.frame.renRow = t.frame.decH)
      (hflags : t.flags = { f with renDone := true, phase := .idle })

/-- A code class goes on or stops (60_exceptions.md R170). -/
theorem codeClass_engineFlags {i j : Instr} (hi : i.format = .code) (hj : MayStop j) {s t : State}
    (h : exec i s = .next t) : EngineFlags j s.flags t := by
  obtain ⟨hp, -, -, e | ⟨cause, hcause, e⟩⟩ := codeClass_frame hi h
  · exact .same e
  · exact .stop cause hj hp hcause e

/-- After the last row a CHUNK step ends the render (42_palette_mapper.md R129). -/
theorem chunkDone_engineFlags (b : Blit) {s : State} (hp : s.flags.phase = .rendering) :
    EngineFlags .chunk s.flags (chunkDone b s) := by
  have hflags : (chunkDone b s).flags = if (chunkDone b s).frame.renRow = s.frame.decH
      then { s.flags with renDone := true, phase := .idle } else s.flags := rfl
  split_ifs at hflags with hrow
  · exact .renderDone rfl hp hrow hflags
  · exact .same hflags

/-- Every engine step and every code class. -/
theorem exec_engineFlags {i : Instr} (hi : i.format = .engine ∨ i.format = .code) {s t : State}
    (h : exec i s = .next t) : EngineFlags i s.flags t := by
  cases i
  case clear | endCode | known | kwkwk | invalid =>
    exact codeClass_engineFlags rfl (.inr (.inr rfl)) h
  case fill => obtain ⟨-, b, rest, -, rfl⟩ := exec_fill_next h; exact .same rfl
  case exhaust =>
    obtain ⟨he, rfl⟩ := exec_exhaust_next h
    exact .stop .exhausted (.inl rfl) (exhaustEnabled_iff.1 he).1 (by decide) rfl
  case code =>
    obtain ⟨-, j, hj, hclass⟩ := execCode_cases h
    exact codeClass_engineFlags (s := extract s) hj (.inr (.inl rfl)) hclass
  case chunk =>
    obtain ⟨he, b, -, rfl⟩ := exec_chunk_next h
    exact chunkDone_engineFlags b (chunkEnabled_iff.1 he).1
  all_goals simp [Instr.format] at hi

/-- An accepted START_RENDER clears ERR_CODE (R147). -/
theorem startRender_errCode (s : State) : (startRender s).flags.errCode = .none := by
  simp only [startRender]
  split_ifs <;> rfl

/-- Settles O48: commands one by one; a register access leaves the flags; an engine step or a code
class leaves PHASE but for a Stop and the end of a render. -/
theorem phaseChangesOnlyByTheTable : Obligations.PhaseChangesOnlyByTheTable := by
  intro i s t h hne
  obtain hi | hi | hi := format_cases i
  case inr.inr => exact absurd (congrArg Flags.phase (regAccess_flags hi h)) hne
  case inr.inl =>
    cases exec_engineFlags hi h with
    | same e => exact absurd (congrArg Flags.phase e) hne
    | stop cause hi hp hcause e => rw [e]; exact .inr (.inr (.inl ⟨hi, hp, rfl, rfl, hcause⟩))
    | renderDone hi hp hrow e => rw [e]; exact .inr (.inr (.inr (.inl ⟨hi, hp, rfl, hrow, rfl⟩)))
  case inl =>
    cases i <;> cases hi
    case nop | cmdReserved => injection h with h; subst h; exact absurd rfl hne
    case endOfData => obtain ⟨-, rfl⟩ | ⟨-, rfl⟩ := exec_endOfData_cases h <;> exact absurd rfl hne
    case softReset =>
      obtain ⟨-, rfl⟩ | ⟨-, rfl⟩ := exec_softReset_cases h
      · exact absurd rfl hne
      · exact .inr (.inr (.inr (.inr ⟨rfl, rfl⟩)))
    case startDecode =>
      obtain ⟨e, -, rfl⟩ | ⟨hp, -, -, -, rfl⟩ := exec_startDecode_cases h
      · exact absurd rfl hne
      · exact .inl ⟨rfl, hp, rfl⟩
    case startRender =>
      obtain ⟨e, -, rfl⟩ | ⟨hp, -, -, -, rfl⟩ := exec_startRender_cases h
      · exact absurd rfl hne
      · by_cases hnone : s.cfg.palSize = 0 ∨ s.frame.decW = 0 ∨ s.frame.decH = 0
        · exact absurd ((startRender_nothing hp hnone).1.trans hp.symm) hne
        · have hphase := startRender_rendering hnone
          simp only [BitVec.toNat_eq, BitVec.ofNat_eq_ofNat, BitVec.toNat_ofNat, Nat.zero_mod,
            not_or] at hnone
          obtain ⟨hpal, hw, hh⟩ := hnone
          exact .inr (.inl ⟨rfl, hp, hphase, Nat.pos_of_ne_zero hpal, Nat.pos_of_ne_zero hw,
            Nat.pos_of_ne_zero hh⟩)

/-- No engine step and no code class writes ERR_CODE. -/
theorem EngineFlags.errCode {i : Instr} {f : Flags} {t : State} (h : EngineFlags i f t) :
    t.flags.errCode = f.errCode := by
  cases h with
  | same e => rw [e]
  | stop _ _ _ _ e => rw [e]; rfl
  | renderDone _ _ _ e => rw [e]

/-- Settles O52: a command that is accepted clears ERR_CODE, a refused one writes nothing else
(60_exceptions.md R173); every other instruction leaves it. -/
theorem errCodeIsOfTheLastCommand : Obligations.ErrCodeIsOfTheLastCommand := by
  intro i s t h hne
  obtain hi | hi | hi := format_cases i
  case inr.inr => exact absurd (congrArg Flags.errCode (regAccess_flags hi h)) hne
  case inr.inl => exact absurd (exec_engineFlags hi h).errCode hne
  case inl =>
    cases i <;> cases hi
    case nop => injection h with h; subst h; exact absurd rfl hne
    case cmdReserved op =>
      injection h with h; subst h; exact ⟨rfl, nofun, .inr rfl⟩
    case softReset =>
      obtain ⟨-, rfl⟩ | ⟨-, rfl⟩ := exec_softReset_cases h
      · exact absurd rfl hne
      · exact ⟨rfl, nofun, .inl rfl⟩
    case startDecode =>
      obtain ⟨e, -, rfl⟩ | ⟨-, -, -, -, rfl⟩ := exec_startDecode_cases h
      · exact ⟨rfl, nofun, .inr rfl⟩
      · exact ⟨rfl, nofun, .inl rfl⟩
    case endOfData =>
      obtain ⟨-, rfl⟩ | ⟨-, rfl⟩ := exec_endOfData_cases h
      · exact ⟨rfl, nofun, .inr rfl⟩
      · exact ⟨rfl, nofun, .inl rfl⟩
    case startRender =>
      obtain ⟨e, -, rfl⟩ | ⟨-, -, -, -, rfl⟩ := exec_startRender_cases h
      · exact ⟨rfl, nofun, .inr rfl⟩
      · exact ⟨rfl, nofun, .inl (startRender_errCode s)⟩

/-! ### A held DATA_IN write (R149) -/

/-- While a write is held INQ is full, so it has a byte: the step selected is CODE or FILL. -/
theorem engineSelect_held {s : State} {b : Byte} (hs : Inv s) (hheld : s.held = some b) :
    engineSelect s = some .fill ∨ engineSelect s = some .code := by
  obtain ⟨hp, -, hfull⟩ := hs.port.1 (by rw [hheld]; nofun)
  have hparams := hs.params
  simp only [Params.ok, Bool.and_eq_true, decide_eq_true_eq] at hparams
  have hinq : s.inq ≠ [] := List.ne_nil_of_length_pos (by omega)
  rw [engineSelect_eq, hp]
  dsimp only
  split_ifs
  · exact .inr rfl
  · exact .inl rfl

/-- FILL and CODE complete where they are selected. -/
theorem exec_fill_or_code_completes {s : State} {i : Instr} (hs : BlockInv s)
    (hi : engineSelect s = some i) (hfc : i = .fill ∨ i = .code) : ∃ u, exec i s = .next u := by
  obtain ⟨rfl, he⟩ | ⟨rfl, -⟩ | ⟨rfl, he⟩ | ⟨rfl, -⟩ := engineSelect_enabled hi
  · exact exec_fill_completes he
  · simp at hfc
  · exact exec_code_completes hs he
  · simp at hfc

/-- An engine turn's step leaves the write held, and it is offered again after the step. -/
theorem engineTurn_held {s u : State} {b : Byte} {i : Instr} (hi : engineSelect s = some i)
    (hu : exec i s = .next u) (hheld : s.held = some b) (hpend : s.resetPending = false) :
    engineTurn s = .next (offerByte b u) := by
  obtain ⟨hheld', hpend', -, -⟩ := engine_port (engineSelect_format hi) hu
  simp only [engineTurn, hi, hu, afterStep, settle_held (hpend'.trans hpend) (hheld'.trans hheld)]

/-- Whose turns are still to come is no part of the invariant. -/
theorem Inv.withSched {s : State} (h : Inv s) (q : List Turn) : Inv { s with sched := q } :=
  { h.env s.held s.resetPending s.rdata s.idxRaddr s.hostQ q with port := h.port }

/-- Settles O46: INQ is full, so FILL or CODE is selected and completes, and the write is offered
again after it. -/
theorem heldWriteKeepsThePort : Obligations.HeldWriteKeepsThePort := by
  intro s b q hs hheld
  have hsel := engineSelect_held hs hheld
  obtain ⟨hp, -, -⟩ := hs.port.1 (by rw [hheld]; nofun)
  have hpend : s.resetPending = false := hs.port.pending_false (by rw [hp]; decide)
  refine ⟨hsel, by rw [regReady, hheld]; rfl, fun hq => ?host, fun hq => ?engine⟩
  case host => exact (step_cons hq).trans (hostTurn_held (s := { s with sched := q }) hheld)
  case engine =>
    obtain ⟨i, hi, hfc⟩ : ∃ i, engineSelect s = some i ∧ (i = .fill ∨ i = .code) :=
      hsel.elim (fun hi => ⟨_, hi, .inl rfl⟩) fun hi => ⟨_, hi, .inr rfl⟩
    obtain ⟨u, hu⟩ := exec_fill_or_code_completes (hs.withSched q).toBlockInv hi hfc
    exact ⟨i, u, offerByte b u, hi, hu, rfl, (step_cons hq).trans
      (engineTurn_held (s := { s with sched := q }) hi hu hheld hpend)⟩

/-! ### SOFT_RESET during a blit (R144) -/

/-- Where no blit is being transferred SOFT_RESET resets at once. -/
theorem exec_softReset_at_once {s : State} (h : transferring s ≠ true) :
    exec .softReset s = .next (softReset s) :=
  if_neg h

/-- A finished CHUNK step has left no byte of a blit taken. -/
theorem transferring_chunkDone (b : Blit) (s : State) : transferring (chunkDone b s) ≠ true :=
  fun h => (transferring_iff.1 h).2.2 rfl

/-- While a SOFT_RESET waits, the end of the CHUNK step is its effect. -/
theorem afterStep_chunk_pending {s : State} {b : Blit} (hpend : s.resetPending = true)
    (hexec : exec .chunk s = .next (chunkDone b s)) :
    afterStep (exec .chunk s) = .next (softReset (chunkDone b s)) := by
  rw [hexec, afterStep, settle_pending (s := chunkDone b s) hpend]

/-- Settles O60: the blit is being transferred, so the turn that finishes it is the CHUNK step, and
what waits after it is the reset. -/
theorem softResetWaitsForTheLastByte : Obligations.SoftResetWaitsForTheLastByte := by
  intro s q hs hpl hpend
  have hs' := hs.withSched q
  obtain ⟨hp, -⟩ := hs.port.2 hpend
  have hheld := hs'.port.held_none_of_pending hpend
  have he := chunkEnabled_of hs'.render hp
  obtain ⟨b, hb, hexec⟩ := execChunk_next hs'.toBlockInv hp hpl
  have hblit : chunkBlit { s with sched := q } = chunkBlit s := chunkBlit_congr rfl rfl rfl rfl
  have hafter := afterStep_chunk_pending (s := { s with sched := q }) hpend hexec
  have hengine : engineTurn { s with sched := q } =
      .next (softReset (chunkDone b { s with sched := q })) := by
    rw [engineTurn, engineSelect_rendering hs'.render hp]; exact hafter
  refine ⟨fun hq hlt => ?before, b, _, _, hblit ▸ hb, hexec,
    exec_softReset_at_once (transferring_chunkDone b _), rfl, rfl, rfl, fun hq hlast => ?last,
    fun hq => (step_cons hq).trans hengine, fun r rest hq hreq => ?access⟩
  case before =>
    obtain ⟨d, hd⟩ := chunkByte_ok hs'.frame hpl s.snkTaken
    exact (step_cons hq).trans (sinkTurn_before_last he hlt hd)
  case last => exact (step_cons hq).trans ((sinkTurn_last he hlast).trans hafter)
  case access => exact (step_cons hq).trans (hostTurn_pending hheld hreq hpend hengine)

/-! ### The commands one by one (R143 to R148) -/

/-- Settles O7: NOP is the identity. -/
theorem nopHasNoEffect : Obligations.NopHasNoEffect := fun _ => rfl

/-- Settles O8: only the low byte of the word is decoded (30_encoding.md R65), and it is above the
five commands. -/
theorem reservedCommandsAreRefused : Obligations.ReservedCommandsAreRefused := by
  intro s v h
  have hop : 5 ≤ (BitVec.ofNat 8 v.toNat).toNat := by rwa [BitVec.toNat_ofNat]
  exact ⟨decodeOp_reserved hop, rfl⟩

/-- Settles O9: a blit being transferred makes it wait; else `softReset` writes no memory. -/
theorem softResetKeepsTheMemories : Obligations.SoftResetKeepsTheMemories := by
  intro s
  refine ⟨fun hno => ?_, fun hp hrow htaken =>
    exec_softReset_transferring (transferring_iff.2 ⟨hp, hrow, htaken⟩)⟩
  exact ⟨softReset s, exec_softReset_at_once (mt transferring_iff.1 hno), rfl, rfl, rfl, rfl, rfl,
    rfl, rfl, rfl, rfl, fun _ => rfl, fun _ => rfl, fun _ => rfl, rfl⟩

/-- START_DECODE with its three checks passed (R145). -/
theorem exec_startDecode_accepted {s : State} (hp : s.flags.phase = .idle)
    (hlo : 2 ≤ s.cfg.mcs.toNat) (hhi : s.cfg.mcs.toNat ≤ 8)
    (hcap : s.cfg.w.toNat * s.cfg.h.toNat ≤ s.params.idxCap) :
    exec .startDecode s = .next (startDecode s) := by
  change execStartDecode s = _
  rw [execStartDecode, if_neg (not_not.2 hp), if_neg (by omega), if_neg (Nat.not_lt.2 hcap)]

/-- EXPECTED holds the full product of two 16-bit sizes (30_encoding.md R74). -/
theorem toNat_ofNat_mul (w h : BitVec 16) :
    (BitVec.ofNat 32 (w.toNat * h.toNat)).toNat = w.toNat * h.toNat := by
  rw [BitVec.toNat_ofNat]
  exact Nat.mod_eq_of_lt (Nat.mul_lt_mul'' w.isLt h.isLt : _ < 2 ^ 16 * 2 ^ 16)

/-- Settles O10: the checks pass, and `startDecode` assigns what the rule says. -/
theorem startDecodeSetsUpTheDecode : Obligations.StartDecodeSetsUpTheDecode := by
  intro s hp hlo hhi hcap
  exact ⟨startDecode s, exec_startDecode_accepted hp hlo hhi hcap, rfl, rfl,
    initialDictionary_of hlo hhi rfl rfl rfl rfl rfl, rfl, rfl,
    toNat_ofNat_mul s.cfg.w s.cfg.h, rfl, rfl, rfl, rfl, fun _ => rfl, rfl⟩

/-- Settles O11: the first check that fails answers. -/
theorem startDecodeChecksInOrder : Obligations.StartDecodeChecksInOrder := by
  intro s
  refine ⟨fun hp => if_pos hp, fun hp hmcs => ?badMcs, fun hp hlo hhi hcap => ?tooLarge⟩ <;>
    refine Eq.trans (if_neg (not_not.2 hp)) ?_
  case badMcs => exact if_pos hmcs
  case tooLarge => exact Eq.trans (if_neg (by omega)) (if_pos hcap)

/-- Settles O12: in a decode the two flags take their values, which a second time they have. -/
theorem endOfDataSetsEod : Obligations.EndOfDataSetsEod := by
  intro s
  have haccept (hp : s.flags.phase = .decoding) : exec .endOfData s =
      .next { s with flags := { s.flags with eod := true, errCode := .none } } :=
    if_neg (not_not.2 hp)
  refine ⟨fun hp => if_pos hp, haccept, fun hp heod herr => ?_⟩
  rw [haccept hp, ← heod, ← herr]

/-- Check 4 of START_RENDER as numbers (R147). -/
theorem coordOverflow_iff {s : State} : coordOverflow s = true ↔
    1 ≤ s.frame.decW.toNat ∧ 1 ≤ s.frame.decH.toNat ∧
    (65535 < s.cfg.destX.toNat + s.cfg.frameX.toNat + s.frame.decW.toNat - 1 ∨
      65535 < s.cfg.destY.toNat + s.cfg.frameY.toNat + s.frame.decH.toNat - 1) := by
  simp only [coordOverflow, Bool.and_eq_true, Bool.or_eq_true, decide_eq_true_eq, and_assoc]

theorem toNat_eq_zero_iff {n : Nat} (x : BitVec n) : x.toNat = 0 ↔ x = 0 := by
  simp [BitVec.toNat_eq]

/-- What an accepted START_RENDER does, by its three outcomes (42_palette_mapper.md R130, R131). -/
theorem startRender_eq (s : State) : startRender s =
    { s with
      frame := { s.frame with renRow := 0 }
      flags :=
        if s.cfg.palSize = 0 then
          { s.flags with errCode := .none, renDone := true, renSkip := true }
        else if s.frame.decW = 0 ∨ s.frame.decH = 0 then
          { s.flags with errCode := .none, renDone := true, renSkip := false }
        else { s.flags with errCode := .none, renDone := false, renSkip := false,
                            phase := .rendering } } := by
  simp only [startRender, toNat_eq_zero_iff]

/-- Settles O13: the four checks pass, and `startRender` has the three outcomes. -/
theorem startRenderRendersOrSkips : Obligations.StartRenderRendersOrSkips := by
  intro s hp hd hc hcoord
  have hno : ¬ coordOverflow s = true := fun h => by
    obtain ⟨hw, hh, hover⟩ := coordOverflow_iff.1 h
    obtain ⟨hx, hy⟩ := hcoord hw hh
    omega
  change execStartRender s = _
  rw [execStartRender, if_neg (not_not.2 hp), if_neg (by simp [hd]), if_neg (by omega), if_neg hno,
    startRender_eq]

/-- Settles O14: the first check that fails answers. -/
theorem startRenderChecksInOrder : Obligations.StartRenderChecksInOrder := by
  intro s
  refine ⟨fun hp => if_pos hp, fun hp hd => ?noFrame, fun hp hd hc => ?badChunk,
    fun hp hd hc hw hh hover => ?coordOvf⟩ <;> refine Eq.trans (if_neg (not_not.2 hp)) ?_
  case noFrame => exact if_pos hd
  all_goals refine Eq.trans (if_neg (by simp [hd])) ?_
  case badChunk => exact if_pos ((toNat_eq_zero_iff _).2 hc)
  case coordOvf =>
    exact Eq.trans (if_neg (mt (toNat_eq_zero_iff _).1 hc))
      (if_pos (coordOverflow_iff.2 ⟨hw, hh, hover⟩))

/-! ### Register writes (R141, R149 to R151) -/

/-- Settles O15: each of the seven writes is a `writeCfg`, whose one condition is the phase. -/
theorem configurationWritesWhenIdle : Obligations.ConfigurationWritesWhenIdle := fun _ hp =>
  ⟨fun _ => if_pos hp, fun _ _ => if_pos hp, fun _ _ => if_pos hp, fun _ _ _ _ => if_pos hp,
    fun _ => if_pos hp, fun _ => if_pos hp, fun _ _ => if_pos hp⟩

/-- Settles O18: the write has no condition. -/
theorem indexAddressWriteInAnyPhase : Obligations.IndexAddressWriteInAnyPhase := fun _ _ => rfl

/-- Settles O19: the three outcomes of an offer. -/
theorem dataInPushesDropsOrHolds : Obligations.DataInPushesDropsOrHolds := by
  intro s b
  refine ⟨fun hdrop => congrArg _ (if_pos hdrop), fun hp heod hroom =>
    exec_wrDataIn_push b hp heod hroom, fun hp heod hfull => ⟨?hold, rfl⟩⟩
  change Host.Outcome.next (offerByte b s) = _
  rw [offerByte, if_neg (by simp [hp, heod]), if_neg (Nat.not_lt.2 hfull)]

/-! ### The palette window (R150) -/

/-- A read that faults stops the model (10_state.md R13). -/
theorem exec_rd_fault {s : State} {a : RegAddr} {f : Fault} (h : readReg s a = .error f) :
    exec (.rd a) s = .fault f := by
  simp only [exec, execRd, h]

/-- The window answers with its palette entry, zero-extended (10_state.md R31). -/
theorem readReg_palette (s : State) (i : BitVec 8) :
    readReg s (BitVec.ofNat 10 (0x100 + i.toNat)) =
      (readPal s i.toNat).map fun c => BitVec.ofNat 32 c.toNat := by
  have hi := i.isLt
  have ha : (BitVec.ofNat 10 (0x100 + i.toNat)).toNat = 0x100 + i.toNat := by
    rw [BitVec.toNat_ofNat]; omega
  have hne : ∀ k ≤ 0x4C, BitVec.ofNat 10 (0x100 + i.toNat) ≠ regAt k := fun k hk =>
    ne_regAt (by omega)
  simp (disch := decide) only [readReg, if_neg (hne _ _)]
  rw [if_pos (by omega), ha, Nat.add_sub_cancel_left]
  cases readPal s i.toNat with
  | ok c => exact congrArg Except.ok (BitVec.ofNat_toNat 32 c).symm
  | error f => rfl

/-- A written entry is read. -/
theorem exec_rd_palette {s : State} {i : BitVec 8} {c : Colour}
    (h : Mem.read s.pal i.toNat = some c) : exec (.rd (BitVec.ofNat 10 (0x100 + i.toNat))) s =
      .next { s with rdata := BitVec.ofNat 32 c.toNat } :=
  exec_rd (by rw [readReg_palette, readPal, h]; rfl)

/-- Settles O25: the window's answer is `readPal`'s. -/
theorem paletteReadReturnsTheEntryOrFaults : Obligations.PaletteReadReturnsTheEntryOrFaults :=
  fun s i => ⟨fun _ => exec_rd_palette, fun h =>
    exec_rd_fault (by rw [readReg_palette, readPal, h]; rfl)⟩

/-- Settles O17: the laws of a memory write, and the read of the entry written. -/
theorem paletteWriteStoresOneEntry : Obligations.PaletteWriteStoresOneEntry := by
  intro s i c hp
  have hread : Mem.read (Mem.write s.pal i.toNat c) i.toNat = some c :=
    Mem.read_write_same s.pal i.toNat c
  exact ⟨{ s with pal := Mem.write s.pal i.toNat c }, if_pos hp, hread,
    fun j hj => Mem.read_write_other s.pal c hj, rfl, exec_rd_palette hread⟩

end Sys2Proof.Machine
end

section
/-! ## Proofs: reset and hazards (70_reset_and_hazards.md)

A decode that has its end stops, by the steps it has left; hardware reset; writes lost while the
engine runs. -/

namespace Sys2Proof.Machine

/-! ### A decode that has its end (R199 item 3) -/

/-- A bound on the engine steps a decode with its end can take before its last: FILL turns a queued
byte, counted 9, into 8 bits, and CODE takes bits. -/
def decodeStepsLeft (s : State) : Nat := 9 * s.inq.length + s.br.bitCnt.toNat

/-- What an engine step makes of a decode with its end: it stops, or there are fewer steps left. -/
inductive EndingStep (s t : State) : Prop
  | stopped (hphase : t.flags.phase = .idle) (hdone : t.flags.decDone = true)
  | goesOn (hflags : t.flags = s.flags) (hless : decodeStepsLeft t < decodeStepsLeft s)

/-- After END_OF_DATA no DATA_IN write is held (43_host_commands.md R149). -/
theorem PortOk.held_none_of_eod {s : State} (h : PortOk s) (heod : s.flags.eod = true) :
    s.held = none := by
  by_contra hheld
  obtain ⟨-, hno, -⟩ := h.1 hheld
  rw [heod] at hno; cases hno

/-- With nothing waiting at the port and no turn listed, the step is the one the state selects
(log 2). -/
theorem step_selected {s : State} {i : Instr} (hsched : s.sched = [])
    (hpend : s.resetPending = false) (hheld : s.held = none) (hi : engineSelect s = some i) :
    step s = exec i s := by
  rw [step_nil hsched, hi]
  exact engineTurn_some hi hpend hheld

section
variable {s : State} (hs : Inv s) (hp : s.flags.phase = .decoding)
include hs hp

/-- CODE stops the decode, or takes bits and leaves the queue. -/
theorem code_endingStep (hle : s.lzw.codeWidth.toNat ≤ s.br.bitCnt.toNat) :
    ∃ t, exec .code s = .next t ∧ EndingStep s t := by
  obtain ⟨t, ht, hbits, hflags | ⟨cause, -, hflags⟩⟩ := codeAlwaysCompletes s hs hp hle
  · obtain ⟨hframe, -⟩ := exec_code_frame ht
    have hinq : t.inq = s.inq := by rw [hframe]
    exact ⟨t, ht, .goesOn hflags (by rw [decodeStepsLeft, decodeStepsLeft, hinq]; omega)⟩
  · exact ⟨t, ht, .stopped (by rw [hflags]; rfl) (by rw [hflags]; rfl)⟩

/-- FILL takes a byte from the queue for 8 bits in the buffer. -/
theorem fill_endingStep {b : Byte} {rest : List Byte}
    (hlt : s.br.bitCnt.toNat < s.lzw.codeWidth.toNat) (hq : s.inq = b :: rest) :
    ∃ t, exec .fill s = .next t ∧ EndingStep s t := by
  obtain ⟨t, ht, hframe, -, hbits, -⟩ := fillTakesTheOldestByte s b rest hs hp hlt hq
  have hinq : t.inq = rest := by rw [hframe]
  refine ⟨t, ht, .goesOn (by rw [hframe]) ?_⟩
  rw [decodeStepsLeft, decodeStepsLeft, hinq, hq, List.length_cons]
  omega

/-- A decode with its end never waits: CODE, FILL or EXHAUST is selected, completes, and stops the
decode or leaves fewer steps. -/
theorem exists_endingStep (heod : s.flags.eod = true) :
    ∃ i t, engineSelect s = some i ∧ exec i s = .next t ∧ EndingStep s t := by
  have hsel := engineSelect_eq s
  rw [hp] at hsel
  dsimp only at hsel
  by_cases hle : s.lzw.codeWidth.toNat ≤ s.br.bitCnt.toNat
  · rw [if_pos hle] at hsel
    exact ⟨.code, (code_endingStep hs hp hle).imp fun _ h => ⟨hsel, h⟩⟩
  have hlt := Nat.lt_of_not_le hle
  rw [if_neg hle] at hsel
  cases hq : s.inq with
  | nil =>
    rw [if_neg (not_not.2 hq), if_pos heod] at hsel
    exact ⟨.exhaust, _, hsel, exhaustStopsTheDecode s hp hlt hq heod, .stopped rfl rfl⟩
  | cons b rest =>
    rw [if_pos (by rw [hq]; exact List.cons_ne_nil b rest)] at hsel
    exact ⟨.fill, (fill_endingStep hs hp hlt hq).imp fun _ h => ⟨hsel, h⟩⟩

/-- Where the engine moves, one such step a turn: the steps left, and one more, stop the decode. -/
theorem endingDecode_stops (heod : s.flags.eod = true) (hsched : s.sched = []) :
    ∃ k t, k ≤ decodeStepsLeft s + 1 ∧ Host.Core.run Sys2Proof.core k s = .next t ∧
      t.flags.phase = .idle ∧ t.flags.decDone = true := by
  induction hn : decodeStepsLeft s using Nat.strong_induction_on generalizing s with
  | _ n ih =>
    have hpend : s.resetPending = false := hs.port.pending_false (by rw [hp]; decide)
    obtain ⟨i, t, hi, ht, hend⟩ := exists_endingStep hs hp heod
    have hstep : step s = .next t :=
      (step_selected hsched hpend (hs.port.held_none_of_eod heod) hi).trans ht
    cases hend with
    | stopped hphase hdone => exact ⟨1, t, by omega, run_succ hstep 0, hphase, hdone⟩
    | goesOn hflags hless =>
      obtain ⟨k, u, hk, hrun, hu⟩ := ih (decodeStepsLeft t) (hn ▸ hless)
        (stepKeepsTheInvariant s t hs hstep) (by rw [hflags, hp]) (by rw [hflags, heod])
        ((exec_sched ht).trans hsched) rfl
      exact ⟨k + 1, u, by omega, (run_succ hstep k).trans hrun, hu⟩

end

/-- Settles O58: every engine step but the last leaves fewer of the 9 steps a queued byte and
the one a buffered bit. -/
theorem decodeWithItsEndStops : Obligations.DecodeWithItsEndStops :=
  fun _ => endingDecode_stops

/-! ### Hardware reset (R185) -/

/-- Settles O6: the turn is `hardwareReset`, with `reg_rdata` at 0. -/
theorem hardwareResetFromAnyState : Obligations.HardwareResetFromAnyState :=
  fun _ _ hq => ⟨0, step_cons hq⟩

/-! ### Writes while the engine runs (R190) -/

/-- Settles O16: each of the eight writes asks for PHASE = IDLE, and else leaves the state. -/
theorem configurationWritesAreLostWhenBusy : Obligations.ConfigurationWritesAreLostWhenBusy :=
  fun _ hp => ⟨fun _ => if_neg hp, fun _ _ => if_neg hp, fun _ _ => if_neg hp,
    fun _ _ _ _ => if_neg hp, fun _ => if_neg hp, fun _ => if_neg hp, fun _ _ => if_neg hp,
    fun _ _ => if_neg hp⟩

end Sys2Proof.Machine
end
